-- ==== Sys2Proof/Word.lean ====
section
/-! DEFINITION. The word types of the block (00_scope.md R8, R9): a byte is 8 bits, the payload length 64 bits, the
words of SHA-1 32 bits. -/

namespace Sys2Proof

/-- One byte of a stream, a header or a buffer (R8). -/
abbrev Byte := BitVec 8

/-- One word of the SHA-1 unit (43_accept_key_sha1.md R204). -/
abbrev Word32 := BitVec 32

/-- A payload length or a byte counter (R8, R27). -/
abbrev Word64 := BitVec 64

/-- A command code on the command port (30_encoding.md R100). -/
abbrev Cmd := BitVec 3

end Sys2Proof
end

