-- ==== Sys2Proof/Syntax.lean ====
section
/-! DEFINITION. The opcode table: one constructor per row of spec/opcode_table.json, its free bits the arguments. -/

namespace Sys2Proof

/-- One row of the opcode table with its free bits filled in. Four formats share the byte values; which format a byte
is read in is the port's business (`Port`, log 9). -/
inductive Instr where
  /-- Header byte 0, opcode 0x0 (40_decode.md R126). -/
  | continuation (fin : Bool)
  /-- Header byte 0, opcode 0x1 (R127). -/
  | text (fin : Bool)
  /-- Header byte 0, opcode 0x2 (R128). -/
  | binary (fin : Bool)
  /-- Header byte 0, opcode 0x8 (R129). -/
  | close (fin : Bool)
  /-- Header byte 0, opcode 0x9 (R130). -/
  | ping (fin : Bool)
  /-- Header byte 0, opcode 0xA (R131). -/
  | pong (fin : Bool)
  /-- Header byte 0 with bit 6 set (R124). -/
  | rsvBit6Set (fin : Bool) (rsv54 : BitVec 2) (op : BitVec 4)
  /-- Header byte 0 with bit 6 clear and bit 5 set (R124, log 11). -/
  | rsvBit5Set (fin : Bool) (rsv4 : Bool) (op : BitVec 4)
  /-- Header byte 0 with bits 6 and 5 clear and bit 4 set (R124, log 11). -/
  | rsvBit4Set (fin : Bool) (op : BitVec 4)
  /-- Header byte 0, RSV = 000, opcode 0x3 (R125). -/
  | reservedOp3 (fin : Bool)
  /-- Header byte 0, RSV = 000, opcode 0x4 to 0x7 (R125). -/
  | reservedOp4To7 (fin : Bool) (low : BitVec 2)
  /-- Header byte 0, RSV = 000, opcode 0xB (R125). -/
  | reservedOpB (fin : Bool)
  /-- Header byte 0, RSV = 000, opcode 0xC to 0xF (R125). -/
  | reservedOpCToF (fin : Bool) (low : BitVec 2)
  /-- Header byte 1, LEN7 ≤ 125 (R133). -/
  | lenDirect (mask : Bool) (len7 : BitVec 7)
  /-- Header byte 1, LEN7 = 126 (R133, R134). -/
  | lenExt16 (mask : Bool)
  /-- Header byte 1, LEN7 = 127 (R133, R135). -/
  | lenExt64 (mask : Bool)
  /-- Emitted header byte 1, length ≤ 125 (41_encode.md R173). -/
  | encLenDirect (len7 : BitVec 7)
  /-- Emitted header byte 1, length 126 to 65535 (R174). -/
  | encLenExt16
  /-- Emitted header byte 1, length ≥ 65536 (R175). -/
  | encLenExt64
  /-- Command 001 (40_decode.md R120). -/
  | decode
  /-- Command 010 (41_encode.md R170). -/
  | encode
  /-- Command 011 (42_mask_cipher.md R193). -/
  | maskApply
  /-- Command 100 (43_accept_key_sha1.md R200). -/
  | acceptKey
  /-- Reserved command 000 (30_encoding.md R100, R101). -/
  | reservedCmd000
  /-- Reserved command 101 (R100, R101). -/
  | reservedCmd101
  /-- Reserved command 110 (R100, R101). -/
  | reservedCmd110
  /-- Reserved command 111 (R100, R101). -/
  | reservedCmd111
deriving DecidableEq, Repr

/-- Where a byte or a code is read as a row (log 9): the command port in IDLE, header byte 0 in D_B0, header byte 1 in
D_B1, and the encoder's own header byte 1. -/
inductive Port where
  | cmd
  | rxByte0
  | rxByte1
  | encByte1
deriving DecidableEq, Repr

/-- The format of a row: which port reads it. -/
def Instr.port : Instr → Port
  | .continuation _ | .text _ | .binary _ | .close _ | .ping _ | .pong _ => .rxByte0
  | .rsvBit6Set _ _ _ | .rsvBit5Set _ _ _ | .rsvBit4Set _ _ => .rxByte0
  | .reservedOp3 _ | .reservedOp4To7 _ _ | .reservedOpB _ | .reservedOpCToF _ _ => .rxByte0
  | .lenDirect _ _ | .lenExt16 _ | .lenExt64 _ => .rxByte1
  | .encLenDirect _ | .encLenExt16 | .encLenExt64 => .encByte1
  | .decode | .encode | .maskApply | .acceptKey => .cmd
  | .reservedCmd000 | .reservedCmd101 | .reservedCmd110 | .reservedCmd111 => .cmd

end Sys2Proof
end

