-- ==== Sys2Proof/WellFormed.lean ====
section
/-! DEFINITION. Which terms are rows: the operand ranges the table's bit patterns do not already force. -/

namespace Sys2Proof

/-- The two DIRECT rows carry a length of at most 125, since 126 and 127 mark the extended forms (30_encoding.md R95;
41_encode.md R173). Every other argument may take any value of its width. -/
def Instr.wellFormed : Instr → Bool
  | .lenDirect _ len7 => decide (len7 ≤ 125#7)
  | .encLenDirect len7 => decide (len7 ≤ 125#7)
  | .continuation _ | .text _ | .binary _ | .close _ | .ping _ | .pong _ => true
  | .rsvBit6Set _ _ _ | .rsvBit5Set _ _ _ | .rsvBit4Set _ _ => true
  | .reservedOp3 _ | .reservedOp4To7 _ _ | .reservedOpB _ | .reservedOpCToF _ _ => true
  | .lenExt16 _ | .lenExt64 _ | .encLenExt16 | .encLenExt64 => true
  | .decode | .encode | .maskApply | .acceptKey => true
  | .reservedCmd000 | .reservedCmd101 | .reservedCmd110 | .reservedCmd111 => true

end Sys2Proof
end

