-- ==== Sys2Proof/Decode.lean ====
section
/-! DEFINITION. The decoders of the four formats (30_encoding.md R91, R94, R95, R100; 40_decode.md R122 to R133;
41_encode.md R173 to R176), total on any byte, and the encoder back. -/

namespace Sys2Proof

/-- Why a byte is no row at a port. -/
inductive Reject where
  /-- A command code has 3 bits (R100); the byte has a bit above them. -/
  | commandCodeTooWide
  /-- The encoder never sets the MASK bit (R176), so the byte is none of its rows. -/
  | maskBitInEncoderByte
deriving DecidableEq, Repr

/-- Header byte 0 from its fields FIN, RSV, OPCODE (R91). -/
def byte0Of (fin : Bool) (rsv : BitVec 3) (op : BitVec 4) : Byte :=
  BitVec.ofBool fin ++ rsv ++ op

/-- Header byte 1 from its fields MASK, LEN7 (R94). -/
def byte1Of (mask : Bool) (len7 : BitVec 7) : Byte :=
  BitVec.ofBool mask ++ len7

/-- The 3-bit RSV field of the row RSV_BIT6_SET. -/
def rsvOfBit6 (rsv54 : BitVec 2) : BitVec 3 := 1#1 ++ rsv54

/-- The 3-bit RSV field of the row RSV_BIT5_SET. -/
def rsvOfBit5 (rsv4 : Bool) : BitVec 3 := 1#2 ++ BitVec.ofBool rsv4

/-- The opcode of the rows RESERVED_OP_4_7. -/
def opOf4To7 (low : BitVec 2) : BitVec 4 := 1#2 ++ low

/-- The opcode of the rows RESERVED_OP_C_F. -/
def opOfCToF (low : BitVec 2) : BitVec 4 := 3#2 ++ low

/-- The command port (R100): every code is a row. -/
def decodeCmd (c : Cmd) : Instr :=
  match c.toNat with
  | 1 => .decode
  | 2 => .encode
  | 3 => .maskApply
  | 4 => .acceptKey
  | 0 => .reservedCmd000
  | 5 => .reservedCmd101
  | 6 => .reservedCmd110
  | _ => .reservedCmd111

/-- Header byte 0 with RSV = 000, by its opcode (R92). -/
def decodeOpcode (fin : Bool) (op : BitVec 4) : Instr :=
  match op.toNat with
  | 0 => .continuation fin
  | 1 => .text fin
  | 2 => .binary fin
  | 3 => .reservedOp3 fin
  | 8 => .close fin
  | 9 => .ping fin
  | 10 => .pong fin
  | 11 => .reservedOpB fin
  | _ => if op.getLsbD 3 then .reservedOpCToF fin (op.extractLsb' 0 2) else .reservedOp4To7 fin (op.extractLsb' 0 2)

/-- Header byte 0 (R91, R123 to R125): the RSV rows come before the opcode rows (R243). -/
def decodeByte0 (b : Byte) : Instr :=
  if b.getLsbD 6 then .rsvBit6Set (b.getLsbD 7) (b.extractLsb' 4 2) (b.extractLsb' 0 4)
  else if b.getLsbD 5 then .rsvBit5Set (b.getLsbD 7) (b.getLsbD 4) (b.extractLsb' 0 4)
  else if b.getLsbD 4 then .rsvBit4Set (b.getLsbD 7) (b.extractLsb' 0 4)
  else decodeOpcode (b.getLsbD 7) (b.extractLsb' 0 4)

/-- Header byte 1 (R94, R133): LEN7 selects the length form. -/
def decodeByte1 (b : Byte) : Instr :=
  let len7 := b.extractLsb' 0 7
  if len7 ≤ 125#7 then .lenDirect (b.getLsbD 7) len7
  else if len7 = 126#7 then .lenExt16 (b.getLsbD 7)
  else .lenExt64 (b.getLsbD 7)

/-- The encoder's header byte 1 (R173 to R176). -/
def decodeEncByte1 (b : Byte) : Except Reject Instr :=
  if b.getLsbD 7 then .error .maskBitInEncoderByte
  else if b = 126#8 then .ok .encLenExt16
  else if b = 127#8 then .ok .encLenExt64
  else .ok (.encLenDirect (b.extractLsb' 0 7))

/-- The row a byte stands for at a port. A command code is laid out in bits 2 to 0 of a byte. -/
def decode (p : Port) (b : Byte) : Except Reject Instr :=
  match p with
  | .cmd => if b.toNat < 8 then .ok (decodeCmd (b.extractLsb' 0 3)) else .error .commandCodeTooWide
  | .rxByte0 => .ok (decodeByte0 b)
  | .rxByte1 => .ok (decodeByte1 b)
  | .encByte1 => decodeEncByte1 b

/-- The byte of a row, from the table's match and its free bits. -/
def encodeByte : Instr → Byte
  | .continuation fin => byte0Of fin 0#3 0x0#4
  | .text fin => byte0Of fin 0#3 0x1#4
  | .binary fin => byte0Of fin 0#3 0x2#4
  | .close fin => byte0Of fin 0#3 0x8#4
  | .ping fin => byte0Of fin 0#3 0x9#4
  | .pong fin => byte0Of fin 0#3 0xA#4
  | .rsvBit6Set fin rsv54 op => byte0Of fin (rsvOfBit6 rsv54) op
  | .rsvBit5Set fin rsv4 op => byte0Of fin (rsvOfBit5 rsv4) op
  | .rsvBit4Set fin op => byte0Of fin 1#3 op
  | .reservedOp3 fin => byte0Of fin 0#3 0x3#4
  | .reservedOp4To7 fin low => byte0Of fin 0#3 (opOf4To7 low)
  | .reservedOpB fin => byte0Of fin 0#3 0xB#4
  | .reservedOpCToF fin low => byte0Of fin 0#3 (opOfCToF low)
  | .lenDirect mask len7 => byte1Of mask len7
  | .lenExt16 mask => byte1Of mask 126#7
  | .lenExt64 mask => byte1Of mask 127#7
  | .encLenDirect len7 => byte1Of false len7
  | .encLenExt16 => 0x7E#8
  | .encLenExt64 => 0x7F#8
  | .decode => 1#8
  | .encode => 2#8
  | .maskApply => 3#8
  | .acceptKey => 4#8
  | .reservedCmd000 => 0#8
  | .reservedCmd101 => 5#8
  | .reservedCmd110 => 6#8
  | .reservedCmd111 => 7#8

/-- The words of an instruction: the port that reads it and the byte it is there. -/
def encode (i : Instr) : Port × Byte := (i.port, encodeByte i)

/-- Match and mask of a row in opcode_table.json. A command's 3-bit pattern is laid out in a byte whose upper bits
are 0. -/
def tableRow : Instr → Byte × Byte
  | .continuation _ => (0x00, 0x7F)
  | .text _ => (0x01, 0x7F)
  | .binary _ => (0x02, 0x7F)
  | .close _ => (0x08, 0x7F)
  | .ping _ => (0x09, 0x7F)
  | .pong _ => (0x0A, 0x7F)
  | .rsvBit6Set _ _ _ => (0x40, 0x40)
  | .rsvBit5Set _ _ _ => (0x20, 0x20)
  | .rsvBit4Set _ _ => (0x10, 0x10)
  | .reservedOp3 _ => (0x03, 0x7F)
  | .reservedOp4To7 _ _ => (0x04, 0x7C)
  | .reservedOpB _ => (0x0B, 0x7F)
  | .reservedOpCToF _ _ => (0x0C, 0x7C)
  | .lenDirect _ _ => (0x00, 0x00)
  | .lenExt16 _ => (0x7E, 0x7F)
  | .lenExt64 _ => (0x7F, 0x7F)
  | .encLenDirect _ => (0x00, 0x80)
  | .encLenExt16 => (0x7E, 0xFF)
  | .encLenExt64 => (0x7F, 0xFF)
  | .decode => (1, 7)
  | .encode => (2, 7)
  | .maskApply => (3, 7)
  | .acceptKey => (4, 7)
  | .reservedCmd000 => (0, 7)
  | .reservedCmd101 => (5, 7)
  | .reservedCmd110 => (6, 7)
  | .reservedCmd111 => (7, 7)

/-- DESIGN CHOICE (log 9): the port at which a table word with no port of its own is read. Rows that fix more bits of
the byte come first: a byte of value 0 to 7 is a command code, a byte whose low 7 bits mark an extended length is
header byte 1, and every other byte is header byte 0. -/
def tablePort (b : Byte) : Port :=
  if b.toNat < 8 then .cmd
  else if 126#7 ≤ b.extractLsb' 0 7 then .rxByte1
  else .rxByte0

/-- The byte of a table word: its bits above `nbits` are 0, and every row has one byte. -/
def tableByte (nbits w : Nat) : Byte := BitVec.ofNat 8 (w % 2 ^ nbits)

/-- The instruction the decoders read from a table word (log 9). -/
def decodeTableWord (nbits w : Nat) : Option Instr :=
  let b := tableByte nbits w
  match decode (tablePort b) b with
  | .ok i => some i
  | .error _ => none

end Sys2Proof
end

