-- ==== Sys2Proof/Config.lean ====
section
/-! DEFINITION. The implementation parameters (00_scope.md R7). N2O fixes neither, so the machine carries them in its
state and every claim about an arbitrary state holds for every value of them (log 6). -/

namespace Sys2Proof

/-- R7: the capacity of RX_PBUF and of TX_PBUF, and the capacity of NONCE_BUF, in bytes. -/
structure Config where
  pbufBytes : Nat
  nonceMax  : Nat
deriving DecidableEq, Repr

/-- The constraints of R7: 125 ≤ PBUF_BYTES ≤ 2^63 − 1 and 1 ≤ NONCE_MAX < 2^61 − 36. -/
def Config.wf (c : Config) : Bool :=
  decide (125 ≤ c.pbufBytes) && decide (c.pbufBytes ≤ 2 ^ 63 - 1) &&
    decide (1 ≤ c.nonceMax) && decide (c.nonceMax < 2 ^ 61 - 36)

/-- DESIGN CHOICE (log 6): the parameters of 95_test_vectors.md's conventions. The spec leaves both OPEN (D6, D7). -/
def Config.vectors : Config where
  pbufBytes := 70000
  nonceMax  := 64

end Sys2Proof
end

