-- ==== Sys2Proof/Machine/State.lean ====
section
/-! DEFINITION. The state of the block and of the streams and ports around it (10_state.md, 20_memory.md), as plain
data, and the state right after reset (R36). -/

namespace Sys2Proof.Machine

/-- Why the machine stops. All three are the model faults the spec names; none is a state of the hardware. -/
inductive Fault where
  /-- 10_state.md R35, 20_memory.md R73, 10_state.md R30: an agent read a register or buffer byte that has no value, or
  HOST read RX_PBUF, DIGEST or ACCEPT_OUT while it is no result. Raised by `Reg.read`, `Memory.load`, `hostRead`. After
  reset every register has a value (log 3), so a run meets it on an `RX_*` field that DECODE acceptance has taken the
  value of (R121), on a buffer byte, and on those results. Safe: the hardware gives an unspecified value. -/
  | unwrittenRead
  /-- 70_reset_and_hazards.md R276: HOST touched a buffer or result register that the running command uses. Raised by
  HOST turns only. Safe: the hardware gives an unspecified mix. -/
  | bufferHazard
  /-- 20_memory.md R71: an index at or above the buffer's size. Raised by HOST turns; the CODEC raises it only in a
  state that no run reaches (log 26). Safe. -/
  | bufferIndex
deriving DecidableEq, Repr

/-- Why an instruction has no meaning here. Raised by `exec` for an arm that is not modelled; no arm is. Safe. -/
inductive Refusal where
  | notModelled (mnemonic : String)
deriving DecidableEq, Repr

/-- R21: the values of `STATE`, the sequencer state. -/
inductive Seq where
  | idle
  | dB0
  | dB1
  | dExt
  | dKey
  | dPay
  | dChk
  | eHdr
  | ePay
  | mRun
  | aRun
  | error
deriving DecidableEq, Repr

/-- 60_exceptions.md R240: the error codes 0 to 11. -/
inductive ErrCode where
  | none
  | reservedBitsSet
  | invalidOpcode
  | lengthOverflow
  | truncatedStream
  | invalidControlFrame
  | connectionClosed
  | payloadTooLarge
  | invalidInput
  | invalidFrame
  | operandRange
  | illegalCommand
deriving DecidableEq, Repr

/-- A register that may have no value in the sense of R35: its bits, and the mark that they are a value. While the mark
is off, every read faults, so no rule uses the bits. Reset leaves the mark on (log 3); R121 takes it off. -/
structure Reg (α : Type) where
  val   : α
  known : Bool
deriving DecidableEq, Repr

/-- A register that has been written. -/
abbrev Reg.of {α : Type} (v : α) : Reg α := ⟨v, true⟩

/-- The register loses its value (40_decode.md R121); its bits stay whatever they are. -/
abbrev Reg.forget {α : Type} (r : Reg α) : Reg α := ⟨r.val, false⟩

/-- A byte-indexed buffer (20_memory.md R70): cells of strictly rising index. An unlisted byte has no value (log 7). -/
abbrev Memory := List Host.Cell

/-- R23: the status registers but `STATE`. -/
structure Status where
  done     : Bool
  err      : Bool
  errCode  : ErrCode
  errState : Seq
  lastCmd  : Cmd
deriving DecidableEq, Repr

/-- R24, R25: one set of operands. The state holds it twice, as `OP_*` and as the latched `L_*`. -/
structure Operands where
  fin      : Reg Bool
  opcode   : Reg (BitVec 4)
  masked   : Reg Bool
  len      : Reg Word64
  key      : Vector (Reg Byte) 4
  nonceLen : Reg Word64
deriving DecidableEq, Repr

/-- R26, R27: the decoded Frame and `FRAME_BYTES`. -/
structure RxRegs where
  fin        : Reg Bool
  rsv        : Reg (BitVec 3)
  opcode     : Reg (BitVec 4)
  masked     : Reg Bool
  len7       : Reg (BitVec 7)
  len        : Reg Word64
  key        : Vector (Reg Byte) 4
  frameValid : Bool
  frameBytes : Reg Word64
deriving DecidableEq, Repr

/-- R28: the decoder's hidden working registers. -/
structure DecWork where
  extNeed : BitVec 4
  extCnt  : BitVec 4
  extAcc  : Word64
  keyCnt  : BitVec 3
  payCnt  : Word64
deriving DecidableEq, Repr

/-- R29: the encoder's registers. -/
structure EncRegs where
  hdr     : Vector Byte 10
  hdrLen  : BitVec 4
  cnt     : BitVec 4
  payCnt  : Word64
  txBytes : Reg Word64
deriving DecidableEq, Repr

/-- R30: the accept-key result registers. -/
structure AcceptRegs where
  digest    : Vector Byte 20
  acceptOut : Vector Byte 28
  valid     : Bool
deriving DecidableEq, Repr

/-- 43_accept_key_sha1.md R207, R212: the intermediate hash words. -/
structure Hash where
  h0 : Word32
  h1 : Word32
  h2 : Word32
  h3 : Word32
  h4 : Word32
deriving DecidableEq, Repr

/-- 43_accept_key_sha1.md R210, R211: the working variables. -/
structure Vars where
  a : Word32
  b : Word32
  c : Word32
  d : Word32
  e : Word32
deriving DecidableEq, Repr

/-- R31: the SHA-1 core's hidden working state (log 23). -/
structure ShaWork where
  hash  : Hash
  vars  : Vars
  w     : Vector Word32 80
  round : Nat
deriving DecidableEq, Repr

/-- 20_memory.md R70: the three writable spaces. -/
structure Buffers where
  rxPbuf   : Memory
  txPbuf   : Memory
  nonceBuf : Memory
deriving DecidableEq, Repr

/-- R34: what HOST may write. -/
inductive HostWrite where
  | opFin (v : Bool)
  | opOpcode (v : BitVec 4)
  | opMasked (v : Bool)
  | opLen (v : Word64)
  | opKey (i : Fin 4) (v : Byte)
  | opNonceLen (v : Word64)
  | txPbuf (a : Nat) (v : Byte)
  | nonceBuf (a : Nat) (v : Byte)
deriving DecidableEq, Repr

/-- R34: what HOST may read. -/
inductive HostRead where
  | state
  | busy
  | done
  | err
  | errCode
  | errState
  | lastCmd
  | opFin
  | opOpcode
  | opMasked
  | opLen
  | opKey (i : Fin 4)
  | opNonceLen
  | rxFin
  | rxRsv
  | rxOpcode
  | rxMasked
  | rxLen7
  | rxLen
  | rxKey (i : Fin 4)
  | rxFrameValid
  | frameBytes
  | txBytes
  | digest (i : Fin 20)
  | acceptOut (i : Fin 28)
  | acceptValid
  | rxPbuf (a : Nat)
  | txPbuf (a : Nat)
  | nonceBuf (a : Nat)
  | guidRom (a : Nat)
deriving DecidableEq, Repr

/-- One turn of an agent (10_state.md R20, 30_encoding.md R106, log 1). -/
inductive Turn where
  /-- The CODEC takes its step. -/
  | codec
  /-- HOST offers a command code (R100). -/
  | offer (c : Cmd)
  /-- HOST writes an operand register or a buffer byte. -/
  | write (w : HostWrite)
  /-- HOST reads a register or a buffer byte. -/
  | read (r : HostRead)
  /-- HOST copies RX_PBUF[a] to TX_PBUF[b]. -/
  | copyByte (a b : Nat)
  /-- HOST waits until DONE = 1 or ERR = 1 (log 13). -/
  | wait
  /-- HOST asserts ABORT (60_exceptions.md R250). -/
  | abort
  /-- Reset (70_reset_and_hazards.md R270). -/
  | reset
  /-- The RX source appends bytes (20_memory.md R75). -/
  | rxAppend (bytes : List Byte)
  /-- The RX source sets `closed` (R75). -/
  | rxClose
  /-- The TX sink becomes ready, or stops being ready (R78). -/
  | txSink (ready : Bool)
deriving DecidableEq, Repr

/-- The streams and ports around the block. None of it is the block's, and reset leaves it alone (R272). -/
structure Env where
  /-- R75: the bytes the RX source has delivered and the CODEC has not taken. -/
  rx       : List Byte
  /-- R75: the RX source appends nothing more. -/
  rxClosed : Bool
  /-- R78: the bytes handed to the TX sink so far, oldest first. -/
  tx       : List Byte
  /-- R78: the sink can take a byte. -/
  txReady  : Bool
  /-- R101: the command HOST offers and the CODEC has not accepted (log 14). -/
  offer    : Option Cmd
  /-- What HOST's last read returned (log 17). -/
  hostSaw  : Option Nat
  /-- Which agent moves next; the CODEC where the list is empty (log 1). -/
  agenda   : List Turn
deriving DecidableEq, Repr

/-- The machine. -/
structure State where
  cfg    : Config
  seq    : Seq
  status : Status
  op     : Operands
  latch  : Operands
  rx     : RxRegs
  dec    : DecWork
  enc    : EncRegs
  acc    : AcceptRegs
  sha    : ShaWork
  buf    : Buffers
  env    : Env
deriving DecidableEq, Repr

/-- DESIGN CHOICE (log 3): R36 gives the operand registers and their latches no value; they hold 0. -/
def Operands.atReset : Operands where
  fin      := .of false
  opcode   := .of 0
  masked   := .of false
  len      := .of 0
  key      := Vector.replicate 4 (.of 0)
  nonceLen := .of 0

/-- R36: RX_FRAME_VALID is 0. DESIGN CHOICE (log 3): R36 gives the other registers no value; they hold 0. -/
def RxRegs.atReset : RxRegs where
  fin        := .of false
  rsv        := .of 0
  opcode     := .of 0
  masked     := .of false
  len7       := .of 0
  len        := .of 0
  key        := Vector.replicate 4 (.of 0)
  frameValid := false
  frameBytes := .of 0

/-- R36: the status registers are 0. -/
def Status.atReset : Status where
  done     := false
  err      := false
  errCode  := .none
  errState := .idle
  lastCmd  := 0

/-- DESIGN CHOICE (log 4): R36 gives the working registers no value. -/
def DecWork.atReset : DecWork where
  extNeed := 0
  extCnt  := 0
  extAcc  := 0
  keyCnt  := 0
  payCnt  := 0

/-- DESIGN CHOICE (log 4, log 3 for `TX_BYTES`): R36 gives the encoder's registers no value. -/
def EncRegs.atReset : EncRegs where
  hdr     := Vector.replicate 10 0
  hdrLen  := 0
  cnt     := 0
  payCnt  := 0
  txBytes := .of 0

/-- R36: ACCEPT_VALID is 0. DESIGN CHOICE (log 5): the result bytes, which R36 gives no value. -/
def AcceptRegs.atReset : AcceptRegs where
  digest    := Vector.replicate 20 0
  acceptOut := Vector.replicate 28 0
  valid     := false

/-- DESIGN CHOICE (log 23): R36 gives the SHA-1 working state no value. -/
def ShaWork.atReset : ShaWork where
  hash  := ⟨0, 0, 0, 0, 0⟩
  vars  := ⟨0, 0, 0, 0, 0⟩
  w     := Vector.replicate 80 0
  round := 0

/-- R36: no buffer byte has a value. -/
def Buffers.atReset : Buffers where
  rxPbuf   := []
  txPbuf   := []
  nonceBuf := []

/-- DESIGN CHOICE (log 14, 15, 1): streams empty and open, sink ready, nothing offered, the CODEC to move. -/
def Env.quiet : Env where
  rx       := []
  rxClosed := false
  tx       := []
  txReady  := true
  offer    := none
  hostSaw  := none
  agenda   := []

/-- R36: the block at its reset values, for given parameters and surroundings. -/
def State.resetWith (cfg : Config) (env : Env) : State where
  cfg    := cfg
  seq    := .idle
  status := Status.atReset
  op     := Operands.atReset
  latch  := Operands.atReset
  rx     := RxRegs.atReset
  dec    := DecWork.atReset
  enc    := EncRegs.atReset
  acc    := AcceptRegs.atReset
  sha    := ShaWork.atReset
  buf    := Buffers.atReset
  env    := env

/-- The machine right after reset, with the parameters of 95_test_vectors.md (log 6). -/
def State.reset : State := State.resetWith Config.vectors Env.quiet

end Sys2Proof.Machine
end

