-- ==== Sys2Proof/Machine/Ops.lean ====
section
/-! DEFINITION. The shared operations: reading a register or a buffer byte (10_state.md R35, 20_memory.md R71), the two
streams (R76, R78), error entry (60_exceptions.md R246) and the two ways out of it (R250, 70_reset_and_hazards.md
R270). -/

namespace Sys2Proof.Machine

/-- What a step answers. -/
abbrev Result := Host.Outcome State Fault Refusal

/-- Go on with a value that an access may fail to give. -/
def need {α : Type} (e : Except Fault α) (k : α → Result) : Result :=
  match e with
  | .ok v => k v
  | .error f => .fault f

/-- R35: a register with no value cannot be read. -/
def Reg.read {α : Type} (r : Reg α) : Except Fault α :=
  if r.known then .ok r.val else .error .unwrittenRead

/-- A row or a sequencer step acts only in the `STATE` its rule names; in any other, the CODEC takes no step for it
(30_encoding.md R101 for commands; DESIGN CHOICE for the other rows, log 8). -/
def inPhase (q : Seq) (s : State) (r : Result) : Result :=
  if s.seq = q then r else .next s

/-! ### Codes (R21, R240) -/

/-- R21: the 4-bit code of a `STATE` value. -/
def Seq.code : Seq → BitVec 4
  | .idle => 0
  | .dB0 => 1
  | .dB1 => 2
  | .dExt => 3
  | .dKey => 4
  | .dPay => 5
  | .dChk => 6
  | .eHdr => 7
  | .ePay => 8
  | .mRun => 9
  | .aRun => 10
  | .error => 15

/-- R240: the 4-bit error code. -/
def ErrCode.code : ErrCode → BitVec 4
  | .none => 0
  | .reservedBitsSet => 1
  | .invalidOpcode => 2
  | .lengthOverflow => 3
  | .truncatedStream => 4
  | .invalidControlFrame => 5
  | .connectionClosed => 6
  | .payloadTooLarge => 7
  | .invalidInput => 8
  | .invalidFrame => 9
  | .operandRange => 10
  | .illegalCommand => 11

/-! ### Buffers (R70 to R72) -/

/-- The byte at an index, if it has a value. -/
def Memory.find : Memory → Nat → Option Byte
  | [], _ => none
  | (b, v) :: m, a => if a = b then some v else Memory.find m a

/-- The buffer with one byte written, its cells kept in rising order. -/
def Memory.put : Memory → Nat → Byte → Memory
  | [], a, v => [(a, v)]
  | (b, w) :: m, a, v =>
    if a < b then (a, v) :: (b, w) :: m
    else if a = b then (a, v) :: m
    else (b, w) :: Memory.put m a v

/-- Every cell of `m` lies above index `a`. -/
def Memory.above (a : Nat) (m : Memory) : Bool := m.all fun c => decide (a < c.1)

/-- The canonical form: indexes strictly rising. No byte equals what an unlisted one reads as, since that has no
value. -/
def Memory.wf : Memory → Bool
  | [] => true
  | (a, _) :: m => Memory.above a m && Memory.wf m

/-- Every cell lies inside a buffer of `cap` bytes. -/
def Memory.within (cap : Nat) (m : Memory) : Bool := m.all fun c => decide (c.1 < cap)

/-- R71 `MemRead(BUF, a, 1)` on a buffer of `cap` bytes. -/
def Memory.load (m : Memory) (cap a : Nat) : Except Fault Byte :=
  if a < cap then
    match m.find a with
    | some v => .ok v
    | none => .error .unwrittenRead
  else .error .bufferIndex

/-- R71 `MemWrite(BUF, a, 1, v)` on a buffer of `cap` bytes. -/
def Memory.store (m : Memory) (cap a : Nat) (v : Byte) : Except Fault Memory :=
  if a < cap then .ok (m.put a v) else .error .bufferIndex

/-- R71 `MemRead(BUF, a, n)`, byte by byte in ascending order (R85). -/
def Memory.loadBytes (m : Memory) (cap a : Nat) : Nat → Except Fault (List Byte)
  | 0 => .ok []
  | n + 1 =>
    match m.load cap a with
    | .ok v =>
      match Memory.loadBytes m cap (a + 1) n with
      | .ok vs => .ok (v :: vs)
      | .error f => .error f
    | .error f => .error f

/-! ### Error entry and exit -/

/-- R246 `raise E`: the shared error entry. `ERR_STATE` records the `STATE` the step began in. -/
def raise (e : ErrCode) (s : State) : State :=
  { s with
    status := { s.status with err := true, errCode := e, errState := s.seq, done := false }
    seq := .error }

/-- R250 ABORT: to IDLE from any state. The streams, the operands, the buffers and the counters stay. -/
def abort (s : State) : State :=
  { s with
    seq := .idle
    status := { s.status with done := false, err := false, errCode := .none, errState := .idle }
    rx := { s.rx with frameValid := false }
    acc := { s.acc with valid := false } }

/-- R270, R272 RESET: every piece of the block's state to its reset value; the streams and ports stay. -/
def blockReset (s : State) : State := State.resetWith s.cfg s.env

/-! ### Streams -/

/-- R76 `RxTake()`: the front byte, or end of stream, or a hold, which is the unchanged state (log 2). -/
def rxTake (s : State) (onEos : Result) (onByte : Byte → State → Result) : Result :=
  match s.env.rx with
  | b :: bs => onByte b { s with env := { s.env with rx := bs } }
  | [] => if s.env.rxClosed then onEos else .next s

/-- R78: a step that emits a byte holds, with no effect, while the sink takes none (log 2, log 18). -/
def whenTxReady (s : State) (r : Result) : Result :=
  if s.env.txReady then r else .next s

/-- R78 `TxPut(b)`, once the sink is ready. -/
def txPut (b : Byte) (s : State) : State :=
  { s with env := { s.env with tx := s.env.tx ++ [b] } }

/-- R27, R122: one more byte of this frame taken. -/
def countRxByte (s : State) : State :=
  { s with rx := { s.rx with frameBytes := ⟨s.rx.frameBytes.val + 1#64, s.rx.frameBytes.known⟩ } }

/-- R177, R178: one more byte of this frame emitted. -/
def countTxByte (s : State) : State :=
  { s with enc := { s.enc with txBytes := ⟨s.enc.txBytes.val + 1#64, s.enc.txBytes.known⟩ } }

end Sys2Proof.Machine
end

