-- ==== Sys2Proof/Machine/Operands.lean ====
section
/-! DEFINITION. Operand forms: opcode classes (30_encoding.md R92, R93), operand latching (R101), key bytes
(20_memory.md R80), big-endian bytes (R79) and the three length forms of the encoder (41_encode.md R173 to R175). -/

namespace Sys2Proof.Machine

/-- R92, R125: the reserved opcodes 0x3 to 0x7 and 0xB to 0xF. -/
def isReservedOp (op : BitVec 4) : Bool :=
  (3#4 ≤ op && op ≤ 7#4) || 11#4 ≤ op

/-- R93, R144: the control opcodes Close, Ping and Pong. -/
def isControlOp (op : BitVec 4) : Bool :=
  op = 8#4 || op = 9#4 || op = 10#4

/-- The part of R101 that every accepted command shares: the latches, LAST_CMD, and DONE cleared. -/
def latchOperands (c : Cmd) (s : State) : State :=
  { s with
    status := { s.status with lastCmd := c, done := false }
    latch := s.op }

/-- R80, R191: the key byte that payload byte `i` uses. -/
def keyByte (key : Vector (Reg Byte) 4) (i : Nat) : Reg Byte :=
  key[i % 4]'(Nat.mod_lt i (by decide))

/-- R80: the 32-bit view of a mask key, key[0] in bits 31 to 24. No rule depends on it. -/
def key32 (key : Vector Byte 4) : Word32 := key[0] ++ key[1] ++ key[2] ++ key[3]

/-- The byte of weight 2^(8k) of a length; R79's big-endian sequences list the greatest k first. -/
def lenByte (v : Word64) (k : Nat) : Byte := (v >>> (8 * k)).setWidth 8

/-- R172: header byte 0 of an emitted frame. -/
def encByte0 (fin : Bool) (op : BitVec 4) (e : EncRegs) : EncRegs :=
  { e with hdr := e.hdr.set 0 (byte0Of fin 0#3 op) }

/-- R173, R176: length form DIRECT. -/
def encDirect (len7 : BitVec 7) (e : EncRegs) : EncRegs :=
  { e with hdr := e.hdr.set 1 (byte1Of false len7), hdrLen := 2#4 }

/-- R174, R176: length form EXT16. -/
def encExt16 (len : Word64) (e : EncRegs) : EncRegs :=
  { e with
    hdr := ((e.hdr.set 1 (byte1Of false 126#7)).set 2 (lenByte len 1)).set 3 (lenByte len 0)
    hdrLen := 4#4 }

/-- R175, R176: length form EXT64. -/
def encExt64 (len : Word64) (e : EncRegs) : EncRegs :=
  { e with
    hdr := ((((((((e.hdr.set 1 (byte1Of false 127#7)).set 2 (lenByte len 7)).set 3 (lenByte len 6)).set 4
      (lenByte len 5)).set 5 (lenByte len 4)).set 6 (lenByte len 3)).set 7 (lenByte len 2)).set 8
      (lenByte len 1)).set 9 (lenByte len 0)
    hdrLen := 10#4 }

/-- The row that a length selects (R173 to R175, R181). -/
def lenForm (len : Word64) : Instr :=
  if len ≤ 125#64 then .encLenDirect (len.setWidth 7)
  else if len ≤ 65535#64 then .encLenExt16
  else .encLenExt64

/-- R171: apply the one of R173, R174, R175 that the length selects. -/
def encLenForm (len : Word64) (e : EncRegs) : EncRegs :=
  if len ≤ 125#64 then encDirect (len.setWidth 7) e
  else if len ≤ 65535#64 then encExt16 len e
  else encExt64 len e

end Sys2Proof.Machine
end

