-- ==== Sys2Proof/Machine/Flags.lean ====
section
/-! DEFINITION. The single-bit flags (10_state.md R22, R23, R32): which commands are running, and the completion
rules that set DONE and the validity flags (40_decode.md R145, 41_encode.md R179). -/

namespace Sys2Proof.Machine

/-- R22: `BUSY` is 1 in every state but IDLE and ERROR. -/
def Seq.busy : Seq → Bool
  | .idle | .error => false
  | .dB0 | .dB1 | .dExt | .dKey | .dPay | .dChk | .eHdr | .ePay | .mRun | .aRun => true

/-- R21: DECODE is running. -/
def Seq.decoding : Seq → Bool
  | .dB0 | .dB1 | .dExt | .dKey | .dPay | .dChk => true
  | .idle | .eHdr | .ePay | .mRun | .aRun | .error => false

/-- R21: ENCODE is running. -/
def Seq.encoding : Seq → Bool
  | .eHdr | .ePay => true
  | .idle | .dB0 | .dB1 | .dExt | .dKey | .dPay | .dChk | .mRun | .aRun | .error => false

/-- R179, R195, R216: a command completes without error. -/
def complete (s : State) : State :=
  { s with status := { s.status with done := true }, seq := .idle }

/-- R145: DECODE completes, and the frame is valid. -/
def completeDecode (s : State) : State :=
  complete { s with rx := { s.rx with frameValid := true } }

/-- R216: ACCEPT_KEY completes, and the key is valid. -/
def completeAccept (s : State) : State :=
  complete { s with acc := { s.acc with valid := true } }

end Sys2Proof.Machine
end

