-- ==== Sys2Proof/Machine/HeaderByte1.lean ====
section
/-! DEFINITION. Header byte 1 and the length decoder's first step (40_decode.md R132, R133, R138, R139): the meaning of
every frame_byte1 row. Each acts in D_B1, on a byte the sequencer has just taken. -/

namespace Sys2Proof.Machine

/-- R138 and R139: the length is known; check the ceiling, then go to the key, the payload or the check. -/
def afterLength (len : Word64) (s : State) : Result :=
  let s := { s with rx := { s.rx with len := .of len } }
  if s.cfg.pbufBytes < len.toNat then .next (raise .payloadTooLarge s)
  else
    need s.rx.masked.read fun masked =>
      if masked then .next { s with dec := { s.dec with keyCnt := 0#3 }, seq := .dKey }
      else if 0#64 < len then .next { s with seq := .dPay }
      else .next { s with seq := .dChk }

/-- R132: count the byte and extract its fields. -/
def setByte1 (mask : Bool) (len7 : BitVec 7) (s : State) : State :=
  let s := countRxByte s
  { s with rx := { s.rx with masked := .of mask, len7 := .of len7 } }

/-- R133, EXT16 and EXT64: the length is in the next `n` bytes. -/
def expectExt (n : BitVec 4) (s : State) : State :=
  { s with dec := { s.dec with extNeed := n }, seq := .dExt }

/-- R133, DIRECT. -/
def execLenDirect (mask : Bool) (len7 : BitVec 7) (s : State) : Result :=
  inPhase .dB1 s <|
    let s := setByte1 mask len7 s
    afterLength (len7.setWidth 64) { s with dec := { s.dec with extNeed := 0#4 } }

/-- R133, EXT16. -/
def execLenExt16 (mask : Bool) (s : State) : Result :=
  inPhase .dB1 s (.next (expectExt 2#4 (setByte1 mask 126#7 s)))

/-- R133, EXT64. -/
def execLenExt64 (mask : Bool) (s : State) : Result :=
  inPhase .dB1 s (.next (expectExt 8#4 (setByte1 mask 127#7 s)))

end Sys2Proof.Machine
end

