-- ==== Sys2Proof/Machine/Decoder.lean ====
section
/-! DEFINITION. The decoder's steps that read no opcode row: extended length (40_decode.md R134 to R136), mask key
(R140), payload (R141), check and completion (R144, R145). -/

namespace Sys2Proof.Machine

/-- R134 and R135: all extended-length bytes are taken. -/
def extDone (s : State) : Result :=
  if s.dec.extNeed = 2#4 then afterLength s.dec.extAcc s
  else if s.dec.extAcc.msb then .next (raise .lengthOverflow s)
  else afterLength s.dec.extAcc s

/-- R136, the byte taken. -/
def extByte (r : Byte) (s : State) : Result :=
  let s := countRxByte s
  let s := { s with dec := { s.dec with
    extAcc := (s.dec.extAcc <<< 8) ||| r.setWidth 64
    extCnt := s.dec.extCnt + 1#4 } }
  if s.dec.extCnt = s.dec.extNeed then extDone s else .next s

/-- R136: step D_EXT. -/
def stepExt (s : State) : Result := rxTake s (.next (raise .truncatedStream s)) extByte

/-- RX_KEY[i] written (R26); no run indexes outside it (log 26). -/
def storeKey (key : Vector (Reg Byte) 4) (i : Nat) (r : Byte) : Except Fault (Vector (Reg Byte) 4) :=
  if h : i < 4 then .ok (key.set i (.of r)) else .error .bufferIndex

/-- R140, the byte taken. -/
def keyByteTaken (r : Byte) (s : State) : Result :=
  let s := countRxByte s
  need (storeKey s.rx.key s.dec.keyCnt.toNat r) fun key =>
    let n := s.dec.keyCnt + 1#3
    let s := { s with rx := { s.rx with key := key }, dec := { s.dec with keyCnt := n } }
    if n = 4#3 then
      need s.rx.len.read fun len =>
        if 0#64 < len then .next { s with seq := .dPay } else .next { s with seq := .dChk }
    else .next s

/-- R140: step D_KEY. -/
def stepKey (s : State) : Result := rxTake s (.next (raise .truncatedStream s)) keyByteTaken

/-- R141: a payload byte as it is stored, unmasked with the key byte of its index (R191, R196). -/
def unmasked (r : Byte) (s : State) : Except Fault Byte :=
  match s.rx.masked.read with
  | .ok true =>
    match (keyByte s.rx.key s.dec.payCnt.toNat).read with
    | .ok k => .ok (r ^^^ k)
    | .error f => .error f
  | .ok false => .ok r
  | .error f => .error f

/-- R141, the byte taken. -/
def payByte (r : Byte) (s : State) : Result :=
  let s := countRxByte s
  need (unmasked r s) fun v =>
    need (s.buf.rxPbuf.store s.cfg.pbufBytes s.dec.payCnt.toNat v) fun m =>
      need s.rx.len.read fun len =>
        let n := s.dec.payCnt + 1#64
        let s := { s with buf := { s.buf with rxPbuf := m }, dec := { s.dec with payCnt := n } }
        if n = len then .next { s with seq := .dChk } else .next s

/-- R141: step D_PAY. -/
def stepPay (s : State) : Result := rxTake s (.next (raise .truncatedStream s)) payByte

/-- R144 and R145: step D_CHK. The FIN and length operands are read only for a control opcode (log 16). -/
def stepChk (s : State) : Result :=
  need s.rx.opcode.read fun op =>
    if isControlOp op then
      need s.rx.fin.read fun fin =>
        if fin then
          need s.rx.len.read fun len =>
            if 125#64 < len then .next (raise .invalidControlFrame s) else .next (completeDecode s)
        else .next (raise .invalidControlFrame s)
    else .next (completeDecode s)

end Sys2Proof.Machine
end

