-- ==== Sys2Proof/Machine/Commands.lean ====
section
/-! DEFINITION. Command acceptance (30_encoding.md R101): the meaning of every block_cmd row. A command is accepted in
IDLE; in any other state the offer waits, which is the unchanged state (log 2). -/

namespace Sys2Proof.Machine

/-- R121: a new frame begins; the RX_* fields lose their values and the counters are cleared. -/
def startDecode (s : State) : State :=
  { s with
    rx := { s.rx with
      frameBytes := .of 0#64
      frameValid := false
      fin := s.rx.fin.forget
      rsv := s.rx.rsv.forget
      opcode := s.rx.opcode.forget
      masked := s.rx.masked.forget
      len7 := s.rx.len7.forget
      len := s.rx.len.forget
      key := s.rx.key.map Reg.forget }
    dec := { extNeed := 0#4, extCnt := 0#4, extAcc := 0#64, keyCnt := 0#3, payCnt := 0#64 }
    seq := .dB0 }

/-- R101, R121. -/
def execDecode (s : State) : Result :=
  inPhase .idle s (.next (startDecode (latchOperands 1#3 s)))

/-- R171 to R176 after the checks have passed: the header is built and emission begins. -/
def startEncode (fin : Bool) (op : BitVec 4) (len : Word64) (s : State) : State :=
  { s with
    enc := encLenForm len (encByte0 fin op { s.enc with cnt := 0#4, payCnt := 0#64 })
    seq := .eHdr }

/-- R171, third check: the length fits the buffer. -/
def encodeFits (op : BitVec 4) (s : State) : Result :=
  need s.latch.len.read fun len =>
    if s.cfg.pbufBytes < len.toNat then .next (raise .invalidFrame s)
    else need s.latch.fin.read fun fin => .next (startEncode fin op len s)

/-- R171: the checks in their order. A latch is read only where the check's answer depends on it (log 16). -/
def acceptEncode (s : State) : Result :=
  need s.latch.opcode.read fun op =>
    if isReservedOp op then .next (raise .invalidFrame s)
    else if isControlOp op then
      need s.latch.fin.read fun fin =>
        if fin then
          need s.latch.len.read fun len =>
            if 125#64 < len then .next (raise .invalidFrame s) else encodeFits op s
        else .next (raise .invalidFrame s)
    else encodeFits op s

/-- R101, R171: TX_BYTES is cleared before the checks. -/
def execEncode (s : State) : Result :=
  inPhase .idle s <|
    let s := latchOperands 2#3 s
    acceptEncode { s with enc := { s.enc with txBytes := .of 0#64 } }

/-- R101, R194. -/
def execMaskApply (s : State) : Result :=
  inPhase .idle s <|
    let s := latchOperands 3#3 s
    need s.latch.len.read fun len =>
      if s.cfg.pbufBytes < len.toNat then .next (raise .operandRange s) else .next { s with seq := .mRun }

/-- R101, R201: ACCEPT_VALID is cleared before the checks. -/
def execAcceptKey (s : State) : Result :=
  inPhase .idle s <|
    let s := latchOperands 4#3 s
    let s := { s with acc := { s.acc with valid := false } }
    need s.latch.nonceLen.read fun n =>
      if n = 0#64 then .next (raise .invalidInput s)
      else if s.cfg.nonceMax < n.toNat then .next (raise .operandRange s)
      else .next { s with seq := .aRun }

/-- R101, a reserved code: IllegalCommand. -/
def refuseCommand (c : Cmd) (s : State) : Result :=
  inPhase .idle s (.next (raise .illegalCommand (latchOperands c s)))

/-- R101. -/
def execReservedCmd000 (s : State) : Result := refuseCommand 0#3 s

/-- R101. -/
def execReservedCmd101 (s : State) : Result := refuseCommand 5#3 s

/-- R101. -/
def execReservedCmd110 (s : State) : Result := refuseCommand 6#3 s

/-- R101. -/
def execReservedCmd111 (s : State) : Result := refuseCommand 7#3 s

end Sys2Proof.Machine
end

