-- ==== Sys2Proof/Machine/EncoderForm.lean ====
section
/-! DEFINITION. The encoder's length forms (41_encode.md R173 to R176): the meaning of every enc_byte1 row. A form is
applied inside ENCODE acceptance, so in IDLE, and only where the latched length selects it (log 12). -/

namespace Sys2Proof.Machine

/-- A length form acts where L_LEN selects its row (R171). -/
def applyForm (row : Instr) (f : Word64 → EncRegs → EncRegs) (s : State) : Result :=
  inPhase .idle s <|
    need s.latch.len.read fun len =>
      if lenForm len = row then .next { s with enc := f len s.enc } else .next s

/-- R173, R176. -/
def execEncLenDirect (len7 : BitVec 7) (s : State) : Result :=
  applyForm (.encLenDirect len7) (fun _ => encDirect len7) s

/-- R174, R176. -/
def execEncLenExt16 (s : State) : Result := applyForm .encLenExt16 encExt16 s

/-- R175, R176. -/
def execEncLenExt64 (s : State) : Result := applyForm .encLenExt64 encExt64 s

end Sys2Proof.Machine
end

