-- ==== Sys2Proof/Machine/HeaderByte0.lean ====
section
/-! DEFINITION. Header byte 0 (40_decode.md R122 to R131): the meaning of every frame_byte0 row. Each acts in D_B0, on
a byte the sequencer has just taken from the RX stream. -/

namespace Sys2Proof.Machine

/-- R123: the three fields of header byte 0. -/
def setByte0 (fin : Bool) (rsv : BitVec 3) (op : BitVec 4) (s : State) : State :=
  { s with rx := { s.rx with fin := .of fin, rsv := .of rsv, opcode := .of op } }

/-- R122 to R125 once the byte is taken: count it, extract its fields, check RSV, then check the opcode. -/
def headerByte0 (fin : Bool) (rsv : BitVec 3) (op : BitVec 4) (s : State) : Result :=
  let s := setByte0 fin rsv op (countRxByte s)
  if rsv ≠ 0#3 then .next (raise .reservedBitsSet s)
  else if isReservedOp op then .next (raise .invalidOpcode s)
  else .next { s with seq := .dB1 }

/-- R126. -/
def execContinuation (fin : Bool) (s : State) : Result := inPhase .dB0 s (headerByte0 fin 0#3 0x0#4 s)

/-- R127. -/
def execText (fin : Bool) (s : State) : Result := inPhase .dB0 s (headerByte0 fin 0#3 0x1#4 s)

/-- R128. -/
def execBinary (fin : Bool) (s : State) : Result := inPhase .dB0 s (headerByte0 fin 0#3 0x2#4 s)

/-- R129; its FIN and length constraints are checked in D_CHK (R144). -/
def execClose (fin : Bool) (s : State) : Result := inPhase .dB0 s (headerByte0 fin 0#3 0x8#4 s)

/-- R130; as R129. -/
def execPing (fin : Bool) (s : State) : Result := inPhase .dB0 s (headerByte0 fin 0#3 0x9#4 s)

/-- R131; as R129. -/
def execPong (fin : Bool) (s : State) : Result := inPhase .dB0 s (headerByte0 fin 0#3 0xA#4 s)

/-- R124: ReservedBitsSet. -/
def execRsvBit6Set (fin : Bool) (rsv54 : BitVec 2) (op : BitVec 4) (s : State) : Result :=
  inPhase .dB0 s (headerByte0 fin (rsvOfBit6 rsv54) op s)

/-- R124: ReservedBitsSet. -/
def execRsvBit5Set (fin : Bool) (rsv4 : Bool) (op : BitVec 4) (s : State) : Result :=
  inPhase .dB0 s (headerByte0 fin (rsvOfBit5 rsv4) op s)

/-- R124: ReservedBitsSet. -/
def execRsvBit4Set (fin : Bool) (op : BitVec 4) (s : State) : Result :=
  inPhase .dB0 s (headerByte0 fin 1#3 op s)

/-- R125: InvalidOpcode. -/
def execReservedOp3 (fin : Bool) (s : State) : Result := inPhase .dB0 s (headerByte0 fin 0#3 0x3#4 s)

/-- R125: InvalidOpcode. -/
def execReservedOp4To7 (fin : Bool) (low : BitVec 2) (s : State) : Result :=
  inPhase .dB0 s (headerByte0 fin 0#3 (opOf4To7 low) s)

/-- R125: InvalidOpcode. -/
def execReservedOpB (fin : Bool) (s : State) : Result := inPhase .dB0 s (headerByte0 fin 0#3 0xB#4 s)

/-- R125: InvalidOpcode. -/
def execReservedOpCToF (fin : Bool) (low : BitVec 2) (s : State) : Result :=
  inPhase .dB0 s (headerByte0 fin 0#3 (opOfCToF low) s)

end Sys2Proof.Machine
end

