-- ==== Sys2Proof/Machine/Dispatch.lean ====
section
/-! DEFINITION. One arm per row of the opcode table. -/

namespace Sys2Proof.Machine

/-- The meaning of every row (R13: one transition of the CODEC). -/
def exec (i : Instr) (s : State) : Host.Outcome State Fault Refusal :=
  match i with
  | .continuation fin => Sys2Proof.Machine.execContinuation fin s
  | .text fin => Sys2Proof.Machine.execText fin s
  | .binary fin => Sys2Proof.Machine.execBinary fin s
  | .close fin => Sys2Proof.Machine.execClose fin s
  | .ping fin => Sys2Proof.Machine.execPing fin s
  | .pong fin => Sys2Proof.Machine.execPong fin s
  | .rsvBit6Set fin rsv54 op => Sys2Proof.Machine.execRsvBit6Set fin rsv54 op s
  | .rsvBit5Set fin rsv4 op => Sys2Proof.Machine.execRsvBit5Set fin rsv4 op s
  | .rsvBit4Set fin op => Sys2Proof.Machine.execRsvBit4Set fin op s
  | .reservedOp3 fin => Sys2Proof.Machine.execReservedOp3 fin s
  | .reservedOp4To7 fin low => Sys2Proof.Machine.execReservedOp4To7 fin low s
  | .reservedOpB fin => Sys2Proof.Machine.execReservedOpB fin s
  | .reservedOpCToF fin low => Sys2Proof.Machine.execReservedOpCToF fin low s
  | .lenDirect mask len7 => Sys2Proof.Machine.execLenDirect mask len7 s
  | .lenExt16 mask => Sys2Proof.Machine.execLenExt16 mask s
  | .lenExt64 mask => Sys2Proof.Machine.execLenExt64 mask s
  | .encLenDirect len7 => Sys2Proof.Machine.execEncLenDirect len7 s
  | .encLenExt16 => Sys2Proof.Machine.execEncLenExt16 s
  | .encLenExt64 => Sys2Proof.Machine.execEncLenExt64 s
  | .decode => Sys2Proof.Machine.execDecode s
  | .encode => Sys2Proof.Machine.execEncode s
  | .maskApply => Sys2Proof.Machine.execMaskApply s
  | .acceptKey => Sys2Proof.Machine.execAcceptKey s
  | .reservedCmd000 => Sys2Proof.Machine.execReservedCmd000 s
  | .reservedCmd101 => Sys2Proof.Machine.execReservedCmd101 s
  | .reservedCmd110 => Sys2Proof.Machine.execReservedCmd110 s
  | .reservedCmd111 => Sys2Proof.Machine.execReservedCmd111 s

end Sys2Proof.Machine
end

