-- ==== Sys2Proof/Machine/Encoder.lean ====
section
/-! DEFINITION. The encoder's emission steps (41_encode.md R177 to R179). -/

namespace Sys2Proof.Machine

/-- E_HDR[i] (R29); no run indexes outside it (log 26). -/
def hdrByte (hdr : Vector Byte 10) (i : Nat) : Except Fault Byte :=
  match hdr[i]? with
  | some b => .ok b
  | none => .error .bufferIndex

/-- R177: step E_HDR. -/
def stepHdr (s : State) : Result :=
  whenTxReady s <|
    need (hdrByte s.enc.hdr s.enc.cnt.toNat) fun b =>
      let s := countTxByte (txPut b s)
      let n := s.enc.cnt + 1#4
      let s := { s with enc := { s.enc with cnt := n } }
      if n = s.enc.hdrLen then
        need s.latch.len.read fun len =>
          if 0#64 < len then .next { s with seq := .ePay } else .next (complete s)
      else .next s

/-- R178: step E_PAY. -/
def stepEncPay (s : State) : Result :=
  whenTxReady s <|
    need (s.buf.txPbuf.load s.cfg.pbufBytes s.enc.payCnt.toNat) fun b =>
      need s.latch.len.read fun len =>
        let s := countTxByte (txPut b s)
        let n := s.enc.payCnt + 1#64
        let s := { s with enc := { s.enc with payCnt := n } }
        if n = len then .next (complete s) else .next s

end Sys2Proof.Machine
end

