-- ==== Sys2Proof/Machine/Base64.lean ====
section
/-! DEFINITION. The base64 encoder (43_accept_key_sha1.md R214). PRESUMED by the spec itself: RFC 4648 section 4
(93_implementation_defined.md G5, log 21). -/

namespace Sys2Proof.Machine

/-- R214: the alphabet. -/
def alph (v : BitVec 6) : Byte :=
  let n := v.toNat
  if n < 26 then BitVec.ofNat 8 (0x41 + n)
  else if n < 52 then BitVec.ofNat 8 (0x61 + (n - 26))
  else if n < 62 then BitVec.ofNat 8 (0x30 + (n - 52))
  else if n = 62 then 0x2B#8
  else 0x2F#8

/-- R214: the padding character '='. -/
def padChar : Byte := 0x3D#8

/-- First character of a group: the high 6 bits of `a`. -/
def char0 (a : Byte) : Byte := alph (a.extractLsb' 2 6)

/-- Second character: the low 2 bits of `a`, the high 4 of `b`. -/
def char1 (a b : Byte) : Byte := alph (a.extractLsb' 0 2 ++ b.extractLsb' 4 4)

/-- Third character: the low 4 bits of `b`, the high 2 of `c`. -/
def char2 (b c : Byte) : Byte := alph (b.extractLsb' 0 4 ++ c.extractLsb' 6 2)

/-- Fourth character: the low 6 bits of `c`. -/
def char3 (c : Byte) : Byte := alph (c.extractLsb' 0 6)

/-- R214: the 28 characters of a 20-byte digest. The last pair of bytes is padded with zero bits and one '='. -/
def base64 (d : Vector Byte 20) : Vector Byte 28 :=
  #v[char0 d[0], char1 d[0] d[1], char2 d[1] d[2], char3 d[2],
     char0 d[3], char1 d[3] d[4], char2 d[4] d[5], char3 d[5],
     char0 d[6], char1 d[6] d[7], char2 d[7] d[8], char3 d[8],
     char0 d[9], char1 d[9] d[10], char2 d[10] d[11], char3 d[11],
     char0 d[12], char1 d[12] d[13], char2 d[13] d[14], char3 d[14],
     char0 d[15], char1 d[15] d[16], char2 d[16] d[17], char3 d[17],
     char0 d[18], char1 d[18] d[19], char2 d[19] 0, padChar]

end Sys2Proof.Machine
end

