-- ==== Sys2Proof/Machine/Sha1.lean ====
section
/-! DEFINITION. sha1_core (43_accept_key_sha1.md R204 to R213). PRESUMED by the spec itself: N2O names SHA-1 only, and
the rules follow FIPS 180-4 (93_implementation_defined.md G4, log 21). -/

namespace Sys2Proof.Machine

/-- R10: rotation of a 32-bit word to the left. -/
def rotl (n : Nat) (x : Word32) : Word32 := x.rotateLeft n

/-- R11 `BE32`: a word from 4 bytes, the first the most significant. -/
def be32 (b0 b1 b2 b3 : Byte) : Word32 := b0 ++ b1 ++ b2 ++ b3

/-- The byte of weight 2^(8k) of a word. -/
def wordByte (x : Word32) (k : Nat) : Byte := (x >>> (8 * k)).setWidth 8

/-- R11 `BEbytes_8` of a length in bits. -/
def be64Bytes (n : Nat) : List Byte :=
  let v := BitVec.ofNat 64 n
  [7, 6, 5, 4, 3, 2, 1, 0].map (lenByte v)

/-- R205: the number of zero bytes, the least k with (m + 1 + k) mod 64 = 56. -/
def padZeros (m : Nat) : Nat := (119 - m % 64) % 64

/-- R205: the padded message. -/
def padMessage (msg : List Byte) : List Byte :=
  msg ++ [0x80] ++ List.replicate (padZeros msg.length) 0 ++ be64Bytes (8 * msg.length)

/-- R206: the big-endian words of a byte sequence. -/
def wordsOf : List Byte → List Word32
  | b0 :: b1 :: b2 :: b3 :: rest => be32 b0 b1 b2 b3 :: wordsOf rest
  | _ => []

/-- R206: the schedule, latest word first: `n` more words after `ws`. -/
def extendSchedule : Nat → List Word32 → List Word32
  | 0, ws => ws
  | n + 1, ws =>
    extendSchedule n (rotl 1 (ws.getD 2 0 ^^^ ws.getD 7 0 ^^^ ws.getD 13 0 ^^^ ws.getD 15 0) :: ws)

/-- R206: W[0..79] of a block of 16 words. -/
def schedule (block : List Word32) : List Word32 := (extendSchedule 64 block.reverse).reverse

/-- R208: the round function. -/
def roundF (t : Nat) (b c d : Word32) : Word32 :=
  if t < 20 then (b &&& c) ^^^ (~~~b &&& d)
  else if t < 40 then b ^^^ c ^^^ d
  else if t < 60 then (b &&& c) ^^^ (b &&& d) ^^^ (c &&& d)
  else b ^^^ c ^^^ d

/-- R209: the round constant. -/
def roundK (t : Nat) : Word32 :=
  if t < 20 then 0x5A827999#32
  else if t < 40 then 0x6ED9EBA1#32
  else if t < 60 then 0x8F1BBCDC#32
  else 0xCA62C1D6#32

/-- R211: one round. -/
def shaRound (t : Nat) (w : Word32) (v : Vars) : Vars where
  a := rotl 5 v.a + roundF t v.b v.c v.d + v.e + roundK t + w
  b := v.a
  c := rotl 30 v.b
  d := v.c
  e := v.d

/-- R211: the rounds over the schedule, from round `t`. -/
def shaRounds (t : Nat) : List Word32 → Vars → Vars
  | [], v => v
  | w :: ws, v => shaRounds (t + 1) ws (shaRound t w v)

/-- R207. -/
def shaInit : Hash := ⟨0x67452301#32, 0xEFCDAB89#32, 0x98BADCFE#32, 0x10325476#32, 0xC3D2E1F0#32⟩

/-- R210. -/
def Hash.vars (h : Hash) : Vars := ⟨h.h0, h.h1, h.h2, h.h3, h.h4⟩

/-- R212. -/
def Hash.add (h : Hash) (v : Vars) : Hash :=
  ⟨h.h0 + v.a, h.h1 + v.b, h.h2 + v.c, h.h3 + v.d, h.h4 + v.e⟩

/-- R210 to R212: one block, with the working state as the block leaves it (log 23). -/
def shaBlock (h : Hash) (block : List Word32) : ShaWork :=
  let ws := schedule block
  let v := shaRounds 0 ws h.vars
  { hash := h.add v, vars := v, w := Vector.ofFn fun i => ws.getD i.val 0, round := 80 }

/-- R206: the blocks of 16 words. -/
def blocksOf : Nat → List Word32 → List (List Word32)
  | 0, _ => []
  | n + 1, ws => ws.take 16 :: blocksOf n (ws.drop 16)

/-- R205: the number of blocks of a message of `m` bytes. -/
def blockCount (m : Nat) : Nat := (m + 8) / 64 + 1

/-- R204: the working state after the last block of a message. -/
def sha1Run (msg : List Byte) : ShaWork :=
  (blocksOf (blockCount msg.length) (wordsOf (padMessage msg))).foldl (fun s b => shaBlock s.hash b)
    { ShaWork.atReset with hash := shaInit }

/-- R213: the digest bytes of the final hash words. -/
def digestOf (h : Hash) : Vector Byte 20 :=
  #v[wordByte h.h0 3, wordByte h.h0 2, wordByte h.h0 1, wordByte h.h0 0,
     wordByte h.h1 3, wordByte h.h1 2, wordByte h.h1 1, wordByte h.h1 0,
     wordByte h.h2 3, wordByte h.h2 2, wordByte h.h2 1, wordByte h.h2 0,
     wordByte h.h3 3, wordByte h.h3 2, wordByte h.h3 1, wordByte h.h3 0,
     wordByte h.h4 3, wordByte h.h4 2, wordByte h.h4 1, wordByte h.h4 0]

/-- R204: SHA1(M). -/
def sha1 (msg : List Byte) : Vector Byte 20 := digestOf (sha1Run msg).hash

end Sys2Proof.Machine
end

