-- ==== Sys2Proof/Machine/AcceptKey.lean ====
section
/-! DEFINITION. The accept-key unit's body (43_accept_key_sha1.md R202, R203, R216) and GUID_ROM (20_memory.md R74). -/

namespace Sys2Proof.Machine

/-- R74: the 36 bytes of the protocol GUID. -/
def guidRom : List Byte :=
  [0x32, 0x35, 0x38, 0x45, 0x41, 0x46, 0x41, 0x35, 0x2D, 0x45, 0x39, 0x31] ++
    [0x34, 0x2D, 0x34, 0x37, 0x44, 0x41, 0x2D, 0x39, 0x35, 0x43, 0x41, 0x2D] ++
    [0x43, 0x35, 0x41, 0x42, 0x30, 0x44, 0x43, 0x38, 0x35, 0x42, 0x31, 0x31]

/-- R202: the message hashed for a nonce. -/
def acceptMessage (nonce : List Byte) : List Byte := nonce ++ guidRom

/-- R216: the body, one atomic step in A_RUN (D37, log 22). -/
def stepAccept (s : State) : Result :=
  need s.latch.nonceLen.read fun n =>
    need (s.buf.nonceBuf.loadBytes s.cfg.nonceMax 0 n.toNat) fun nonce =>
      let work := sha1Run (acceptMessage nonce)
      let digest := digestOf work.hash
      .next (completeAccept { s with
        sha := work
        acc := { s.acc with digest := digest, acceptOut := base64 digest } })

end Sys2Proof.Machine
end

