-- ==== Sys2Proof/Machine/HostPort.lean ====
section
/-! DEFINITION. HOST's accesses (10_state.md R34, R35; 20_memory.md R71, R73; 70_reset_and_hazards.md R276): what it may
read and write, and where an access is a hazard. -/

namespace Sys2Proof.Machine

/-- R34, R85, R276: reads of what the running command writes are a hazard. R276 lists them by name; RX_FRAME_VALID is
one of its RX_*, and ACCEPT_VALID, which R216 writes, is a result register of R30 (log 19). -/
def readHazard (r : HostRead) (q : Seq) : Bool :=
  match r with
  | .rxFin | .rxRsv | .rxOpcode | .rxMasked | .rxLen7 | .rxLen | .rxKey _ | .rxFrameValid => q.decoding
  | .frameBytes | .rxPbuf _ => q.decoding
  | .txPbuf _ => decide (q = .mRun)
  | .txBytes => q.encoding
  | .digest _ | .acceptOut _ | .acceptValid => decide (q = .aRun)
  | .state | .busy | .done | .err | .errCode | .errState | .lastCmd => false
  | .opFin | .opOpcode | .opMasked | .opLen | .opKey _ | .opNonceLen => false
  | .nonceBuf _ | .guidRom _ => false

/-- R276: writes that the running command makes a hazard. -/
def writeHazard (w : HostWrite) (q : Seq) : Bool :=
  match w with
  | .txPbuf _ _ => q.encoding || decide (q = .mRun)
  | .nonceBuf _ _ => decide (q = .aRun)
  | .opFin _ | .opOpcode _ | .opMasked _ | .opLen _ | .opKey _ _ | .opNonceLen _ => false

/-- A register's value as the number HOST reads. -/
def readReg {n : Nat} (r : Reg (BitVec n)) : Except Fault Nat := r.read.map BitVec.toNat

/-- A 1-bit register's value as the number HOST reads. -/
def readBit (r : Reg Bool) : Except Fault Nat := r.read.map Bool.toNat

/-- A byte that is a result only while a flag is 1 (R30, R73). -/
def readWhile (valid : Bool) (b : Except Fault Byte) : Except Fault Nat :=
  if valid then b.map BitVec.toNat else .error .unwrittenRead

/-- GUID_ROM (R70, R74). -/
def readGuid (a : Nat) : Except Fault Nat :=
  match guidRom[a]? with
  | some b => .ok b.toNat
  | none => .error .bufferIndex

/-- R71, U14: an RX_PBUF index outside the buffer is refused as such; inside, R73 applies. -/
def readRxPbuf (s : State) (a : Nat) : Except Fault Nat :=
  if a < s.cfg.pbufBytes then readWhile s.rx.frameValid (s.buf.rxPbuf.load s.cfg.pbufBytes a)
  else .error .bufferIndex

/-- The value a HOST read returns where the access is no hazard (R34, R35). -/
def readValue (r : HostRead) (s : State) : Except Fault Nat :=
  match r with
  | .state => .ok s.seq.code.toNat
  | .busy => .ok s.seq.busy.toNat
  | .done => .ok s.status.done.toNat
  | .err => .ok s.status.err.toNat
  | .errCode => .ok s.status.errCode.code.toNat
  | .errState => .ok s.status.errState.code.toNat
  | .lastCmd => .ok s.status.lastCmd.toNat
  | .opFin => readBit s.op.fin
  | .opOpcode => readReg s.op.opcode
  | .opMasked => readBit s.op.masked
  | .opLen => readReg s.op.len
  | .opKey i => readReg s.op.key[i]
  | .opNonceLen => readReg s.op.nonceLen
  | .rxFin => readBit s.rx.fin
  | .rxRsv => readReg s.rx.rsv
  | .rxOpcode => readReg s.rx.opcode
  | .rxMasked => readBit s.rx.masked
  | .rxLen7 => readReg s.rx.len7
  | .rxLen => readReg s.rx.len
  | .rxKey i => readReg s.rx.key[i]
  | .rxFrameValid => .ok s.rx.frameValid.toNat
  | .frameBytes => readReg s.rx.frameBytes
  | .txBytes => readReg s.enc.txBytes
  | .digest i => readWhile s.acc.valid (.ok s.acc.digest[i])
  | .acceptOut i => readWhile s.acc.valid (.ok s.acc.acceptOut[i])
  | .acceptValid => .ok s.acc.valid.toNat
  | .rxPbuf a => readRxPbuf s a
  | .txPbuf a => (s.buf.txPbuf.load s.cfg.pbufBytes a).map BitVec.toNat
  | .nonceBuf a => (s.buf.nonceBuf.load s.cfg.nonceMax a).map BitVec.toNat
  | .guidRom a => readGuid a

/-- A HOST read: the value is recorded as what HOST saw (log 17). -/
def hostRead (r : HostRead) (s : State) : Result :=
  if readHazard r s.seq then .fault .bufferHazard
  else need (readValue r s) fun n => .next { s with env := { s.env with hostSaw := some n } }

/-- A HOST write where the access is no hazard (R34, R71). -/
def writeValue (w : HostWrite) (s : State) : Result :=
  match w with
  | .opFin v => .next { s with op := { s.op with fin := .of v } }
  | .opOpcode v => .next { s with op := { s.op with opcode := .of v } }
  | .opMasked v => .next { s with op := { s.op with masked := .of v } }
  | .opLen v => .next { s with op := { s.op with len := .of v } }
  | .opKey i v => .next { s with op := { s.op with key := s.op.key.set i (.of v) } }
  | .opNonceLen v => .next { s with op := { s.op with nonceLen := .of v } }
  | .txPbuf a v =>
    need (s.buf.txPbuf.store s.cfg.pbufBytes a v) fun m => .next { s with buf := { s.buf with txPbuf := m } }
  | .nonceBuf a v =>
    need (s.buf.nonceBuf.store s.cfg.nonceMax a v) fun m => .next { s with buf := { s.buf with nonceBuf := m } }

/-- A HOST write (R34, R276). -/
def hostWrite (w : HostWrite) (s : State) : Result :=
  if writeHazard w s.seq then .fault .bufferHazard else writeValue w s

/-- R106 COPY, one byte: HOST reads RX_PBUF[a] and writes it to TX_PBUF[b] (log 24). -/
def hostCopy (a b : Nat) (s : State) : Result :=
  if readHazard (.rxPbuf a) s.seq then .fault .bufferHazard
  else need (readValue (.rxPbuf a) s) fun n => hostWrite (.txPbuf b (BitVec.ofNat 8 n)) s

end Sys2Proof.Machine
end

