-- ==== Sys2Proof/Machine/MaskCipher.lean ====
section
/-! DEFINITION. mask_cipher (42_mask_cipher.md R190 to R195): the 4-byte rolling XOR and the body of MASK_APPLY. -/

namespace Sys2Proof.Machine

/-- R190 on a byte sequence whose first byte has index `i`: byte i is combined with key[i mod 4]. -/
def maskBytes (key : Vector Byte 4) (i : Nat) : List Byte → List Byte
  | [] => []
  | p :: ps => (p ^^^ key[i % 4]'(Nat.mod_lt i (by decide))) :: maskBytes key (i + 1) ps

/-- R195: mask `n` bytes of a buffer in place, from index `i` upwards. DESIGN CHOICE (log 27): only the key bytes that
these indexes use are read, so with fewer than 4 bytes an unused key byte needs no value, though R193 and R274 name all
four as operands. -/
def maskBuffer (key : Vector (Reg Byte) 4) (cap : Nat) (m : Memory) (i : Nat) : Nat → Except Fault Memory
  | 0 => .ok m
  | n + 1 =>
    match m.load cap i with
    | .ok p =>
      match (keyByte key i).read with
      | .ok k => maskBuffer key cap (m.put i (p ^^^ k)) (i + 1) n
      | .error f => .error f
    | .error f => .error f

/-- R195: the body, one atomic step in M_RUN (D37, log 22). -/
def stepMask (s : State) : Result :=
  need s.latch.len.read fun len =>
    need (maskBuffer s.latch.key s.cfg.pbufBytes s.buf.txPbuf 0 len.toNat) fun m =>
      .next (complete { s with buf := { s.buf with txPbuf := m } })

end Sys2Proof.Machine
end

