-- ==== Sys2Proof/Machine/Sequencer.lean ====
section
/-! DEFINITION. The CODEC's step in each value of STATE (10_state.md R21), and the turns of the other agents
(30_encoding.md R106). -/

namespace Sys2Proof.Machine

/-- R101 in IDLE: an offered command is accepted, by the meaning of its row. With nothing offered there is no step. -/
def stepIdle (s : State) : Result :=
  match s.env.offer with
  | none => .next s
  | some c => exec (decodeCmd c) { s with env := { s.env with offer := none } }

/-- R122: step D_B0. End of stream at the frame boundary is ConnectionClosed. -/
def stepB0 (s : State) : Result :=
  rxTake s (.next (raise .connectionClosed s)) fun b s => exec (decodeByte0 b) s

/-- R132: step D_B1. -/
def stepB1 (s : State) : Result :=
  rxTake s (.next (raise .truncatedStream s)) fun b s => exec (decodeByte1 b) s

/-- R21: the CODEC's step. In ERROR it takes none (R248). -/
def codecTurn (s : State) : Result :=
  match s.seq with
  | .idle => stepIdle s
  | .dB0 => stepB0 s
  | .dB1 => stepB1 s
  | .dExt => stepExt s
  | .dKey => stepKey s
  | .dPay => stepPay s
  | .dChk => stepChk s
  | .eHdr => stepHdr s
  | .ePay => stepEncPay s
  | .mRun => stepMask s
  | .aRun => stepAccept s
  | .error => .next s

/-- The state with the rest of the agenda. -/
def withAgenda (rest : List Turn) (s : State) : State := { s with env := { s.env with agenda := rest } }

/-- R75: the RX source appends, unless it has closed the stream (log 20). -/
def rxAppend (bytes : List Byte) (s : State) : State :=
  if s.env.rxClosed then s else { s with env := { s.env with rx := s.env.rx ++ bytes } }

/-- R106 WAIT ends: no offer of HOST's is waiting, and DONE or ERR is 1 (log 13). -/
def waitOver (s : State) : Bool :=
  s.env.offer.isNone && (s.status.done || s.status.err)

/-- One turn, taken from the head of the agenda. A HOST that cannot go on (a second offer, WAIT) keeps its turn and the
CODEC moves. DESIGN CHOICE (log 28): R101's "HOST holds" holds back those two turns only; while an offer waits HOST may
still access registers and buffers, as R24 and R34 allow at any time, so acceptance latches what `OP_*` hold then. -/
def takeTurn (t : Turn) (rest : List Turn) (s : State) : Result :=
  match t with
  | .codec => codecTurn (withAgenda rest s)
  | .offer c =>
    match s.env.offer with
    | none => .next { withAgenda rest s with env := { s.env with offer := some c, agenda := rest } }
    | some _ => codecTurn s
  | .write w => hostWrite w (withAgenda rest s)
  | .read r => hostRead r (withAgenda rest s)
  | .copyByte a b => hostCopy a b (withAgenda rest s)
  | .wait => if waitOver s then .next (withAgenda rest s) else codecTurn s
  | .abort => .next (abort (withAgenda rest s))
  | .reset => .next (blockReset (withAgenda rest s))
  | .rxAppend bytes => .next (rxAppend bytes (withAgenda rest s))
  | .rxClose => .next { s with env := { s.env with rxClosed := true, agenda := rest } }
  | .txSink ready => .next { s with env := { s.env with txReady := ready, agenda := rest } }

/-- One step: the next agent's turn, or the CODEC's where the agenda is empty (R13, R283, log 1). -/
def nextTurn (s : State) : Result :=
  match s.env.agenda with
  | [] => codecTurn s
  | t :: rest => takeTurn t rest s

/-- The operand registers of a command whose operand words are all zero (R105, log 10). -/
def zeroOperands : Operands where
  fin      := .of false
  opcode   := .of 0
  masked   := .of false
  len      := .of 0
  key      := Vector.replicate 4 (.of 0)
  nonceLen := .of 0

/-- A table word placed where the next step reads it (log 10): a command code on the port of an idle block, with zero
operand words, or the front byte of the RX stream in a DECODE that stands at header byte 0 or 1. -/
def placeWord (p : Port) (b : Byte) (s : State) : State :=
  match p with
  | .cmd | .encByte1 =>
    { s with
      seq := .idle
      op := zeroOperands
      env := { s.env with offer := some (b.extractLsb' 0 3), agenda := [] } }
  | .rxByte0 =>
    { startDecode s with env := { s.env with rx := b :: s.env.rx, agenda := [] } }
  | .rxByte1 =>
    { startDecode s with seq := .dB1, env := { s.env with rx := b :: s.env.rx, agenda := [] } }

end Sys2Proof.Machine
end

