-- ==== Sys2Proof/Machine/Step.lean ====
section
/-! DEFINITION. The step of the machine, and the state whose next step runs a given table word. -/

namespace Sys2Proof.Machine

/-- One step of the machine (00_scope.md R13): the turn of the agent whose turn it is. -/
def step (s : State) : Host.Outcome State Fault Refusal := nextTurn s

/-- The state whose very next step reads and runs the row of a table word (log 10). -/
def State.withFetchWord (s : State) (nbits w : Nat) : State :=
  placeWord (tablePort (tableByte nbits w)) (tableByte nbits w) s

end Sys2Proof.Machine
end

