-- ==== Sys2Proof/Machine/Script.lean ====
section
/-! DEFINITION. The textual command lines and environment actions of 30_encoding.md R105 and R106, as lists of turns
for the agenda (log 24). -/

namespace Sys2Proof.Machine

/-- The turns that write one operand, or none where the line does not name it: it keeps its value (R105). -/
def operand {α : Type} (v : Option α) (w : α → HostWrite) : List Turn :=
  match v with
  | some x => [.write (w x)]
  | none => []

/-- `DECODE`. -/
def decodeLine : List Turn := [.offer 1]

/-- `ENCODE fin=, op=, len=, masked=`. -/
def encodeLine (fin : Option Bool) (op : Option (BitVec 4)) (len : Option Word64) (masked : Option Bool) : List Turn :=
  operand fin .opFin ++ operand op .opOpcode ++ operand len .opLen ++ operand masked .opMasked ++ [.offer 2]

/-- The four writes of a mask key, `OP_KEY[0]` first. -/
def keyWrites (key : Vector Byte 4) : List Turn :=
  [.write (.opKey 0 key[0]), .write (.opKey 1 key[1]), .write (.opKey 2 key[2]), .write (.opKey 3 key[3])]

/-- `MASK_APPLY key=, len=`. -/
def maskApplyLine (key : Option (Vector Byte 4)) (len : Option Word64) : List Turn :=
  (match key with
    | some k => keyWrites k
    | none => []) ++ operand len .opLen ++ [.offer 3]

/-- `ACCEPT_KEY nonce_len=`. -/
def acceptKeyLine (n : Option Word64) : List Turn := operand n .opNonceLen ++ [.offer 4]

/-- `TXBUF[a..] <- bytes`. -/
def txbufLine (a : Nat) : List Byte → List Turn
  | [] => []
  | b :: bs => .write (.txPbuf a b) :: txbufLine (a + 1) bs

/-- `NONCE <- bytes`, from index `a`. -/
def nonceLine (a : Nat) : List Byte → List Turn
  | [] => []
  | b :: bs => .write (.nonceBuf a b) :: nonceLine (a + 1) bs

/-- `COPY RX_PBUF[0..n) -> TX_PBUF[0..n)`. -/
def copyLine : Nat → List Turn
  | 0 => []
  | n + 1 => copyLine n ++ [.copyByte n n]

end Sys2Proof.Machine
end

