-- ==== Sys2Proof/Safety.lean ====
section
/-! DEFINITION. What a claim calls a good state, a legal frame and a run. `Inv` rules out the states that no run from
reset reaches; a `WireFrame` is a frame as 30_encoding.md R90 to R98 lays it out. -/

namespace Sys2Proof.Machine

/-! ### Runs -/

/-- `k` steps of the machine, stopping at the first fault or refusal. -/
def runSteps : Nat → State → Result
  | 0, s => .next s
  | k + 1, s =>
    match step s with
    | .next t => runSteps k t
    | .fault f => .fault f
    | .refused r => .refused r

/-- The CODEC moves next, from the state `u` (10_state.md R20, log 1): the agenda is empty, or gives it the turn, or
gives it to a HOST that cannot go on. -/
def codecMoves (s u : State) : Prop :=
  (s.env.agenda = [] ∧ u = s) ∨ (∃ rest, s.env.agenda = .codec :: rest ∧ u = withAgenda rest s) ∨
    (∃ c d rest, s.env.agenda = .offer c :: rest ∧ s.env.offer = some d ∧ u = s) ∨
    (∃ rest, s.env.agenda = .wait :: rest ∧ waitOver s = false ∧ u = s)

/-- A turn of the CODEC or of the RX source (R20). -/
def Turn.delivers : Turn → Bool
  | .codec | .rxAppend _ | .rxClose => true
  | .offer _ | .write _ | .read _ | .copyByte _ _ | .wait | .abort | .reset | .txSink _ => false

/-- A turn of the CODEC or of the TX sink (R20). -/
def Turn.drains : Turn → Bool
  | .codec | .txSink _ => true
  | .offer _ | .write _ | .read _ | .copyByte _ _ | .wait | .abort | .reset | .rxAppend _ | .rxClose => false

/-- 20_memory.md R75: the bytes that the RX source appends in an agenda, in pieces of any size, before it sets
`closed`. -/
def delivered : List Turn → List Byte
  | [] => []
  | .rxAppend bytes :: rest => bytes ++ delivered rest
  | .rxClose :: _ => []
  | .codec :: rest | .offer _ :: rest | .write _ :: rest | .read _ :: rest | .copyByte _ _ :: rest | .wait :: rest
  | .abort :: rest | .reset :: rest | .txSink _ :: rest => delivered rest

/-- The whole RX stream: the bytes at hand, and those to come while it is open. -/
def feed (s : State) : List Byte :=
  s.env.rx ++ if s.env.rxClosed then [] else delivered s.env.agenda

/-- The RX stream is closed by the end of the agenda. -/
def closesBy (s : State) : Bool := s.env.rxClosed || decide (Turn.rxClose ∈ s.env.agenda)

/-- Whether the TX sink is ready at the end of an agenda (20_memory.md R78). -/
def readyAfter : Bool → List Turn → Bool
  | ready, [] => ready
  | _, .txSink ready :: rest => readyAfter ready rest
  | ready, .codec :: rest | ready, .offer _ :: rest | ready, .write _ :: rest | ready, .read _ :: rest
  | ready, .copyByte _ _ :: rest | ready, .wait :: rest | ready, .abort :: rest | ready, .reset :: rest
  | ready, .rxAppend _ :: rest | ready, .rxClose :: rest => readyAfter ready rest

/-! ### Rows and sequencer states -/

/-- The `STATE` in which a row acts: D_B0 and D_B1 for the two received header bytes (40_decode.md R122, R132), IDLE
for a command (30_encoding.md R101) and for the length form applied inside ENCODE acceptance (log 12). -/
def rowPhase (i : Instr) : Seq :=
  match i.port with
  | .rxByte0 => .dB0
  | .rxByte1 => .dB1
  | .encByte1 | .cmd => .idle

/-! ### The invariant -/

/-- The number of extended-length bytes that a LEN7 value announces (R95). -/
def extBytes (len7 : BitVec 7) : Nat :=
  if len7 = 126#7 then 2 else if len7 = 127#7 then 8 else 0

/-- R98: the header length of a frame, from its LEN7 and MASK. -/
def headerLen (len7 : BitVec 7) (masked : Bool) : Nat :=
  2 + extBytes len7 + (if masked then 4 else 0)

/-- A frame is being decoded, and `n` of its bytes have been taken (R27). -/
def taking (n : Nat) (s : State) : Prop :=
  s.rx.frameValid = false ∧ s.rx.frameBytes = .of (BitVec.ofNat 64 n)

/-- Header byte 0 has passed its checks (R123 to R125). -/
def byte0In (s : State) : Prop :=
  s.rx.fin.known = true ∧ s.rx.rsv = .of 0 ∧ s.rx.opcode.known = true ∧ isReservedOp s.rx.opcode.val = false

/-- Header byte 1 has been taken, and `EXT_NEED` says what it announced (R132, R133). -/
def byte1In (s : State) : Prop :=
  s.rx.masked.known = true ∧ s.rx.len7.known = true ∧ s.dec.extNeed.toNat = extBytes s.rx.len7.val

/-- The payload length is known and fits RX_PBUF (R138). -/
def lengthIn (s : State) : Prop :=
  s.rx.len.known = true ∧ s.rx.len.val.toNat ≤ s.cfg.pbufBytes

/-- RX_KEY holds no value (R121). -/
def noKey (s : State) : Prop := ∀ i : Fin 4, s.rx.key[i].known = false

/-- A masked frame's key is complete, and an unmasked frame has none (R140, R145). -/
def keyIn (s : State) : Prop :=
  (s.rx.masked.val = true → ∀ i : Fin 4, s.rx.key[i].known = true) ∧ (s.rx.masked.val = false → noKey s)

/-- RX_PBUF[0..n) holds values (R141). -/
def payloadIn (n : Nat) (s : State) : Prop :=
  ∀ a, a < n → (s.buf.rxPbuf.find a).isSome = true

/-- What holds of the working registers in each `STATE` (R21). -/
def phaseInv (s : State) : Prop :=
  match s.seq with
  | .idle | .error => True
  | .dB0 => taking 0 s ∧ noKey s ∧ s.dec.extCnt = 0 ∧ s.dec.extAcc = 0 ∧ s.dec.payCnt = 0
  | .dB1 => taking 1 s ∧ byte0In s ∧ noKey s ∧ s.dec.extCnt = 0 ∧ s.dec.extAcc = 0 ∧ s.dec.payCnt = 0
  | .dExt =>
    taking (2 + s.dec.extCnt.toNat) s ∧ byte0In s ∧ byte1In s ∧ noKey s ∧ s.dec.extCnt < s.dec.extNeed ∧
      s.dec.extAcc.toNat < 2 ^ (8 * s.dec.extCnt.toNat) ∧ s.dec.payCnt = 0
  | .dKey =>
    taking (2 + extBytes s.rx.len7.val + s.dec.keyCnt.toNat) s ∧ byte0In s ∧ byte1In s ∧ lengthIn s ∧
      s.rx.masked.val = true ∧ s.dec.keyCnt < 4 ∧
      (∀ i : Fin 4, i.val < s.dec.keyCnt.toNat → s.rx.key[i].known = true) ∧ s.dec.payCnt = 0
  | .dPay =>
    taking (headerLen s.rx.len7.val s.rx.masked.val + s.dec.payCnt.toNat) s ∧ byte0In s ∧ byte1In s ∧ lengthIn s ∧
      keyIn s ∧ s.dec.payCnt < s.rx.len.val ∧ payloadIn s.dec.payCnt.toNat s
  | .dChk =>
    taking (headerLen s.rx.len7.val s.rx.masked.val + s.rx.len.val.toNat) s ∧ byte0In s ∧ byte1In s ∧ lengthIn s ∧
      keyIn s ∧ s.dec.payCnt = s.rx.len.val ∧ payloadIn s.rx.len.val.toNat s
  | .eHdr =>
    s.latch.len.known = true ∧ s.latch.len.val.toNat ≤ s.cfg.pbufBytes ∧
      (s.enc.hdrLen = 2 ∨ s.enc.hdrLen = 4 ∨ s.enc.hdrLen = 10) ∧ s.enc.cnt < s.enc.hdrLen ∧ s.enc.payCnt = 0 ∧
      s.enc.txBytes = .of (s.enc.cnt.setWidth 64)
  | .ePay =>
    s.latch.len.known = true ∧ s.latch.len.val.toNat ≤ s.cfg.pbufBytes ∧ s.enc.payCnt < s.latch.len.val ∧
      s.enc.txBytes = .of (s.enc.hdrLen.setWidth 64 + s.enc.payCnt)
  | .mRun => s.latch.len.known = true ∧ s.latch.len.val.toNat ≤ s.cfg.pbufBytes
  | .aRun =>
    s.latch.nonceLen.known = true ∧ s.latch.nonceLen.val ≠ 0 ∧ s.latch.nonceLen.val.toNat ≤ s.cfg.nonceMax ∧
      s.acc.valid = false

/-- RX_FRAME_VALID = 1 means a whole legal frame (R143, R144, R145, R27): every field but an unmasked frame's key has a
value, RX_PBUF[0..RX_LEN) holds values, and FRAME_BYTES is the frame's length. -/
def frameInv (s : State) : Prop :=
  s.rx.frameValid = true →
    s.rx.fin.known = true ∧ s.rx.rsv = .of 0 ∧ s.rx.opcode.known = true ∧ isReservedOp s.rx.opcode.val = false ∧
      (isControlOp s.rx.opcode.val = true → s.rx.fin.val = true ∧ s.rx.len.val.toNat ≤ 125) ∧
      s.rx.masked.known = true ∧ s.rx.len7.known = true ∧ lengthIn s ∧ keyIn s ∧
      payloadIn s.rx.len.val.toNat s ∧
      s.rx.frameBytes = .of (BitVec.ofNat 64 (headerLen s.rx.len7.val s.rx.masked.val + s.rx.len.val.toNat))

/-- ACCEPT_VALID = 1 means DIGEST is the last hash and ACCEPT_OUT its base64 (R30, 43_accept_key_sha1.md R216). -/
def acceptInv (s : State) : Prop :=
  s.acc.valid = true → s.acc.digest = digestOf s.sha.hash ∧ s.acc.acceptOut = base64 s.acc.digest

/-- R23, R246 to R251: ERR is 1 exactly in ERROR, ERR_CODE and ERR_STATE are 0 without it, and DONE is 1 in no busy
or ERROR state. -/
def statusInv (s : State) : Prop :=
  (s.status.err = true ↔ s.seq = .error) ∧ (s.status.err = true ↔ s.status.errCode ≠ .none) ∧
    (s.status.err = false → s.status.errState = .idle) ∧ (s.status.done = true → s.seq = .idle)

/-- The buffers keep their canonical form and lie inside their sizes (R70, log 7). -/
def bufferInv (s : State) : Prop :=
  (s.buf.rxPbuf.wf = true ∧ s.buf.rxPbuf.within s.cfg.pbufBytes = true) ∧
    (s.buf.txPbuf.wf = true ∧ s.buf.txPbuf.within s.cfg.pbufBytes = true) ∧
    (s.buf.nonceBuf.wf = true ∧ s.buf.nonceBuf.within s.cfg.nonceMax = true)

/-- What every step keeps. -/
structure Inv (s : State) : Prop where
  config  : s.cfg.wf = true
  status  : statusInv s
  buffers : bufferInv s
  phase   : phaseInv s
  frame   : frameInv s
  accept  : acceptInv s

/-- Every operand register, latch and counter holds a value, as reset leaves it (log 3). R35 and R101 have meaning without
it too; no step takes it away. -/
def registersHoldValues (s : State) : Prop :=
  (∀ o ∈ [s.op, s.latch], o.fin.known = true ∧ o.opcode.known = true ∧ o.masked.known = true ∧ o.len.known = true ∧
    (∀ i : Fin 4, o.key[i].known = true) ∧ o.nonceLen.known = true) ∧
    s.rx.frameBytes.known = true ∧ s.enc.txBytes.known = true

/-- R36, with the 0 that the model names for the registers R36 gives no value (log 3), as HOST and the rules can tell
them. The hidden working registers and the result bytes behind ACCEPT_VALID are left out (log 4, 5, 23). -/
structure AtReset (s : State) : Prop where
  seq        : s.seq = .idle
  done       : s.status.done = false
  err        : s.status.err = false
  errCode    : s.status.errCode = .none
  errState   : s.status.errState = .idle
  lastCmd    : s.status.lastCmd = 0
  opFin      : s.op.fin = .of false ∧ s.latch.fin = .of false
  opOpcode   : s.op.opcode = .of 0 ∧ s.latch.opcode = .of 0
  opMasked   : s.op.masked = .of false ∧ s.latch.masked = .of false
  opLen      : s.op.len = .of 0 ∧ s.latch.len = .of 0
  opKey      : ∀ i : Fin 4, s.op.key[i] = .of 0 ∧ s.latch.key[i] = .of 0
  opNonceLen : s.op.nonceLen = .of 0 ∧ s.latch.nonceLen = .of 0
  rxFields   : s.rx.fin = .of false ∧ s.rx.rsv = .of 0 ∧ s.rx.opcode = .of 0 ∧ s.rx.masked = .of false ∧
    s.rx.len7 = .of 0 ∧ s.rx.len = .of 0
  rxKey      : ∀ i : Fin 4, s.rx.key[i] = .of 0
  frameValid : s.rx.frameValid = false
  counters   : s.rx.frameBytes = .of 0 ∧ s.enc.txBytes = .of 0
  accept     : s.acc.valid = false
  buffers    : ∀ a, s.buf.rxPbuf.find a = none ∧ s.buf.txPbuf.find a = none ∧ s.buf.nonceBuf.find a = none

/-! ### Frames on the wire -/

/-- R95: the three length forms. -/
inductive LenKind where
  | direct
  | ext16
  | ext64
deriving DecidableEq, Repr

/-- A frame as its sender means it: the payload is the unmasked one. -/
structure WireFrame where
  fin     : Bool
  op      : BitVec 4
  kind    : LenKind
  key     : Option (Vector Byte 4)
  payload : List Byte
deriving DecidableEq, Repr

/-- R11 `BEbytes_n(v)`. -/
def beBytes : Nat → Nat → List Byte
  | 0, _ => []
  | n + 1, v => BitVec.ofNat 8 (v / 256 ^ n) :: beBytes n v

/-- R95: LEN7 of a frame. -/
def WireFrame.len7 (f : WireFrame) : BitVec 7 :=
  match f.kind with
  | .direct => BitVec.ofNat 7 f.payload.length
  | .ext16 => 126
  | .ext64 => 127

/-- R96: the extended-length bytes. -/
def WireFrame.extBytes (f : WireFrame) : List Byte :=
  match f.kind with
  | .direct => []
  | .ext16 => beBytes 2 f.payload.length
  | .ext64 => beBytes 8 f.payload.length

/-- R97: the mask-key bytes. -/
def WireFrame.keyBytes (f : WireFrame) : List Byte :=
  match f.key with
  | none => []
  | some k => k.toList

/-- The payload as it stands on the wire (R97, 42_mask_cipher.md R190). -/
def WireFrame.wirePayload (f : WireFrame) : List Byte :=
  match f.key with
  | none => f.payload
  | some k => maskBytes k 0 f.payload

/-- R90, R91, R94: the header. -/
def WireFrame.header (f : WireFrame) : List Byte :=
  [byte0Of f.fin 0 f.op, byte1Of f.key.isSome f.len7] ++ f.extBytes ++ f.keyBytes

/-- R90: the whole frame. -/
def WireFrame.bytes (f : WireFrame) : List Byte := f.header ++ f.wirePayload

/-- R95: the length form can carry the length. It need not be the shortest (R103). -/
def WireFrame.fits (f : WireFrame) : Prop :=
  match f.kind with
  | .direct => f.payload.length ≤ 125
  | .ext16 => f.payload.length ≤ 65535
  | .ext64 => f.payload.length ≤ 2 ^ 63 - 1

/-- R102: no check of the decoder rejects the frame, its size apart. -/
def WireFrame.legal (f : WireFrame) : Prop :=
  isReservedOp f.op = false ∧ (isControlOp f.op = true → f.fin = true ∧ f.payload.length ≤ 125) ∧ f.fits

/-- R173 to R175: the shortest length form that can hold a length. -/
def shortestKind (n : Nat) : LenKind :=
  if n ≤ 125 then .direct else if n ≤ 65535 then .ext16 else .ext64

/-- The frame that ENCODE emits (R104, R170): unmasked, with the shortest length form. -/
def encodedFrame (fin : Bool) (op : BitVec 4) (payload : List Byte) : WireFrame where
  fin     := fin
  op      := op
  kind    := shortestKind payload.length
  key     := none
  payload := payload

end Sys2Proof.Machine
end

