-- ==== Sys2Proof/Certificates/Slice0/Obligations.lean ====
section
/-! DEFINITION. The statements for the provers. Each docstring names the rule of spec/ it formalises, or the log entry
where a clause is the model's choice. `codecMoves s u` says that the CODEC moves next, from the state `u`: `s` itself, or
`s` without the turn that the agenda gives it. -/

open Sys2Proof Sys2Proof.Machine

/-! ### Encoding -/

/-- Tier 3. 30_encoding.md sections 1 to 3: decoding the byte of a well-formed row, at the row's own port, gives the row
back, for all 27 rows and every value of their free bits. -/
def Obligations.DecodeOfEncode : Prop :=
  ∀ i : Instr, i.wellFormed = true → decode (encode i).1 (encode i).2 = .ok i

/-- Tier 2. The other direction: what a port reads is well formed, and encodes back to that byte at that port. So no two
bytes of a port stand for one row with the same free bits, and no row is read with a bit dropped. -/
def Obligations.DecodedRowEncodesBack : Prop :=
  ∀ (p : Port) (b : Byte) (i : Instr), decode p b = .ok i → i.wellFormed = true ∧ encode i = (p, b)

/-- Tier 1. Words written out from the spec's encodings: 40_decode.md R126 to R131, 30_encoding.md R91, R95, R100, and
41_encode.md R173 to R175. That 0xF3 and 0xB2, which fit two of the overlapping reserved-bit rows, are read as the first
of them in the table's order is the model's (log 11). -/
def Obligations.SampleWordsDecode : Prop :=
  decode .rxByte0 0b00000001 = .ok (.text false) ∧ decode .rxByte0 0b10000001 = .ok (.text true) ∧
    decode .rxByte0 0b10001000 = .ok (.close true) ∧ decode .rxByte0 0b00001010 = .ok (.pong false) ∧
    decode .rxByte0 0b11110011 = .ok (.rsvBit6Set true 3 3) ∧ decode .rxByte0 0b10110010 = .ok (.rsvBit5Set true true 2) ∧
    decode .rxByte0 0b00010001 = .ok (.rsvBit4Set false 1) ∧ decode .rxByte0 0b10000110 = .ok (.reservedOp4To7 true 2) ∧
    decode .rxByte0 0b00001101 = .ok (.reservedOpCToF false 1) ∧
    decode .rxByte1 0b10000101 = .ok (.lenDirect true 5) ∧ decode .rxByte1 0b01111101 = .ok (.lenDirect false 125) ∧
    decode .rxByte1 0b01111110 = .ok (.lenExt16 false) ∧ decode .rxByte1 0b11111111 = .ok (.lenExt64 true) ∧
    decode .encByte1 0b01111101 = .ok (.encLenDirect 125) ∧ decode .encByte1 0b01111110 = .ok .encLenExt16 ∧
    decode .encByte1 0b01111111 = .ok .encLenExt64 ∧
    decode .cmd 0b001 = .ok .decode ∧ decode .cmd 0b011 = .ok .maskApply ∧ decode .cmd 0b100 = .ok .acceptKey ∧
    decode .cmd 0b101 = .ok .reservedCmd101

/-! ### The step and the row it runs -/

/-- Tier 1. 10_state.md R21, 30_encoding.md R101, 40_decode.md R122, R132: where the CODEC moves, the step is the meaning
of the row that its port reads, once the offer or the byte has been taken. -/
def Obligations.StepRunsDecodedRow : Prop :=
  ∀ (s u : State), codecMoves s u →
    (∀ c i, u.seq = .idle → u.env.offer = some c → decode .cmd (c.setWidth 8) = .ok i →
      step s = exec i { u with env := { u.env with offer := none } }) ∧
    (∀ b bs i, u.seq = .dB0 → u.env.rx = b :: bs → decode .rxByte0 b = .ok i →
      step s = exec i { u with env := { u.env with rx := bs } }) ∧
    (∀ b bs i, u.seq = .dB1 → u.env.rx = b :: bs → decode .rxByte1 b = .ok i →
      step s = exec i { u with env := { u.env with rx := bs } })

/-- Tier 1. 10_state.md R20, 30_encoding.md R106, 20_memory.md R75, R78: five turns of other agents, an offer, an append,
`closed`, a change of the sink and a WAIT that ends, each do their one action and give up their place in the agenda. The
agenda, what an append after `closed` does and when WAIT ends are the model's (log 1, 20, 13). -/
def Obligations.OtherAgentsTakeTheirTurn : Prop :=
  ∀ (s : State) (rest : List Turn),
    (∀ c, s.env.agenda = .offer c :: rest → s.env.offer = none →
      step s = .next { s with env := { s.env with offer := some c, agenda := rest } }) ∧
    (∀ bytes, s.env.agenda = .rxAppend bytes :: rest → s.env.rxClosed = false →
      step s = .next { s with env := { s.env with rx := s.env.rx ++ bytes, agenda := rest } }) ∧
    (∀ bytes, s.env.agenda = .rxAppend bytes :: rest → s.env.rxClosed = true →
      step s = .next { s with env := { s.env with agenda := rest } }) ∧
    (s.env.agenda = .rxClose :: rest → step s = .next { s with env := { s.env with rxClosed := true, agenda := rest } }) ∧
    (∀ ready, s.env.agenda = .txSink ready :: rest →
      step s = .next { s with env := { s.env with txReady := ready, agenda := rest } }) ∧
    (s.env.agenda = .wait :: rest → s.env.offer = none → s.status.done = true ∨ s.status.err = true →
      step s = .next { s with env := { s.env with agenda := rest } })

/-- Tier 2. 30_encoding.md R101 for the commands, and log 8 for the other rows: a row read outside the STATE that reads
it changes nothing. -/
def Obligations.RowOutsideItsStateHolds : Prop :=
  ∀ (i : Instr) (s : State), s.seq ≠ rowPhase i → exec i s = .next s

/-- Tier 2. 30_encoding.md R101: in IDLE an offered command is accepted, its code and every operand latched whether or
not it has a value, DONE cleared, and a reserved code raises IllegalCommand; in any other STATE the offer waits and
nothing is latched. -/
def Obligations.CommandsAcceptedOnlyInIdle : Prop :=
  ∀ (s u t : State) (c : Cmd), codecMoves s u → u.env.offer = some c → step s = .next t →
    (u.seq = .idle →
      t.env.offer = none ∧ t.status.lastCmd = c ∧ t.status.done = false ∧ t.latch = u.op ∧ t.op = u.op ∧
        (∀ i, (c, i) ∈ [(1, Instr.decode), (2, .encode), (3, .maskApply), (4, .acceptKey)] →
          exec i { u with env := { u.env with offer := none } } = .next t) ∧
        (c ∈ [0, 5, 6, 7] → t = { u with
          seq := .error
          status := { done := false, err := true, errCode := .illegalCommand, errState := .idle, lastCmd := c }
          latch := u.op
          env := { u.env with offer := none } })) ∧
    (u.seq ≠ .idle → t.env.offer = some c ∧ t.status.lastCmd = u.status.lastCmd ∧ t.latch = u.latch ∧ t.op = u.op)

/-! ### Header byte 0 -/

/-- Tier 1. 40_decode.md R122, R123, R126 to R131: in D_B0 each of the six opcode rows completes, with FIN free, and
writes RX_FIN, RX_RSV, RX_OPCODE, FRAME_BYTES and STATE only. -/
def Obligations.OpcodeRowsComplete : Prop :=
  ∀ (fin : Bool) (s : State), s.seq = .dB0 →
    let reached (op : BitVec 4) : State := { s with
      rx := { s.rx with
        frameBytes := ⟨s.rx.frameBytes.val + 1, s.rx.frameBytes.known⟩
        fin := .of fin
        rsv := .of 0
        opcode := .of op }
      seq := .dB1 }
    exec (.continuation fin) s = .next (reached 0x0) ∧ exec (.text fin) s = .next (reached 0x1) ∧
      exec (.binary fin) s = .next (reached 0x2) ∧ exec (.close fin) s = .next (reached 0x8) ∧
      exec (.ping fin) s = .next (reached 0x9) ∧ exec (.pong fin) s = .next (reached 0xA)

/-- Tier 1. 40_decode.md R122 to R125: in D_B0 each row with a set reserved bit raises ReservedBitsSet and each row with
a reserved opcode raises InvalidOpcode, after the byte is counted and its fields written. Raising is these rows' effect. -/
def Obligations.IllegalByte0RowsRaise : Prop :=
  ∀ (fin rsv4 : Bool) (rsv54 low : BitVec 2) (op : BitVec 4) (s : State), s.seq = .dB0 →
    let raised (e : ErrCode) (rsv : BitVec 3) (op : BitVec 4) : State := { s with
      rx := { s.rx with
        frameBytes := ⟨s.rx.frameBytes.val + 1, s.rx.frameBytes.known⟩
        fin := .of fin
        rsv := .of rsv
        opcode := .of op }
      status := { s.status with err := true, errCode := e, errState := .dB0, done := false }
      seq := .error }
    exec (.rsvBit6Set fin rsv54 op) s = .next (raised .reservedBitsSet (1#1 ++ rsv54) op) ∧
      exec (.rsvBit5Set fin rsv4 op) s = .next (raised .reservedBitsSet (0b01#2 ++ BitVec.ofBool rsv4) op) ∧
      exec (.rsvBit4Set fin op) s = .next (raised .reservedBitsSet 0b001 op) ∧
      exec (.reservedOp3 fin) s = .next (raised .invalidOpcode 0 0x3) ∧
      exec (.reservedOp4To7 fin low) s = .next (raised .invalidOpcode 0 (0b01#2 ++ low)) ∧
      exec (.reservedOpB fin) s = .next (raised .invalidOpcode 0 0xB) ∧
      exec (.reservedOpCToF fin low) s = .next (raised .invalidOpcode 0 (0b11#2 ++ low))

/-- Tier 2. 40_decode.md R122, R123, R124, R125: the step in D_B0, whatever byte stands at the front of the stream, and at
the end of the stream. -/
def Obligations.HeaderByte0Step : Prop :=
  ∀ (s u : State), codecMoves s u → u.seq = .dB0 →
    (∀ b bs, u.env.rx = b :: bs →
      let v : State := { u with
        env := { u.env with rx := bs }
        rx := { u.rx with
          frameBytes := ⟨u.rx.frameBytes.val + 1, u.rx.frameBytes.known⟩
          fin := .of (b.getLsbD 7)
          rsv := .of (b.extractLsb' 4 3)
          opcode := .of (b.extractLsb' 0 4) } }
      step s = .next
        (if b.extractLsb' 4 3 ≠ 0 then raise .reservedBitsSet v
         else if b.extractLsb' 0 4 ∈ [0x3, 0x4, 0x5, 0x6, 0x7, 0xB, 0xC, 0xD, 0xE, 0xF] then raise .invalidOpcode v
         else { v with seq := .dB1 })) ∧
    (u.env.rx = [] → u.env.rxClosed = true → step s = .next (raise .connectionClosed u))

/-! ### Header byte 1 and the length decoder -/

/-- Tier 1. 40_decode.md R132, R133, R138, R139: in D_B1 each of the three length rows completes. A DIRECT length goes
on to the key, the payload or the check; `cfg.wf` is R7's 125 ≤ PBUF_BYTES. -/
def Obligations.LengthRowsComplete : Prop :=
  ∀ (mask : Bool) (len7 : BitVec 7) (s : State), s.seq = .dB1 →
    let seen (l : BitVec 7) : RxRegs := { s.rx with
      frameBytes := ⟨s.rx.frameBytes.val + 1, s.rx.frameBytes.known⟩
      masked := .of mask
      len7 := .of l }
    (s.cfg.wf = true → len7 ≤ 125 → exec (.lenDirect mask len7) s = .next { s with
      rx := { seen len7 with len := .of (len7.setWidth 64) }
      dec := { s.dec with extNeed := 0, keyCnt := if mask then 0 else s.dec.keyCnt }
      seq := if mask then .dKey else if len7 = 0 then .dChk else .dPay }) ∧
    exec (.lenExt16 mask) s = .next { s with rx := seen 126, dec := { s.dec with extNeed := 2 }, seq := .dExt } ∧
    exec (.lenExt64 mask) s = .next { s with rx := seen 127, dec := { s.dec with extNeed := 8 }, seq := .dExt }

/-- Tier 2. 40_decode.md R132, R133, with R138 and R139 as the DIRECT form applies them: the step in D_B1, whatever byte
stands at the front of the stream. -/
def Obligations.HeaderByte1Step : Prop :=
  ∀ (s u : State), codecMoves s u → u.seq = .dB1 →
    (∀ b bs, u.env.rx = b :: bs →
      let len7 : BitVec 7 := b.extractLsb' 0 7
      let seen : RxRegs := { u.rx with
        frameBytes := ⟨u.rx.frameBytes.val + 1, u.rx.frameBytes.known⟩
        masked := .of (b.getLsbD 7)
        len7 := .of len7 }
      let v : State := { u with
        env := { u.env with rx := bs }
        rx := { seen with len := .of (len7.setWidth 64) }
        dec := { u.dec with extNeed := 0 } }
      (len7 ≤ 125 → step s = .next
        (if u.cfg.pbufBytes < len7.toNat then raise .payloadTooLarge v
         else if b.getLsbD 7 then { v with dec := { v.dec with keyCnt := 0 }, seq := .dKey }
         else if 0 < len7 then { v with seq := .dPay } else { v with seq := .dChk })) ∧
      (len7 = 126 → step s = .next { u with
        env := { u.env with rx := bs }, rx := seen, dec := { u.dec with extNeed := 2 }, seq := .dExt }) ∧
      (len7 = 127 → step s = .next { u with
        env := { u.env with rx := bs }, rx := seen, dec := { u.dec with extNeed := 8 }, seq := .dExt })) ∧
    (u.env.rx = [] → u.env.rxClosed = true → step s = .next (raise .truncatedStream u))

/-- Tier 2. 40_decode.md R134, R135, R136, R138, R139: the step in D_EXT. The last byte fixes RX_LEN, unless bit 63 of an
EXT64 length is set; the ceiling is checked before any key or payload byte. `Inv` gives RX_MASKED its value. -/
def Obligations.ExtendedLengthStep : Prop :=
  ∀ (s u : State), codecMoves s u → Inv u → u.seq = .dExt →
    (∀ r bs, u.env.rx = r :: bs →
      let acc : Word64 := (u.dec.extAcc <<< 8) ||| r.setWidth 64
      let v : State := { u with
        env := { u.env with rx := bs }
        rx := { u.rx with frameBytes := .of (u.rx.frameBytes.val + 1) }
        dec := { u.dec with extAcc := acc, extCnt := u.dec.extCnt + 1 } }
      let w : State := { v with rx := { v.rx with len := .of acc } }
      step s = .next
        (if u.dec.extCnt + 1 ≠ u.dec.extNeed then v
         else if u.dec.extNeed ≠ 2 ∧ acc.getLsbD 63 = true then raise .lengthOverflow v
         else if u.cfg.pbufBytes < acc.toNat then raise .payloadTooLarge w
         else if u.rx.masked = .of true then { w with dec := { w.dec with keyCnt := 0 }, seq := .dKey }
         else if 0 < acc then { w with seq := .dPay } else { w with seq := .dChk })) ∧
    (u.env.rx = [] → u.env.rxClosed = true → step s = .next (raise .truncatedStream u))

/-! ### Mask key, payload, check -/

/-- Tier 2. 40_decode.md R140: the step in D_KEY, that it runs for a masked frame only, and that RX_KEY keeps no value
where the frame is not masked. -/
def Obligations.KeyByteStep : Prop :=
  ∀ (s u : State), codecMoves s u → Inv u →
    (u.seq = .dKey →
      u.rx.masked = .of true ∧
      (∀ r bs, u.env.rx = r :: bs → step s = .next { u with
        env := { u.env with rx := bs }
        rx := { u.rx with
          frameBytes := .of (u.rx.frameBytes.val + 1)
          key := u.rx.key.setIfInBounds u.dec.keyCnt.toNat (.of r) }
        dec := { u.dec with keyCnt := u.dec.keyCnt + 1 }
        seq := if u.dec.keyCnt + 1 = 4 then (if 0 < u.rx.len.val then .dPay else .dChk) else .dKey }) ∧
      (u.env.rx = [] → u.env.rxClosed = true → step s = .next (raise .truncatedStream u))) ∧
    (u.seq = .dPay ∨ u.seq = .dChk ∨ u.rx.frameValid = true → u.rx.masked = .of false →
      ∀ i : Fin 4, u.rx.key[i].known = false)

/-- Tier 2. 40_decode.md R141: the step in D_PAY. The byte written is the byte taken, unmasked with the key byte of its
index where the frame is masked, at index PAY_CNT; that the index lies below RX_LEN and inside RX_PBUF is the sentence
of R141 that the spec marks derived. -/
def Obligations.PayloadByteStep : Prop :=
  ∀ (s u : State), codecMoves s u → Inv u → u.seq = .dPay →
    u.dec.payCnt < u.rx.len.val ∧ u.rx.len.val.toNat ≤ u.cfg.pbufBytes ∧
    (∀ r bs, u.env.rx = r :: bs → ∃ v : Byte,
      (u.rx.masked = .of false → v = r) ∧
      (u.rx.masked = .of true →
        ∃ k, u.rx.key[u.dec.payCnt.toNat % 4]? = some (.of k) ∧ v = r ^^^ k) ∧
      step s = .next { u with
        env := { u.env with rx := bs }
        rx := { u.rx with frameBytes := .of (u.rx.frameBytes.val + 1) }
        buf := { u.buf with rxPbuf := u.buf.rxPbuf.put u.dec.payCnt.toNat v }
        dec := { u.dec with payCnt := u.dec.payCnt + 1 }
        seq := if u.dec.payCnt + 1 = u.rx.len.val then .dChk else .dPay }) ∧
    (u.env.rx = [] → u.env.rxClosed = true → step s = .next (raise .truncatedStream u))

/-- Tier 2. 40_decode.md R144, R145: the step in D_CHK. A control frame that is fragmented or longer than 125 bytes
raises InvalidControlFrame; every other frame completes, with RSV = 000, its whole payload stored, and a key exactly
where it is masked. -/
def Obligations.ControlFrameCheckStep : Prop :=
  ∀ (s u : State), codecMoves s u → Inv u → u.seq = .dChk →
    ∃ fin op len, u.rx.fin = .of fin ∧ u.rx.opcode = .of op ∧ u.rx.len = .of len ∧
      (op ∈ [0x8#4, 0x9#4, 0xA#4] ∧ (fin = false ∨ 125 < len) → step s = .next (raise .invalidControlFrame u)) ∧
      (¬ (op ∈ [0x8#4, 0x9#4, 0xA#4] ∧ (fin = false ∨ 125 < len)) →
        step s = .next { u with
          rx := { u.rx with frameValid := true }
          status := { u.status with done := true }
          seq := .idle } ∧
        u.rx.rsv = .of 0 ∧ (∀ a, a < len.toNat → (u.buf.rxPbuf.find a).isSome = true) ∧
        ∃ masked, u.rx.masked = .of masked ∧ ∀ i : Fin 4, u.rx.key[i].known = masked)

/-! ### Command acceptance -/

/-- Tier 1. 40_decode.md R121, inside 30_encoding.md R101: the whole state after DECODE is accepted. No byte is taken
and RX_PBUF is not cleared. R121 takes the value of each RX_* field away; that the bits behind the mark stay is the
model's choice (log 3). -/
def Obligations.DecodeAccepts : Prop :=
  ∀ s : State, s.seq = .idle → exec .decode s = .next { s with
    status := { s.status with lastCmd := 1, done := false }
    latch := s.op
    rx := {
      frameBytes := .of 0
      frameValid := false
      fin := ⟨s.rx.fin.val, false⟩
      rsv := ⟨s.rx.rsv.val, false⟩
      opcode := ⟨s.rx.opcode.val, false⟩
      masked := ⟨s.rx.masked.val, false⟩
      len7 := ⟨s.rx.len7.val, false⟩
      len := ⟨s.rx.len.val, false⟩
      key := s.rx.key.map fun r => ⟨r.val, false⟩ }
    dec := { extNeed := 0, extCnt := 0, extAcc := 0, keyCnt := 0, payCnt := 0 }
    seq := .dB0 }

/-- Tier 2. 41_encode.md R171, R172, R173, R174, R175: ENCODE acceptance on operands that have values. Either it raises
InvalidFrame, or it builds the header: byte 0, then the length form that the length selects, big-endian; the rest of
E_HDR and of the machine is unchanged. -/
def Obligations.EncodeAcceptance : Prop :=
  ∀ (s : State) (fin : Bool) (op : BitVec 4) (len : Word64), s.seq = .idle → s.cfg.wf = true →
    s.op.fin = .of fin → s.op.opcode = .of op → s.op.len = .of len →
    let v : State := { s with
      status := { s.status with lastCmd := 2, done := false }
      latch := s.op
      enc := { s.enc with txBytes := .of 0 } }
    let bad : Prop :=
      op ∈ [0x3, 0x4, 0x5, 0x6, 0x7, 0xB, 0xC, 0xD, 0xE, 0xF] ∨
        (op ∈ [0x8, 0x9, 0xA] ∧ (fin = false ∨ 125 < len)) ∨ s.cfg.pbufBytes < len.toNat
    (bad → exec .encode s = .next (raise .invalidFrame v)) ∧
    (¬ bad → ∃ e : EncRegs,
      exec .encode s = .next { v with enc := e, seq := .eHdr } ∧
      e.cnt = 0 ∧ e.payCnt = 0 ∧ e.txBytes = .of 0 ∧
      e.hdr[0] = ((BitVec.ofBool fin).setWidth 8 <<< 7) ||| op.setWidth 8 ∧
      (len ≤ 125 → e.hdrLen = 2 ∧ e.hdr[1] = len.setWidth 8) ∧
      (126 ≤ len → len ≤ 65535 →
        e.hdrLen = 4 ∧ e.hdr[1] = 126 ∧ [e.hdr[2], e.hdr[3]] = beBytes 2 len.toNat) ∧
      (65536 ≤ len →
        e.hdrLen = 10 ∧ e.hdr[1] = 127 ∧ e.hdr[2].getLsbD 7 = false ∧
          [e.hdr[2], e.hdr[3], e.hdr[4], e.hdr[5], e.hdr[6], e.hdr[7], e.hdr[8], e.hdr[9]] = beBytes 8 len.toNat) ∧
      (∀ i : Fin 10, e.hdrLen.toNat ≤ i.val → e.hdr[i] = s.enc.hdr[i]))

/-- Tier 1. 41_encode.md R173, R174, R175, R176: each length-form row, read where ENCODE acceptance applies it (IDLE, the
length latched: log 12), completes and writes E_HDR and E_HDR_LEN only; where the length selects another row it changes
nothing. -/
def Obligations.EncoderFormRowsComplete : Prop :=
  ∀ (s : State) (len : Word64), s.seq = .idle → s.latch.len = .of len →
    (∀ len7 : BitVec 7, len ≤ 125 → len.setWidth 7 = len7 → exec (.encLenDirect len7) s = .next { s with
      enc := { s.enc with hdr := s.enc.hdr.set 1 (len7.setWidth 8), hdrLen := 2 } }) ∧
    (∀ len7 : BitVec 7, (125 < len ∨ len.setWidth 7 ≠ len7) → exec (.encLenDirect len7) s = .next s) ∧
    (125 < len → len ≤ 65535 → ∃ e : EncRegs, exec .encLenExt16 s = .next { s with enc := e } ∧
      e = { s.enc with hdr := e.hdr, hdrLen := 4 } ∧ e.hdr[0] = s.enc.hdr[0] ∧ e.hdr[1] = 0x7E ∧
      [e.hdr[2], e.hdr[3]] = beBytes 2 len.toNat ∧ ∀ i : Fin 10, 4 ≤ i.val → e.hdr[i] = s.enc.hdr[i]) ∧
    ((len ≤ 125 ∨ 65535 < len) → exec .encLenExt16 s = .next s) ∧
    (65535 < len → ∃ e : EncRegs, exec .encLenExt64 s = .next { s with enc := e } ∧
      e = { s.enc with hdr := e.hdr, hdrLen := 10 } ∧ e.hdr[0] = s.enc.hdr[0] ∧ e.hdr[1] = 0x7F ∧
      [e.hdr[2], e.hdr[3], e.hdr[4], e.hdr[5], e.hdr[6], e.hdr[7], e.hdr[8], e.hdr[9]] = beBytes 8 len.toNat) ∧
    (len ≤ 65535 → exec .encLenExt64 s = .next s)

/-- Tier 2. 41_encode.md R171, R176; opcode_table.json's enc_byte1 rows: header byte 1 that ENCODE leaves in E_HDR reads,
at the encoder's port, as the row of the latched length, and running that row again changes nothing. That the row acts
in IDLE, and only where L_LEN selects it, is the model's choice (log 12). -/
def Obligations.EncodeWritesALengthRow : Prop :=
  ∀ (s t : State), exec .encode s = .next t → s.seq = .idle → t.seq = .eHdr →
    ∃ i, decode .encByte1 t.enc.hdr[1] = .ok i ∧ exec i { t with seq := .idle } = .next { t with seq := .idle } ∧
      (∀ len, s.op.len = .of len →
        (len ≤ 125 → i = .encLenDirect (len.setWidth 7)) ∧ (126 ≤ len → len ≤ 65535 → i = .encLenExt16) ∧
          (65536 ≤ len → i = .encLenExt64))

/-- Tier 1. 42_mask_cipher.md R194, inside 30_encoding.md R101: the whole state after MASK_APPLY is accepted. -/
def Obligations.MaskApplyAccepts : Prop :=
  ∀ (s : State) (len : Word64), s.seq = .idle → s.op.len = .of len →
    let v : State := { s with status := { s.status with lastCmd := 3, done := false }, latch := s.op }
    exec .maskApply s = .next
      (if s.cfg.pbufBytes < len.toNat then raise .operandRange v else { v with seq := .mRun })

/-- Tier 1. 43_accept_key_sha1.md R201, inside 30_encoding.md R101: the whole state after ACCEPT_KEY is accepted, and the
two conditions exclude each other. -/
def Obligations.AcceptKeyAccepts : Prop :=
  ∀ (s : State) (n : Word64), s.seq = .idle → s.op.nonceLen = .of n →
    let v : State := { s with
      status := { s.status with lastCmd := 4, done := false }
      latch := s.op
      acc := { s.acc with valid := false } }
    exec .acceptKey s = .next
      (if n = 0 then raise .invalidInput v
       else if s.cfg.nonceMax < n.toNat then raise .operandRange v
       else { v with seq := .aRun }) ∧
    (s.cfg.wf = true → ¬ (n = 0 ∧ s.cfg.nonceMax < n.toNat))

/-- Tier 1. 30_encoding.md R100, R101, 60_exceptions.md R246: each of the four reserved codes raises IllegalCommand, which
is its effect; the command is latched as any other, and nothing else changes. -/
def Obligations.ReservedCommandsRaise : Prop :=
  ∀ s : State, s.seq = .idle →
    let raised (c : Cmd) : State := { s with
      status := { done := false, err := true, errCode := .illegalCommand, errState := .idle, lastCmd := c }
      latch := s.op
      seq := .error }
    exec .reservedCmd000 s = .next (raised 0b000) ∧ exec .reservedCmd101 s = .next (raised 0b101) ∧
      exec .reservedCmd110 s = .next (raised 0b110) ∧ exec .reservedCmd111 s = .next (raised 0b111)

/-- Tier 1. 10_state.md R35, 30_encoding.md R101: a command's acceptance faults exactly where a check needs an operand that
has no value, and answers a next state everywhere else. Which operands a check of R171 needs is log 16; after reset
every operand holds a value (log 3), so no run meets the fault. -/
def Obligations.UnwrittenOperandsFault : Prop :=
  ∀ s : State, s.seq = .idle →
    let reserved : Prop := s.op.opcode.val ∈ [0x3, 0x4, 0x5, 0x6, 0x7, 0xB, 0xC, 0xD, 0xE, 0xF]
    let control : Prop := s.op.opcode.val ∈ [0x8, 0x9, 0xA]
    let stops : Prop :=
      s.op.opcode.known = false ∨
        (¬ reserved ∧
          ((control ∧ s.op.fin.known = false) ∨
            ((control → s.op.fin.val = true) ∧ s.op.len.known = false) ∨
            (¬ control ∧ s.op.fin.known = false ∧ s.op.len.val.toNat ≤ s.cfg.pbufBytes)))
    (stops → exec .encode s = .fault .unwrittenRead) ∧
    (¬ stops → ∃ t, exec .encode s = .next t) ∧
    (s.op.opcode.known = true → reserved → ∃ t, exec .encode s = .next t ∧ t.status.errCode = .invalidFrame) ∧
    (s.op.len.known = false → exec .maskApply s = .fault .unwrittenRead) ∧
    (s.op.len.known = true → ∃ t, exec .maskApply s = .next t) ∧
    (s.op.nonceLen.known = false → exec .acceptKey s = .fault .unwrittenRead) ∧
    (s.op.nonceLen.known = true → ∃ t, exec .acceptKey s = .next t) ∧
    ∃ t, exec .decode s = .next t

/-! ### Emission -/

/-- Tier 2. 41_encode.md R177, R179: the step in E_HDR while the sink is ready. -/
def Obligations.HeaderEmissionStep : Prop :=
  ∀ (s u : State), codecMoves s u → Inv u → u.seq = .eHdr → u.env.txReady = true →
    ∃ b len, u.enc.hdr[u.enc.cnt.toNat]? = some b ∧ u.latch.len = .of len ∧
      let v : State := { u with
        env := { u.env with tx := u.env.tx ++ [b] }
        enc := { u.enc with cnt := u.enc.cnt + 1, txBytes := .of (u.enc.txBytes.val + 1) } }
      step s = .next
        (if u.enc.cnt + 1 ≠ u.enc.hdrLen then v
         else if 0 < len then { v with seq := .ePay }
         else { v with status := { v.status with done := true }, seq := .idle })

/-- Tier 2. 41_encode.md R178, R179: the step in E_PAY while the sink is ready. A byte with no value faults. -/
def Obligations.PayloadEmissionStep : Prop :=
  ∀ (s u : State), codecMoves s u → Inv u → u.seq = .ePay → u.env.txReady = true →
    (u.buf.txPbuf.find u.enc.payCnt.toNat = none → step s = .fault .unwrittenRead) ∧
    (∀ b, u.buf.txPbuf.find u.enc.payCnt.toNat = some b →
      let v : State := { u with
        env := { u.env with tx := u.env.tx ++ [b] }
        enc := { u.enc with payCnt := u.enc.payCnt + 1, txBytes := .of (u.enc.txBytes.val + 1) } }
      step s = .next
        (if u.latch.len = .of (u.enc.payCnt + 1) then { v with status := { v.status with done := true }, seq := .idle }
         else v))

/-- Tier 1. 20_memory.md R76, R78, 60_exceptions.md R248: where the CODEC holds (no byte and the stream open, a sink that
is not ready, IDLE with nothing offered, ERROR) its turn changes nothing. That a hold is an unchanged next state, and
that it comes before the payload byte is read, is the model's (log 2, 18). -/
def Obligations.HoldsChangeNothing : Prop :=
  ∀ (s u : State), codecMoves s u →
    ((u.seq ∈ [.dB0, .dB1, .dExt, .dKey, .dPay] ∧ u.env.rx = [] ∧ u.env.rxClosed = false) ∨
      (u.seq ∈ [.eHdr, .ePay] ∧ u.env.txReady = false) ∨ (u.seq = .idle ∧ u.env.offer = none) ∨ u.seq = .error) →
    step s = .next u

/-- Tier 2. 41_encode.md R182: ENCODE, from its acceptance to its completion, leaves RX_*, FRAME_BYTES and RX_PBUF as
they are, and never reads RX_PBUF: with any other contents there it does the same. -/
def Obligations.EncodeLeavesDecoder : Prop :=
  ∀ (s u t : State), codecMoves s u →
    (u.seq = .idle ∧ u.env.offer = some 2) ∨ u.seq = .eHdr ∨ u.seq = .ePay →
    step s = .next t →
    t.rx = u.rx ∧ t.dec = u.dec ∧ t.buf = u.buf ∧ t.acc = u.acc ∧ t.sha = u.sha ∧
      ∀ m : Memory, step { s with buf := { s.buf with rxPbuf := m } } = .next { t with buf := { t.buf with rxPbuf := m } }

/-! ### mask_cipher -/

/-- Tier 2. 42_mask_cipher.md R190: the mask function. -/
def Obligations.MaskFunction : Prop :=
  ∀ (p : List Byte) (key : Vector Byte 4),
    (maskBytes key 0 p).length = p.length ∧
      ∀ i x, p[i]? = some x → ∃ k, key[i % 4]? = some k ∧ (maskBytes key 0 p)[i]? = some (x ^^^ k)

/-- Tier 2. 42_mask_cipher.md R192, which the spec marks derived: masking twice restores the bytes, and a zero key leaves
them alone. The index may start anywhere. -/
def Obligations.MaskIsItsOwnInverse : Prop :=
  ∀ (p : List Byte) (key : Vector Byte 4) (i : Nat),
    maskBytes key i (maskBytes key i p) = p ∧ maskBytes (Vector.replicate 4 0) i p = p ∧ maskBytes key i [] = []

/-- Tier 2. 42_mask_cipher.md R195, R193: the body of MASK_APPLY, one step. Each byte of TX_PBUF[0..L_LEN) is combined with
the key byte of its index and every other byte of memory stays; a byte of TX_PBUF[0..L_LEN), or a key byte that one of
them uses, without a value makes the step fault; an ABORT before the step leaves TX_PBUF unchanged. That a key byte no
index uses needs no value is log 27. -/
def Obligations.MaskApplyBody : Prop :=
  ∀ (s u : State) (len : Word64), u.seq = .mRun → u.latch.len = .of len →
    (∀ key : Vector Byte 4, codecMoves s u → len.toNat ≤ u.cfg.pbufBytes →
      (∀ i : Fin 4, i.val < len.toNat → u.latch.key[i] = .of key[i]) →
      (∀ a, a < len.toNat → (u.buf.txPbuf.find a).isSome = true) →
      ∃ m : Memory,
        step s = .next { u with
          buf := { u.buf with txPbuf := m }, status := { u.status with done := true }, seq := .idle } ∧
        (∀ a x, a < len.toNat → u.buf.txPbuf.find a = some x →
          ∃ k, key[a % 4]? = some k ∧ m.find a = some (x ^^^ k)) ∧
        (∀ a, len.toNat ≤ a → m.find a = u.buf.txPbuf.find a)) ∧
    (codecMoves s u → len.toNat ≤ u.cfg.pbufBytes →
      (∃ a, a < len.toNat ∧ u.buf.txPbuf.find a = none) ∨ (∃ i : Fin 4, i.val < len.toNat ∧ u.latch.key[i].known = false) →
      step s = .fault .unwrittenRead) ∧
    (∀ rest, u.env.agenda = .abort :: rest → ∃ t, step u = .next t ∧ t.buf = u.buf ∧ t.seq = .idle)

/-! ### Accept key -/

/-- Tier 2. 43_accept_key_sha1.md R216, R200: the body of ACCEPT_KEY, one step. DIGEST is the hash of the nonce bytes and the
GUID, ACCEPT_OUT its base64 (both functions: log 21); the hidden SHA-1 state is the only other thing that may change
(log 23); a nonce byte without a value makes the step fault; an ABORT before the step leaves ACCEPT_VALID 0 and both
results alone. -/
def Obligations.AcceptKeyBody : Prop :=
  ∀ (s u : State) (nonce : List Byte), u.seq = .aRun →
    (codecMoves s u → u.latch.nonceLen = .of (BitVec.ofNat 64 nonce.length) → nonce.length < 2 ^ 64 →
      nonce.length ≤ u.cfg.nonceMax → (∀ i x, nonce[i]? = some x → u.buf.nonceBuf.find i = some x) →
      ∃ work : ShaWork, step s = .next { u with
        sha := work
        acc := {
          digest := sha1 (nonce ++ guidRom)
          acceptOut := base64 (sha1 (nonce ++ guidRom))
          valid := true }
        status := { u.status with done := true }
        seq := .idle }) ∧
    (∀ n : Word64, codecMoves s u → u.latch.nonceLen = .of n → n.toNat ≤ u.cfg.nonceMax →
      (∃ a, a < n.toNat ∧ u.buf.nonceBuf.find a = none) → step s = .fault .unwrittenRead) ∧
    (Inv u → ∀ rest, u.env.agenda = .abort :: rest → ∃ t, step u = .next t ∧ t.acc = u.acc ∧ t.acc.valid = false)

/-- Tier 2. 43_accept_key_sha1.md R203: ACCEPT_KEY reads NONCE_BUF[0..L_NONCE_LEN), GUID_ROM and L_NONCE_LEN only, so two
machines that agree on the nonce get the same result; and its two steps leave the streams, the decoder, the encoder, the
operands and every buffer alone. Acceptance also writes what every acceptance writes (30_encoding.md R101); the hidden
SHA-1 state is log 23. -/
def Obligations.AcceptKeyPurity : Prop :=
  (∀ (s s' u u' t t' : State), codecMoves s u → codecMoves s' u' → u.seq = .aRun → u'.seq = .aRun →
    u.latch.nonceLen = u'.latch.nonceLen →
    (∀ a, a < u.latch.nonceLen.val.toNat → u.buf.nonceBuf.find a = u'.buf.nonceBuf.find a) →
    step s = .next t → step s' = .next t' →
    t.acc.digest = t'.acc.digest ∧ t.acc.acceptOut = t'.acc.acceptOut ∧ t.acc.valid = t'.acc.valid) ∧
  (∀ (s u t : State), codecMoves s u → u.seq = .aRun → step s = .next t →
    t = { u with sha := t.sha, acc := t.acc, status := { u.status with done := true }, seq := .idle }) ∧
  (∀ (s t : State), s.seq = .idle → exec .acceptKey s = .next t →
    t = { s with latch := s.op, status := t.status, acc := { s.acc with valid := false }, seq := t.seq })

/-- Tier 2. 43_accept_key_sha1.md R205 (FIPS 180-4 by the spec's own account, log 21): the padded message is the message,
one byte 0x80, zero bytes, and the length in bits as 8 big-endian bytes; it fills `blockCount` blocks of 64 bytes, and
fewer zeros would not fill one. -/
def Obligations.PaddingFillsWholeBlocks : Prop :=
  ∀ m : List Byte, 8 * m.length < 2 ^ 64 → ∃ k,
    padMessage m = m ++ [0x80] ++ List.replicate k 0 ++ beBytes 8 (8 * m.length) ∧
      (m.length + 1 + k) % 64 = 56 ∧ (∀ j, j < k → (m.length + 1 + j) % 64 ≠ 56) ∧
      (padMessage m).length = 64 * ((m.length + 8) / 64 + 1)

/-- Tier 2. 43_accept_key_sha1.md R206 to R213 (FIPS 180-4 by the spec's own account, log 21). The message schedule has 80
words, starts with the block's 16, and obeys the recurrence. And `sha1` is what the rules compute, block by block: the
hash words `h j` before block j, its schedule `w j`, and the working variables `v j t` before round t, with the initial
value, the round functions and the constants written out. -/
def Obligations.Sha1FollowsItsRules : Prop :=
  (∀ block : List Word32, block.length = 16 →
    (schedule block).length = 80 ∧ (schedule block).take 16 = block ∧
      ∀ t, 16 ≤ t → t < 80 → ∃ a b c d,
        (schedule block)[t - 3]? = some a ∧ (schedule block)[t - 8]? = some b ∧ (schedule block)[t - 14]? = some c ∧
          (schedule block)[t - 16]? = some d ∧ (schedule block)[t]? = some ((a ^^^ b ^^^ c ^^^ d).rotateLeft 1)) ∧
  (∀ m : List Byte, 8 * m.length < 2 ^ 64 →
    let f (t : Nat) (b c d : Word32) : Word32 :=
      if t < 20 then (b &&& c) ^^^ (~~~b &&& d)
      else if 40 ≤ t ∧ t < 60 then (b &&& c) ^^^ (b &&& d) ^^^ (c &&& d)
      else b ^^^ c ^^^ d
    let k (t : Nat) : Word32 :=
      if t < 20 then 0x5A827999 else if t < 40 then 0x6ED9EBA1 else if t < 60 then 0x8F1BBCDC else 0xCA62C1D6
    let blocks : Nat := (m.length + 8) / 64 + 1
    ∃ (h : Nat → Hash) (w : Nat → Nat → Word32) (v : Nat → Nat → Vars),
      h 0 = { h0 := 0x67452301, h1 := 0xEFCDAB89, h2 := 0x98BADCFE, h3 := 0x10325476, h4 := 0xC3D2E1F0 } ∧
      (∀ j, j < blocks →
        (∀ t, t < 16 → ((padMessage m).drop (64 * j + 4 * t)).take 4 = beBytes 4 (w j t).toNat) ∧
        (∀ t, 16 ≤ t → t < 80 →
          w j t = (w j (t - 3) ^^^ w j (t - 8) ^^^ w j (t - 14) ^^^ w j (t - 16)).rotateLeft 1) ∧
        v j 0 = { a := (h j).h0, b := (h j).h1, c := (h j).h2, d := (h j).h3, e := (h j).h4 } ∧
        (∀ t, t < 80 → v j (t + 1) = {
          a := (v j t).a.rotateLeft 5 + f t (v j t).b (v j t).c (v j t).d + (v j t).e + k t + w j t
          b := (v j t).a
          c := (v j t).b.rotateLeft 30
          d := (v j t).c
          e := (v j t).d }) ∧
        h (j + 1) = {
          h0 := (h j).h0 + (v j 80).a
          h1 := (h j).h1 + (v j 80).b
          h2 := (h j).h2 + (v j 80).c
          h3 := (h j).h3 + (v j 80).d
          h4 := (h j).h4 + (v j 80).e }) ∧
      (sha1 m).toList = beBytes 4 (h blocks).h0.toNat ++ beBytes 4 (h blocks).h1.toNat ++
        beBytes 4 (h blocks).h2.toNat ++ beBytes 4 (h blocks).h3.toNat ++ beBytes 4 (h blocks).h4.toNat)

/-- Tier 2. 43_accept_key_sha1.md R214 (RFC 4648 by the spec's own account, log 21): every character, by the spec's own
shifts and masks, over the alphabet written out. -/
def Obligations.Base64Characters : Prop :=
  ∀ d : Vector Byte 20,
    let alphabet : List Byte :=
      [0x41, 0x42, 0x43, 0x44, 0x45, 0x46, 0x47, 0x48, 0x49, 0x4A, 0x4B, 0x4C, 0x4D, 0x4E, 0x4F, 0x50] ++
      [0x51, 0x52, 0x53, 0x54, 0x55, 0x56, 0x57, 0x58, 0x59, 0x5A, 0x61, 0x62, 0x63, 0x64, 0x65, 0x66] ++
      [0x67, 0x68, 0x69, 0x6A, 0x6B, 0x6C, 0x6D, 0x6E, 0x6F, 0x70, 0x71, 0x72, 0x73, 0x74, 0x75, 0x76] ++
      [0x77, 0x78, 0x79, 0x7A, 0x30, 0x31, 0x32, 0x33, 0x34, 0x35, 0x36, 0x37, 0x38, 0x39, 0x2B, 0x2F]
    let char (v : Byte) : Option Byte := alphabet[v.toNat]?
    (∀ (g : Nat) (a b c : Byte), g < 6 → d[3 * g]? = some a → d[3 * g + 1]? = some b → d[3 * g + 2]? = some c →
      (base64 d)[4 * g]? = char (a >>> 2) ∧ (base64 d)[4 * g + 1]? = char (((a &&& 3) <<< 4) ||| (b >>> 4)) ∧
        (base64 d)[4 * g + 2]? = char (((b &&& 15) <<< 2) ||| (c >>> 6)) ∧ (base64 d)[4 * g + 3]? = char (c &&& 63)) ∧
    some (base64 d)[24] = char (d[18] >>> 2) ∧ some (base64 d)[25] = char (((d[18] &&& 3) <<< 4) ||| (d[19] >>> 4)) ∧
      some (base64 d)[26] = char ((d[19] &&& 15) <<< 2) ∧ (base64 d)[27] = 0x3D

/-- Tier 2. 43_accept_key_sha1.md R215, which the spec marks derived: the last of the 28 characters is '=' and only the
last, and two digests with one accept key are one digest. -/
def Obligations.AcceptKeyShape : Prop :=
  (∀ d : Vector Byte 20, (base64 d)[27] = 0x3D ∧ ∀ i : Fin 28, i.val < 27 → (base64 d)[i] ≠ 0x3D) ∧
    ∀ d e : Vector Byte 20, base64 d = base64 e → d = e

/-! ### Errors, ABORT, RESET -/

/-- Tier 2. 60_exceptions.md R246, R240: whenever a step enters ERROR, ERR is 1, DONE is 0, ERR_STATE holds the STATE the
step began in, and the code is one that R240 lists for that STATE. -/
def Obligations.ErrorEntry : Prop :=
  ∀ (s u t : State), codecMoves s u → u.seq ≠ .error → step s = .next t → t.seq = .error →
    t.status.err = true ∧ t.status.done = false ∧ t.status.errState = u.seq ∧
      (u.seq, t.status.errCode) ∈
        [(.dB0, ErrCode.reservedBitsSet), (.dB0, .invalidOpcode), (.dExt, .lengthOverflow), (.dB1, .truncatedStream),
          (.dExt, .truncatedStream), (.dKey, .truncatedStream), (.dPay, .truncatedStream),
          (.dChk, .invalidControlFrame), (.dB0, .connectionClosed), (.dB1, .payloadTooLarge),
          (.dExt, .payloadTooLarge), (.idle, .invalidInput), (.idle, .invalidFrame), (.idle, .operandRange),
          (.idle, .illegalCommand)]

/-- Tier 2. 60_exceptions.md R247: a step that enters ERROR leaves no result of the failed command: it emits no byte and
changes no buffer, a failing DECODE leaves RX_FRAME_VALID at 0, a failing ACCEPT_KEY leaves ACCEPT_VALID at 0, and a
failing ENCODE leaves TX_BYTES at 0. -/
def Obligations.ErrorsLeaveNoResult : Prop :=
  ∀ (s u t : State), codecMoves s u → Inv u → u.seq ≠ .error → step s = .next t → t.seq = .error →
    t.env.tx = u.env.tx ∧ t.buf = u.buf ∧
      (u.seq ≠ .idle → t.rx.frameValid = false) ∧
      (u.seq = .idle → u.env.offer = some 4 → t.acc.valid = false) ∧
      (u.seq = .idle → u.env.offer = some 2 → t.enc.txBytes = .of 0)

/-- Tier 2. 60_exceptions.md R249, R248: the only ways out of ERROR are ABORT and reset. Until one of them, no step of
any agent changes STATE or the recorded error, takes a byte, emits one or accepts a command. -/
def Obligations.ErrorLeftOnlyByAbortOrReset : Prop :=
  ∀ (s t : State), s.seq = .error → step s = .next t →
    (∃ rest, s.env.agenda = .abort :: rest ∧ t.seq = .idle) ∨ (∃ rest, s.env.agenda = .reset :: rest ∧ t.seq = .idle) ∨
      (t.seq = .error ∧ t.status = s.status ∧ t.env.tx = s.env.tx ∧ (∃ added, t.env.rx = s.env.rx ++ added) ∧
        (∀ c, s.env.offer = some c → t.env.offer = some c) ∧ t.latch = s.latch ∧ t.rx = s.rx ∧ t.acc = s.acc)

/-- Tier 1. 60_exceptions.md R250: ABORT, one step in any STATE, and all that it changes. That an offer still pending
survives it is the model's choice (log 14). -/
def Obligations.AbortStep : Prop :=
  ∀ (s : State) (rest : List Turn), s.env.agenda = .abort :: rest → step s = .next { s with
    seq := .idle
    status := { s.status with done := false, err := false, errCode := .none, errState := .idle }
    rx := { s.rx with frameValid := false }
    acc := { s.acc with valid := false }
    env := { s.env with agenda := rest } }

/-- Tier 1. 70_reset_and_hazards.md R270, R272, 10_state.md R36: RESET, one step in any STATE, leaves the block at its
reset values and both streams as they were. The 0 in the registers that R36 gives no value is the model's choice (log
3). -/
def Obligations.ResetStep : Prop :=
  ∀ (s : State) (rest : List Turn), s.env.agenda = .reset :: rest →
    ∃ t, step s = .next t ∧ AtReset t ∧ t.env.rx = s.env.rx ∧ t.env.rxClosed = s.env.rxClosed ∧ t.env.tx = s.env.tx ∧
      t.env.txReady = s.env.txReady

/-- Tier 1. 10_state.md R36: the machine right after reset. The 0 in the registers that R36 gives no value (log 3), and that
its parameters satisfy R7 (log 6), are the model's choices. -/
def Obligations.ResetStateIsAtReset : Prop := AtReset State.reset ∧ State.reset.cfg.wf = true

/-- Tier 2. 10_state.md R25, which marks the consequence derived, and 70_reset_and_hazards.md R286: the latches change
only at acceptance, where they take the operands, and at reset; so a HOST write to an operand register never reaches the
command that is running. -/
def Obligations.LatchesChangeOnlyAtAcceptance : Prop :=
  ∀ (s t : State), step s = .next t →
    t.latch = s.latch ∨ (s.seq = .idle ∧ t.latch = s.op ∧ s.env.offer.isSome = true ∧ t.env.offer = none) ∨
      (∃ rest, s.env.agenda = .reset :: rest)

/-! ### Streams -/

/-- Tier 2. 20_memory.md R75: bytes leave the RX stream only from its front, one a step, where the CODEC moves in D_B0 to
D_PAY; bytes join it only behind, in the RX source's turn, and never after `closed`, which stays; every other step, an
ABORT, a reset or a turn of HOST's among them, leaves it alone. The CODEC does not peek: the bytes behind the one it
takes, and in every other STATE all of them, have no part in what its step does. An append that the agenda holds after
`closed` does nothing (log 20). -/
def Obligations.RxStreamInOrder : Prop :=
  (∀ (s t : State), step s = .next t →
    (t.env.rx = s.env.rx ∨
      (∃ u b, codecMoves s u ∧ s.seq ∈ [.dB0, .dB1, .dExt, .dKey, .dPay] ∧ s.env.rx = b :: t.env.rx) ∨
      (∃ bytes rest, s.env.agenda = .rxAppend bytes :: rest ∧ s.env.rxClosed = false ∧
        t.env.rx = s.env.rx ++ bytes)) ∧
    (t.env.rxClosed = s.env.rxClosed ∨ (t.env.rxClosed = true ∧ ∃ rest, s.env.agenda = .rxClose :: rest))) ∧
  (∀ (s u t : State) (others : List Byte), codecMoves s u → step s = .next t →
    (∀ b bs, u.seq ∈ [.dB0, .dB1, .dExt, .dKey, .dPay] → u.env.rx = b :: bs →
      t.env.rx = bs ∧
        step { s with env := { s.env with rx := b :: others } } = .next { t with env := { t.env with rx := others } }) ∧
    (u.seq ∉ [.dB0, .dB1, .dExt, .dKey, .dPay] →
      step { s with env := { s.env with rx := others } } = .next { t with env := { t.env with rx := others } }))

/-- Tier 2. 20_memory.md R78: a step hands at most one byte to the sink, behind the bytes already there, and only in E_HDR
or E_PAY and while the sink is ready. -/
def Obligations.TxStreamInOrder : Prop :=
  ∀ (s t : State), step s = .next t →
    t.env.tx = s.env.tx ∨
      ∃ b, t.env.tx = s.env.tx ++ [b] ∧ s.env.txReady = true ∧ (s.seq = .eHdr ∨ s.seq = .ePay)

/-! ### HOST -/

/-- Tier 1. 70_reset_and_hazards.md R276, 10_state.md R34: HOST's accesses that the running command makes a hazard fault as
BufferHazard, COPY's included; status registers may be read and operands written at any time. STATE and ERR_STATE read
as the codes of R21, ERR_CODE as those of 60_exceptions.md R240. That RX_FRAME_VALID and ACCEPT_VALID are among the
hazards, and that a hazard comes before any other fault of the access, is log 19. -/
def Obligations.HazardsFault : Prop :=
  ∀ (s : State) (rest : List Turn),
    (s.seq ∈ [.dB0, .dB1, .dExt, .dKey, .dPay, .dChk] → ∀ r : HostRead,
      (r ∈ [.rxFin, .rxRsv, .rxOpcode, .rxMasked, .rxLen7, .rxLen, .rxFrameValid, .frameBytes] ∨
        (∃ i, r = .rxKey i) ∨ ∃ a, r = .rxPbuf a) →
      s.env.agenda = .read r :: rest → step s = .fault .bufferHazard) ∧
    (s.seq ∈ [.eHdr, .ePay, .mRun] → ∀ a v, s.env.agenda = .write (.txPbuf a v) :: rest →
      step s = .fault .bufferHazard) ∧
    (s.seq = .mRun → ∀ a, s.env.agenda = .read (.txPbuf a) :: rest → step s = .fault .bufferHazard) ∧
    (s.seq ∈ [.eHdr, .ePay] → s.env.agenda = .read .txBytes :: rest → step s = .fault .bufferHazard) ∧
    (s.seq = .aRun →
      (∀ a v, s.env.agenda = .write (.nonceBuf a v) :: rest → step s = .fault .bufferHazard) ∧
      (∀ i, s.env.agenda = .read (.digest i) :: rest → step s = .fault .bufferHazard) ∧
      (∀ i, s.env.agenda = .read (.acceptOut i) :: rest → step s = .fault .bufferHazard) ∧
      (s.env.agenda = .read .acceptValid :: rest → step s = .fault .bufferHazard)) ∧
    (∀ a b, s.env.agenda = .copyByte a b :: rest →
      (s.seq ∈ [.dB0, .dB1, .dExt, .dKey, .dPay, .dChk] → step s = .fault .bufferHazard) ∧
      (s.seq ∈ [.eHdr, .ePay, .mRun] → s.rx.frameValid = true → a < s.cfg.pbufBytes →
        (s.buf.rxPbuf.find a).isSome = true → step s = .fault .bufferHazard)) ∧
    (∀ r n, (r, n) ∈ [(HostRead.busy, if s.seq ∈ [.idle, .error] then 0 else 1), (.done, s.status.done.toNat),
        (.err, s.status.err.toNat), (.lastCmd, s.status.lastCmd.toNat)] →
      s.env.agenda = .read r :: rest →
      step s = .next { s with env := { s.env with hostSaw := some n, agenda := rest } }) ∧
    (∀ q n, (q, n) ∈ [(Seq.idle, 0), (.dB0, 1), (.dB1, 2), (.dExt, 3), (.dKey, 4), (.dPay, 5), (.dChk, 6), (.eHdr, 7),
        (.ePay, 8), (.mRun, 9), (.aRun, 10), (.error, 15)] →
      (s.seq = q → s.env.agenda = .read .state :: rest →
        step s = .next { s with env := { s.env with hostSaw := some n, agenda := rest } }) ∧
      (s.status.errState = q → s.env.agenda = .read .errState :: rest →
        step s = .next { s with env := { s.env with hostSaw := some n, agenda := rest } })) ∧
    (∀ e n, (e, n) ∈ [(ErrCode.none, 0), (.reservedBitsSet, 1), (.invalidOpcode, 2), (.lengthOverflow, 3),
        (.truncatedStream, 4), (.invalidControlFrame, 5), (.connectionClosed, 6), (.payloadTooLarge, 7),
        (.invalidInput, 8), (.invalidFrame, 9), (.operandRange, 10), (.illegalCommand, 11)] →
      s.status.errCode = e → s.env.agenda = .read .errCode :: rest →
      step s = .next { s with env := { s.env with hostSaw := some n, agenda := rest } }) ∧
    (∀ w op, (w, op) ∈ [(HostWrite.opFin true, { s.op with fin := .of true }),
        (.opFin false, { s.op with fin := .of false }), (.opMasked true, { s.op with masked := .of true }),
        (.opMasked false, { s.op with masked := .of false })] ∨
        (∃ v, w = .opOpcode v ∧ op = { s.op with opcode := .of v }) ∨ (∃ v, w = .opLen v ∧ op = { s.op with len := .of v }) ∨
        (∃ v, w = .opNonceLen v ∧ op = { s.op with nonceLen := .of v }) ∨
        (∃ (i : Fin 4) (v : Byte), w = .opKey i v ∧ op = { s.op with key := s.op.key.set i (.of v) }) →
      s.env.agenda = .write w :: rest →
      step s = .next { s with op := op, env := { s.env with agenda := rest } })

/-- Tier 2. 10_state.md R34: a HOST read changes nothing but what HOST saw (log 17;
which value, says HostReadsReturnValues); a HOST write changes the operands, or
one byte of TX_PBUF or NONCE_BUF and no other byte of memory. -/
def Obligations.HostTouchesOnlyItsOwn : Prop :=
  ∀ (s t : State) (rest : List Turn), step s = .next t →
    (∀ r, s.env.agenda = .read r :: rest → t = { s with env := { s.env with hostSaw := t.env.hostSaw, agenda := rest } }) ∧
    (∀ w, s.env.agenda = .write w :: rest →
      t = { s with op := t.op, buf := t.buf, env := { s.env with agenda := rest } } ∧
        t.buf.rxPbuf = s.buf.rxPbuf ∧
        (∀ x, t.buf.txPbuf.find x = s.buf.txPbuf.find x ∨ (t.op = s.op ∧ ∃ v, w = .txPbuf x v ∧ t.buf.txPbuf.find x = some v)) ∧
        (∀ x, t.buf.nonceBuf.find x = s.buf.nonceBuf.find x ∨
          (t.op = s.op ∧ ∃ v, w = .nonceBuf x v ∧ t.buf.nonceBuf.find x = some v)))

/-- Tier 1. 20_memory.md R70, R71, R74: wherever the access is no hazard, ERROR and the other commands' STATE values
included, a HOST write to TX_PBUF or NONCE_BUF inside the buffer completes, changes that byte only, and is what HOST
reads back; at or above the size, the access is refused, reads of RX_PBUF and GUID_ROM and either half of a COPY
included. GUID_ROM's bytes are written out. That a COPY reads before it writes is log 24. -/
def Obligations.HostBufferAccess : Prop :=
  ∀ (s : State) (rest : List Turn) (a : Nat) (v : Byte),
    (s.seq ∉ [.eHdr, .ePay, .mRun] →
      (a < s.cfg.pbufBytes → s.env.agenda = .write (.txPbuf a v) :: rest → ∃ m : Memory,
        step s = .next { s with buf := { s.buf with txPbuf := m }, env := { s.env with agenda := rest } } ∧
          ∀ x, m.find x = if x = a then some v else s.buf.txPbuf.find x) ∧
      (a < s.cfg.pbufBytes → s.env.agenda = .write (.txPbuf a v) :: .read (.txPbuf a) :: rest →
        ∃ t, runSteps 2 s = .next t ∧ t.env.hostSaw = some v.toNat) ∧
      (s.cfg.pbufBytes ≤ a → s.env.agenda = .write (.txPbuf a v) :: rest → step s = .fault .bufferIndex)) ∧
    (s.seq ≠ .aRun →
      (a < s.cfg.nonceMax → s.env.agenda = .write (.nonceBuf a v) :: rest → ∃ m : Memory,
        step s = .next { s with buf := { s.buf with nonceBuf := m }, env := { s.env with agenda := rest } } ∧
          ∀ x, m.find x = if x = a then some v else s.buf.nonceBuf.find x) ∧
      (a < s.cfg.nonceMax → s.env.agenda = .write (.nonceBuf a v) :: .read (.nonceBuf a) :: rest →
        ∃ t, runSteps 2 s = .next t ∧ t.env.hostSaw = some v.toNat) ∧
      (s.cfg.nonceMax ≤ a → s.env.agenda = .write (.nonceBuf a v) :: rest → step s = .fault .bufferIndex)) ∧
    (s.cfg.pbufBytes ≤ a →
      (s.seq ≠ .mRun → s.env.agenda = .read (.txPbuf a) :: rest → step s = .fault .bufferIndex) ∧
      (s.seq ∉ [.dB0, .dB1, .dExt, .dKey, .dPay, .dChk] →
        (s.env.agenda = .read (.rxPbuf a) :: rest → step s = .fault .bufferIndex) ∧
        ∀ b, s.env.agenda = .copyByte a b :: rest → step s = .fault .bufferIndex)) ∧
    (s.seq ∈ [.idle, .aRun, .error] → s.rx.frameValid = true → a < s.cfg.pbufBytes →
      (s.buf.rxPbuf.find a).isSome = true → ∀ b, s.cfg.pbufBytes ≤ b → s.env.agenda = .copyByte a b :: rest →
      step s = .fault .bufferIndex) ∧
    (s.cfg.nonceMax ≤ a → s.env.agenda = .read (.nonceBuf a) :: rest → step s = .fault .bufferIndex) ∧
    (s.env.agenda = .read (.guidRom a) :: rest →
      (36 ≤ a → step s = .fault .bufferIndex) ∧
      ∀ g, [0x32, 0x35, 0x38, 0x45, 0x41, 0x46, 0x41, 0x35, 0x2D, 0x45, 0x39, 0x31, 0x34, 0x2D, 0x34, 0x37, 0x44, 0x41,
          0x2D, 0x39, 0x35, 0x43, 0x41, 0x2D, 0x43, 0x35, 0x41, 0x42, 0x30, 0x44, 0x43, 0x38, 0x35, 0x42, 0x31, 0x31][a]? =
          some g →
        step s = .next { s with env := { s.env with hostSaw := some g, agenda := rest } })

/-- Tier 1. 10_state.md R35, R30, 20_memory.md R73: wherever the access is no hazard, HOST's read of a register or byte that
has no value faults as UnwrittenRead, RX_PBUF while RX_FRAME_VALID = 0 (a failed DECODE in ERROR among them), COPY of
such a byte, and the accept-key results while ACCEPT_VALID = 0 included. That a COPY reads before it writes is log
24. -/
def Obligations.UnwrittenReadsFault : Prop :=
  ∀ (s : State) (rest : List Turn),
    (∀ r known, (r, known) ∈ [(HostRead.opFin, s.op.fin.known), (.opOpcode, s.op.opcode.known),
        (.opMasked, s.op.masked.known), (.opLen, s.op.len.known), (.opNonceLen, s.op.nonceLen.known),
        (.opKey 0, s.op.key[0].known), (.opKey 1, s.op.key[1].known), (.opKey 2, s.op.key[2].known),
        (.opKey 3, s.op.key[3].known)] →
      known = false → s.env.agenda = .read r :: rest → step s = .fault .unwrittenRead) ∧
    (s.seq ∉ [.dB0, .dB1, .dExt, .dKey, .dPay, .dChk] →
      (∀ r known, (r, known) ∈ [(HostRead.rxFin, s.rx.fin.known), (.rxRsv, s.rx.rsv.known),
          (.rxOpcode, s.rx.opcode.known), (.rxMasked, s.rx.masked.known), (.rxLen7, s.rx.len7.known),
          (.rxLen, s.rx.len.known), (.rxKey 0, s.rx.key[0].known), (.rxKey 1, s.rx.key[1].known),
          (.rxKey 2, s.rx.key[2].known), (.rxKey 3, s.rx.key[3].known), (.frameBytes, s.rx.frameBytes.known)] →
        known = false → s.env.agenda = .read r :: rest → step s = .fault .unwrittenRead) ∧
      (∀ a, a < s.cfg.pbufBytes → (s.rx.frameValid = false ∨ s.buf.rxPbuf.find a = none) →
        (s.env.agenda = .read (.rxPbuf a) :: rest → step s = .fault .unwrittenRead) ∧
        ∀ b, s.env.agenda = .copyByte a b :: rest → step s = .fault .unwrittenRead)) ∧
    (s.seq ∉ [.eHdr, .ePay] → s.enc.txBytes.known = false → s.env.agenda = .read .txBytes :: rest →
      step s = .fault .unwrittenRead) ∧
    (s.seq ≠ .aRun → s.acc.valid = false →
      (∀ i, s.env.agenda = .read (.digest i) :: rest → step s = .fault .unwrittenRead) ∧
      (∀ i, s.env.agenda = .read (.acceptOut i) :: rest → step s = .fault .unwrittenRead)) ∧
    (s.seq ≠ .mRun → ∀ a, a < s.cfg.pbufBytes → s.buf.txPbuf.find a = none → s.env.agenda = .read (.txPbuf a) :: rest →
      step s = .fault .unwrittenRead) ∧
    (∀ a, a < s.cfg.nonceMax → s.buf.nonceBuf.find a = none → s.env.agenda = .read (.nonceBuf a) :: rest →
      step s = .fault .unwrittenRead)

/-- Tier 1. 10_state.md R34, R35: wherever the access is no hazard, HOST's read of a register or byte that has a value
returns that value, and changes nothing else. HOST's view is recorded in `hostSaw` (log 17). -/
def Obligations.HostReadsReturnValues : Prop :=
  ∀ (s : State) (rest : List Turn),
    let saw (n : Nat) : State := { s with env := { s.env with hostSaw := some n, agenda := rest } }
    (∀ r known n, (r, known, n) ∈ [(HostRead.opFin, s.op.fin.known, s.op.fin.val.toNat),
        (.opOpcode, s.op.opcode.known, s.op.opcode.val.toNat), (.opMasked, s.op.masked.known, s.op.masked.val.toNat),
        (.opLen, s.op.len.known, s.op.len.val.toNat), (.opNonceLen, s.op.nonceLen.known, s.op.nonceLen.val.toNat)] →
      known = true → s.env.agenda = .read r :: rest → step s = .next (saw n)) ∧
    (∀ (i : Fin 4) v, s.op.key[i] = .of v → s.env.agenda = .read (.opKey i) :: rest → step s = .next (saw v.toNat)) ∧
    (s.seq ∉ [.dB0, .dB1, .dExt, .dKey, .dPay, .dChk] →
      (∀ r known n, (r, known, n) ∈ [(HostRead.rxFin, s.rx.fin.known, s.rx.fin.val.toNat),
          (.rxRsv, s.rx.rsv.known, s.rx.rsv.val.toNat), (.rxOpcode, s.rx.opcode.known, s.rx.opcode.val.toNat),
          (.rxMasked, s.rx.masked.known, s.rx.masked.val.toNat), (.rxLen7, s.rx.len7.known, s.rx.len7.val.toNat),
          (.rxLen, s.rx.len.known, s.rx.len.val.toNat), (.rxFrameValid, true, s.rx.frameValid.toNat),
          (.frameBytes, s.rx.frameBytes.known, s.rx.frameBytes.val.toNat)] →
        known = true → s.env.agenda = .read r :: rest → step s = .next (saw n)) ∧
      (∀ (i : Fin 4) v, s.rx.key[i] = .of v → s.env.agenda = .read (.rxKey i) :: rest → step s = .next (saw v.toNat)) ∧
      (∀ a v, a < s.cfg.pbufBytes → s.rx.frameValid = true → s.buf.rxPbuf.find a = some v →
        s.env.agenda = .read (.rxPbuf a) :: rest → step s = .next (saw v.toNat))) ∧
    (s.seq ∉ [.eHdr, .ePay] → ∀ v, s.enc.txBytes = .of v → s.env.agenda = .read .txBytes :: rest →
      step s = .next (saw v.toNat)) ∧
    (s.seq ≠ .aRun →
      (s.env.agenda = .read .acceptValid :: rest → step s = .next (saw s.acc.valid.toNat)) ∧
      (s.acc.valid = true →
        (∀ i, s.env.agenda = .read (.digest i) :: rest → step s = .next (saw s.acc.digest[i].toNat)) ∧
        (∀ i, s.env.agenda = .read (.acceptOut i) :: rest → step s = .next (saw s.acc.acceptOut[i].toNat)))) ∧
    (s.seq ≠ .mRun → ∀ a v, a < s.cfg.pbufBytes → s.buf.txPbuf.find a = some v →
      s.env.agenda = .read (.txPbuf a) :: rest → step s = .next (saw v.toNat)) ∧
    (∀ a v, a < s.cfg.nonceMax → s.buf.nonceBuf.find a = some v → s.env.agenda = .read (.nonceBuf a) :: rest →
      step s = .next (saw v.toNat))

/-- Tier 2. 30_encoding.md R106: COPY after a DECODE, in every STATE in which it is no hazard, moves the decoded payload into
TX_PBUF, byte for byte, and changes no other byte of memory. -/
def Obligations.CopyMovesDecodedPayload : Prop :=
  ∀ (s : State) (rest : List Turn) (n : Nat), Inv s → s.seq ∈ [.idle, .aRun, .error] → s.rx.frameValid = true →
    n ≤ s.rx.len.val.toNat → s.env.agenda = copyLine n ++ rest →
    ∃ m : Memory,
      runSteps n s = .next { s with buf := { s.buf with txPbuf := m }, env := { s.env with agenda := rest } } ∧
        ∀ a, m.find a = if a < n then s.buf.rxPbuf.find a else s.buf.txPbuf.find a

/-! ### Whole commands -/

/-- Tier 2. 41_encode.md R170, R104, R176, R179: an ENCODE on operands that pass its checks emits exactly the bytes of the
unmasked frame with the shortest length form, and completes with TX_BYTES their number, however the sink's readiness
changes meanwhile (20_memory.md R78) so long as it ends up ready. HOST and the RX source make no turn (log 1). -/
def Obligations.EncodeEmitsTheFrame : Prop :=
  ∀ (s : State) (fin : Bool) (op : BitVec 4) (p : List Byte),
    s.seq = .idle → (∀ turn ∈ s.env.agenda, turn.drains = true) → readyAfter s.env.txReady s.env.agenda = true →
    s.env.offer = some 2 → s.cfg.wf = true →
    s.op.fin = .of fin → s.op.opcode = .of op → s.op.len = .of (BitVec.ofNat 64 p.length) →
    p.length ≤ s.cfg.pbufBytes → (∀ i x, p[i]? = some x → s.buf.txPbuf.find i = some x) →
    (encodedFrame fin op p).legal →
    ∃ t, runSteps (s.env.agenda.length + 1 + (encodedFrame fin op p).bytes.length) s = .next t ∧
      t.env = { s.env with
        offer := none, tx := s.env.tx ++ (encodedFrame fin op p).bytes, txReady := true, agenda := [] } ∧
      t.enc.txBytes = .of (BitVec.ofNat 64 (encodedFrame fin op p).bytes.length) ∧
      t.seq = .idle ∧ t.status = { s.status with lastCmd := 2, done := true } ∧ t.latch = s.op ∧ t.op = s.op ∧
      t.rx = s.rx ∧ t.dec = s.dec ∧ t.acc = s.acc ∧ t.sha = s.sha ∧ t.buf = s.buf ∧ t.cfg = s.cfg

/-- Tier 2. 40_decode.md R120, R145, R146, 20_memory.md R77: a DECODE at the front of a legal frame that fits RX_PBUF
delivers that frame's fields and unmasked payload, in any of the six header formats, takes its bytes and no more, and
leaves everything else as it was but the decoder's working registers, however the stream's bytes are split into
deliveries before and between the CODEC's turns. HOST and the TX sink make no turn (log 1). -/
def Obligations.DecodeDeliversTheFrame : Prop :=
  ∀ (s : State) (f : WireFrame) (after : List Byte), f.legal → f.payload.length ≤ s.cfg.pbufBytes →
    s.seq = .idle → (∀ turn ∈ s.env.agenda, turn.delivers = true) → s.env.offer = some 1 → feed s = f.bytes ++ after →
    ∃ t, runSteps (s.env.agenda.length + 2 + f.bytes.length) s = .next t ∧
      t.rx.fin = .of f.fin ∧ t.rx.rsv = .of 0 ∧ t.rx.opcode = .of f.op ∧ t.rx.masked = .of f.key.isSome ∧
      t.rx.len7 = .of f.len7 ∧ t.rx.len = .of (BitVec.ofNat 64 f.payload.length) ∧
      (∀ k, f.key = some k → ∀ i : Fin 4, t.rx.key[i] = .of k[i]) ∧
      (f.key = none → ∀ i : Fin 4, t.rx.key[i].known = false) ∧
      t.rx.frameValid = true ∧ t.rx.frameBytes = .of (BitVec.ofNat 64 f.bytes.length) ∧
      (∀ a, t.buf.rxPbuf.find a = if a < f.payload.length then f.payload[a]? else s.buf.rxPbuf.find a) ∧
      t.buf.txPbuf = s.buf.txPbuf ∧ t.buf.nonceBuf = s.buf.nonceBuf ∧
      t.env = { s.env with rx := after, rxClosed := closesBy s, offer := none, agenda := [] } ∧
      t.seq = .idle ∧ t.status = { s.status with lastCmd := 1, done := true } ∧ t.latch = s.op ∧ t.op = s.op ∧
      t.enc = s.enc ∧ t.acc = s.acc ∧ t.sha = s.sha ∧ t.cfg = s.cfg

/-- Tier 2. 40_decode.md R143, which the spec marks derived, and R122: a frame cut short by the end of the stream is never
delivered, however its bytes arrive. Cut at the frame boundary it is ConnectionClosed, cut anywhere later
TruncatedStream, with every byte taken and counted, and even where the frame's own control constraints would fail
(R144). HOST and the TX sink make no turn (log 1). -/
def Obligations.CutFrameIsNeverDelivered : Prop :=
  ∀ (s : State) (f : WireFrame) (n : Nat), isReservedOp f.op = false → f.fits → f.payload.length ≤ s.cfg.pbufBytes →
    n < f.bytes.length → s.seq = .idle → (∀ turn ∈ s.env.agenda, turn.delivers = true) → s.env.offer = some 1 →
    feed s = f.bytes.take n → closesBy s = true →
    ∃ t, runSteps (s.env.agenda.length + 2 + n) s = .next t ∧ t.seq = .error ∧ t.status.err = true ∧
      t.status.done = false ∧
      t.status.errCode = (if n = 0 then .connectionClosed else .truncatedStream) ∧
      t.rx.frameValid = false ∧ t.rx.frameBytes = .of (BitVec.ofNat 64 n) ∧ t.env.rx = []

/-- Tier 2. 40_decode.md R144, 60_exceptions.md R243: a control frame that is fragmented or longer than 125 bytes is
rejected only after its whole payload has been taken, however its bytes arrive. HOST and the TX sink make no turn
(log 1). -/
def Obligations.BadControlFrameTakenWhole : Prop :=
  ∀ (s : State) (f : WireFrame) (after : List Byte), f.op ∈ [0x8, 0x9, 0xA] → (f.fin = false ∨ 125 < f.payload.length) →
    f.fits → f.payload.length ≤ s.cfg.pbufBytes →
    s.seq = .idle → (∀ turn ∈ s.env.agenda, turn.delivers = true) → s.env.offer = some 1 → feed s = f.bytes ++ after →
    ∃ t, runSteps (s.env.agenda.length + 2 + f.bytes.length) s = .next t ∧ t.seq = .error ∧
      t.status.errCode = .invalidControlFrame ∧
      t.status.errState = .dChk ∧ t.rx.frameValid = false ∧
      t.rx.frameBytes = .of (BitVec.ofNat 64 f.bytes.length) ∧ t.env.rx = after

/-- Tier 2. 41_encode.md R180, which the spec marks derived: the bytes that ENCODE emits, fed to DECODE in pieces of any
size, give back the operands and the payload, and DECODE takes TX_BYTES bytes. Only the sink makes turns during ENCODE
and only the RX source during DECODE (log 1). -/
def Obligations.RoundTrip : Prop :=
  ∀ (s : State) (fin : Bool) (op : BitVec 4) (p : List Byte),
    s.seq = .idle → (∀ turn ∈ s.env.agenda, turn.drains = true) → readyAfter s.env.txReady s.env.agenda = true →
    s.env.offer = some 2 → s.cfg.wf = true →
    s.op.fin = .of fin → s.op.opcode = .of op → s.op.len = .of (BitVec.ofNat 64 p.length) →
    p.length ≤ s.cfg.pbufBytes → (∀ i x, p[i]? = some x → s.buf.txPbuf.find i = some x) →
    isReservedOp op = false → (isControlOp op = true → fin = true ∧ p.length ≤ 125) →
    ∃ (k : Nat) (t : State), runSteps k s = .next t ∧ t.seq = .idle ∧ t.status.done = true ∧
      ∀ (first : List Byte) (closed : Bool) (arrivals : List Turn), (∀ turn ∈ arrivals, turn.delivers = true) →
        let u : State := { t with
          env := { t.env with rx := first, rxClosed := closed, offer := some 1, agenda := arrivals } }
        feed u = t.env.tx.drop s.env.tx.length →
        ∃ (n : Nat) (v : State), runSteps n u = .next v ∧
          v.seq = .idle ∧ v.status.done = true ∧ v.rx.frameValid = true ∧
          v.rx.fin = .of fin ∧ v.rx.rsv = .of 0 ∧ v.rx.opcode = .of op ∧ v.rx.masked = .of false ∧ v.rx.len = s.op.len ∧
          (∀ a, a < p.length → v.buf.rxPbuf.find a = s.buf.txPbuf.find a) ∧ v.rx.frameBytes = t.enc.txBytes ∧
          v.env.rx = []

/-! ### Invariants -/

/-- Tier 3. 10_state.md R21 to R30, 40_decode.md R141, R143, R145, 41_encode.md R179, 60_exceptions.md R246 to R251:
every step of every agent keeps the invariant; and no step takes the value of an operand register, a latch or a counter
away (that reset gives them one is log 3). -/
def Obligations.StepKeepsInv : Prop :=
  ∀ (s t : State), step s = .next t → (Inv s → Inv t) ∧ (registersHoldValues s → registersHoldValues t)

/-- Tier 1. The invariant holds right after reset, and so does that the operand registers, latches and counters hold values
(log 3). -/
def Obligations.ResetMeetsInv : Prop :=
  Inv State.reset ∧ registersHoldValues State.reset

/-- Tier 2. 40_decode.md R141, 20_memory.md R71, 10_state.md R35: in a state that meets the invariant the CODEC stops
only as UnwrittenRead, and only where it reads what HOST should have written: at acceptance, in E_PAY, M_RUN and A_RUN.
So DECODE never stops, and no index leaves its buffer. Where the registers hold values, as they do from reset on (log
3), no acceptance stops either, and the one thing that stops a command is a buffer byte it needs and HOST never wrote. -/
def Obligations.CodecStopsOnlyOnHostsValues : Prop :=
  ∀ (s u : State), codecMoves s u → Inv u →
    ((∃ t, step s = .next t) ∨ (step s = .fault .unwrittenRead ∧ u.seq ∈ [.idle, .ePay, .mRun, .aRun] ∧
      (u.seq = .idle → u.env.offer ∈ [some 2, some 3, some 4]))) ∧
    (registersHoldValues u →
      (∃ t, step s = .next t) ∨ (step s = .fault .unwrittenRead ∧
        ((u.seq = .ePay ∧ u.buf.txPbuf.find u.enc.payCnt.toNat = none) ∨
          (u.seq = .mRun ∧ ∃ a, a < u.latch.len.val.toNat ∧ u.buf.txPbuf.find a = none) ∨
          (u.seq = .aRun ∧ ∃ a, a < u.latch.nonceLen.val.toNat ∧ u.buf.nonceBuf.find a = none))))
end

