-- ==== Sys2Proof/Laws/Memory.lean ====
section
/-! SUPPORT. Buffers: a read after a write, the canonical form and the bounds, which every operation keeps. -/

namespace Sys2Proof.Machine

/-! ### Read after write -/

@[simp] theorem Memory.find_nil (a : Nat) : Memory.find [] a = none := rfl

theorem Memory.find_cons (b : Nat) (w : Byte) (m : Memory) (a : Nat) :
    Memory.find ((b, w) :: m) a = if a = b then some w else Memory.find m a := rfl

theorem Memory.find_put (m : Memory) (a : Nat) (v : Byte) (x : Nat) :
    (m.put a v).find x = if x = a then some v else m.find x := by
  induction m with
  | nil => rfl
  | cons c m ih =>
    obtain ⟨b, w⟩ := c
    simp only [Memory.put]
    split_ifs with h₁ h₂ <;> simp only [Memory.find_cons, ih] <;> split_ifs <;> first | rfl | omega

@[simp] theorem Memory.find_put_same (m : Memory) (a : Nat) (v : Byte) : (m.put a v).find a = some v := by
  simp [Memory.find_put]

theorem Memory.find_put_other (m : Memory) {a x : Nat} (v : Byte) (h : x ≠ a) : (m.put a v).find x = m.find x := by
  simp [Memory.find_put, h]

/-! ### The canonical form -/

theorem Memory.above_iff (a : Nat) (m : Memory) : Memory.above a m = true ↔ ∀ c ∈ m, a < c.1 := by
  simp [Memory.above]

theorem Memory.mem_put {m : Memory} {a : Nat} {v : Byte} {c : Host.Cell} (h : c ∈ m.put a v) :
    c = (a, v) ∨ c ∈ m := by
  induction m with
  | nil => simpa [Memory.put] using h
  | cons d m ih =>
    obtain ⟨b, w⟩ := d
    simp only [Memory.put] at h
    split_ifs at h <;> simp only [List.mem_cons] at h ⊢ <;> tauto

theorem Memory.above_put {m : Memory} {a b : Nat} {v : Byte} (hb : b < a) (hm : Memory.above b m = true) :
    Memory.above b (m.put a v) = true := by
  rw [Memory.above_iff] at hm ⊢
  intro c hc
  rcases Memory.mem_put hc with rfl | h
  · exact hb
  · exact hm c h

theorem Memory.wf_cons {a : Nat} {v : Byte} {m : Memory} :
    Memory.wf ((a, v) :: m) = true ↔ Memory.above a m = true ∧ Memory.wf m = true := by
  simp [Memory.wf]

theorem Memory.above_trans {a b : Nat} {m : Memory} (h : a < b) (hm : Memory.above b m = true) :
    Memory.above a m = true := by
  rw [Memory.above_iff] at hm ⊢
  exact fun c hc => h.trans (hm c hc)

/-- A write keeps the canonical form. -/
theorem Memory.wf_put {m : Memory} (a : Nat) (v : Byte) (h : m.wf = true) : (m.put a v).wf = true := by
  induction m with
  | nil => rfl
  | cons c m ih =>
    obtain ⟨b, w⟩ := c
    obtain ⟨hb, hm⟩ := Memory.wf_cons.1 h
    simp only [Memory.put]
    split_ifs with h₁ h₂
    · refine Memory.wf_cons.2 ⟨?_, h⟩
      rw [Memory.above_iff]
      intro c hc
      rcases List.mem_cons.1 hc with rfl | hc
      · exact h₁
      · exact h₁.trans ((Memory.above_iff b m).1 hb c hc)
    · exact Memory.wf_cons.2 ⟨h₂ ▸ hb, hm⟩
    · exact Memory.wf_cons.2 ⟨Memory.above_put (by omega) hb, ih hm⟩

/-- Equal reads mean equal buffers, for buffers in canonical form. -/
theorem Memory.ext {m n : Memory} (hm : m.wf = true) (hn : n.wf = true) (h : ∀ a, m.find a = n.find a) : m = n := by
  have none_of_above : ∀ {a : Nat} {k : Memory}, Memory.above a k = true → ∀ x, x ≤ a → k.find x = none := by
    intro a k hk x hx
    induction k with
    | nil => rfl
    | cons c k ih =>
      obtain ⟨b, w⟩ := c
      rw [Memory.above_iff] at hk
      have hb : a < b := hk (b, w) (by simp)
      rw [Memory.find_cons, if_neg (by omega)]
      exact ih ((Memory.above_iff a k).2 fun c hc => hk c (List.mem_cons_of_mem _ hc))
  induction m generalizing n with
  | nil =>
    cases n with
    | nil => rfl
    | cons d n =>
      obtain ⟨b, w⟩ := d
      have := h b
      rw [Memory.find_cons, if_pos rfl] at this
      cases this
  | cons c m ih =>
    cases n with
    | nil =>
      obtain ⟨a, v⟩ := c
      have := h a
      rw [Memory.find_cons, if_pos rfl] at this
      cases this
    | cons d n =>
      obtain ⟨a, v⟩ := c
      obtain ⟨b, w⟩ := d
      obtain ⟨ha, hm'⟩ := Memory.wf_cons.1 hm
      obtain ⟨hb, hn'⟩ := Memory.wf_cons.1 hn
      have hab : a = b := by
        rcases lt_trichotomy a b with hlt | heq | hgt
        · have := h a
          rw [Memory.find_cons, if_pos rfl, Memory.find_cons, if_neg (by omega), none_of_above hb a (by omega)] at this
          cases this
        · exact heq
        · have := h b
          rw [Memory.find_cons, if_neg (by omega), none_of_above ha b (by omega), Memory.find_cons, if_pos rfl] at this
          cases this
      subst hab
      have hvw : v = w := by simpa [Memory.find_cons] using h a
      subst hvw
      congr 1
      refine ih hm' hn' fun x => ?_
      by_cases hx : x = a
      · subst hx
        rw [none_of_above ha x le_rfl, none_of_above hb x le_rfl]
      · simpa [Memory.find_cons, hx] using h x

/-! ### Bounds -/

theorem Memory.within_put {m : Memory} {cap a : Nat} (v : Byte) (ha : a < cap) (h : m.within cap = true) :
    (m.put a v).within cap = true := by
  simp only [Memory.within, List.all_eq_true, decide_eq_true_eq] at h ⊢
  intro c hc
  rcases Memory.mem_put hc with rfl | hc
  · exact ha
  · exact h c hc

/-! ### Checked accesses -/

theorem Memory.load_ok {m : Memory} {cap a : Nat} {v : Byte} :
    m.load cap a = .ok v ↔ a < cap ∧ m.find a = some v := by
  unfold Memory.load
  split_ifs with h
  · cases m.find a <;> simp [h]
  · simp [h]

theorem Memory.store_ok {m m' : Memory} {cap a : Nat} {v : Byte} :
    m.store cap a v = .ok m' ↔ a < cap ∧ m.put a v = m' := by
  unfold Memory.store
  split_ifs with h <;> simp [h]

/-- A store that the buffer accepts keeps the canonical form and the bounds. -/
theorem Memory.store_keeps {m m' : Memory} {cap a : Nat} {v : Byte} (h : m.store cap a v = .ok m')
    (hw : m.wf = true ∧ m.within cap = true) : m'.wf = true ∧ m'.within cap = true := by
  obtain ⟨ha, rfl⟩ := Memory.store_ok.1 h
  exact ⟨Memory.wf_put a v hw.1, Memory.within_put v ha hw.2⟩

/-- What holds of each byte of a non-empty range holds of its first byte and of the range after it. -/
theorem range_cons {P : Nat → Byte → Prop} {a : Nat} {w : Byte} {l : List Byte} :
    (∀ i (h : i < (w :: l).length), P (a + i) (w :: l)[i]) ↔
      P a w ∧ ∀ i (h : i < l.length), P (a + 1 + i) l[i] := by
  constructor
  · intro h
    refine ⟨h 0 (by simp), fun i hi => ?_⟩
    have := h (i + 1) (by simpa using hi)
    rwa [List.getElem_cons_succ, ← Nat.add_assoc, Nat.add_right_comm] at this
  · rintro ⟨h₀, h⟩ i hi
    cases i with
    | zero => exact h₀
    | succ i =>
      have := h i (by simpa using hi)
      rwa [Nat.add_right_comm, Nat.add_assoc] at this

/-- A multi-byte read answers exactly the bytes of its range. -/
theorem Memory.loadBytes_ok {m : Memory} {cap a n : Nat} {l : List Byte} :
    m.loadBytes cap a n = .ok l ↔
      l.length = n ∧ ∀ i (h : i < l.length), a + i < cap ∧ m.find (a + i) = some l[i] := by
  induction n generalizing a l with
  | zero => cases l <;> simp [Memory.loadBytes]
  | succ n ih =>
    have step : m.loadBytes cap a (n + 1) = .ok l ↔
        ∃ v vs, m.load cap a = .ok v ∧ m.loadBytes cap (a + 1) n = .ok vs ∧ v :: vs = l := by
      simp only [Memory.loadBytes]
      cases m.load cap a with
      | error f => simp
      | ok v => cases m.loadBytes cap (a + 1) n <;> simp
    rw [step]
    cases l with
    | nil => simp
    | cons w l =>
      rw [range_cons (P := fun k v => k < cap ∧ m.find k = some v)]
      simp only [List.cons.injEq, List.length_cons, Nat.add_right_cancel_iff, ← Memory.load_ok]
      constructor
      · rintro ⟨v, vs, hv, hvs, rfl, rfl⟩
        obtain ⟨hl, hi⟩ := ih.1 hvs
        exact ⟨hl, hv, fun i h => Memory.load_ok.2 (hi i h)⟩
      · rintro ⟨hl, hv, hi⟩
        exact ⟨w, l, hv, ih.2 ⟨hl, fun i h => Memory.load_ok.1 (hi i h)⟩, rfl, rfl⟩

/-! ### The mask loop -/

/-- R195's loop keeps the canonical form and the bounds. -/
theorem maskBuffer_keeps {key : Vector (Reg Byte) 4} {cap n i : Nat} {m m' : Memory}
    (h : maskBuffer key cap m i n = .ok m') (hw : m.wf = true ∧ m.within cap = true) :
    m'.wf = true ∧ m'.within cap = true := by
  induction n generalizing i m with
  | zero =>
    simp only [maskBuffer, Except.ok.injEq] at h
    exact h ▸ hw
  | succ n ih =>
    simp only [maskBuffer] at h
    cases hp : m.load cap i with
    | error f => simp [hp] at h
    | ok p =>
      rw [hp] at h
      cases hk : (keyByte key i).read with
      | error f => simp [hk] at h
      | ok k =>
        simp only [hk] at h
        exact ih h ⟨Memory.wf_put _ _ hw.1, Memory.within_put _ (Memory.load_ok.1 hp).1 hw.2⟩

/-- R36: the buffers of the reset state are in canonical form. -/
theorem reset_buffers_wf :
    State.reset.buf.rxPbuf.wf = true ∧ State.reset.buf.txPbuf.wf = true ∧ State.reset.buf.nonceBuf.wf = true := by
  decide

end Sys2Proof.Machine
end

