-- ==== Sys2Proof/Laws/State.lean ====
section
/-! SUPPORT. What each named state update leaves in each field of State, true by unfolding once. -/

namespace Sys2Proof.Machine

/-! ### `raise` -/

@[simp] theorem raise_cfg (e : ErrCode) (s : State) : (raise e s).cfg = s.cfg := rfl
@[simp] theorem raise_seq (e : ErrCode) (s : State) : (raise e s).seq = .error := rfl
@[simp] theorem raise_status (e : ErrCode) (s : State) : (raise e s).status =
    { s.status with err := true, errCode := e, errState := s.seq, done := false } := rfl
@[simp] theorem raise_op (e : ErrCode) (s : State) : (raise e s).op = s.op := rfl
@[simp] theorem raise_latch (e : ErrCode) (s : State) : (raise e s).latch = s.latch := rfl
@[simp] theorem raise_rx (e : ErrCode) (s : State) : (raise e s).rx = s.rx := rfl
@[simp] theorem raise_dec (e : ErrCode) (s : State) : (raise e s).dec = s.dec := rfl
@[simp] theorem raise_enc (e : ErrCode) (s : State) : (raise e s).enc = s.enc := rfl
@[simp] theorem raise_acc (e : ErrCode) (s : State) : (raise e s).acc = s.acc := rfl
@[simp] theorem raise_sha (e : ErrCode) (s : State) : (raise e s).sha = s.sha := rfl
@[simp] theorem raise_buf (e : ErrCode) (s : State) : (raise e s).buf = s.buf := rfl
@[simp] theorem raise_env (e : ErrCode) (s : State) : (raise e s).env = s.env := rfl

/-! ### `abort` -/

@[simp] theorem abort_cfg (s : State) : (abort s).cfg = s.cfg := rfl
@[simp] theorem abort_seq (s : State) : (abort s).seq = .idle := rfl
@[simp] theorem abort_status (s : State) : (abort s).status =
    { s.status with done := false, err := false, errCode := .none, errState := .idle } := rfl
@[simp] theorem abort_op (s : State) : (abort s).op = s.op := rfl
@[simp] theorem abort_latch (s : State) : (abort s).latch = s.latch := rfl
@[simp] theorem abort_rx (s : State) : (abort s).rx = { s.rx with frameValid := false } := rfl
@[simp] theorem abort_dec (s : State) : (abort s).dec = s.dec := rfl
@[simp] theorem abort_enc (s : State) : (abort s).enc = s.enc := rfl
@[simp] theorem abort_acc (s : State) : (abort s).acc = { s.acc with valid := false } := rfl
@[simp] theorem abort_sha (s : State) : (abort s).sha = s.sha := rfl
@[simp] theorem abort_buf (s : State) : (abort s).buf = s.buf := rfl
@[simp] theorem abort_env (s : State) : (abort s).env = s.env := rfl

/-! ### `blockReset` -/

@[simp] theorem blockReset_cfg (s : State) : (blockReset s).cfg = s.cfg := rfl
@[simp] theorem blockReset_seq (s : State) : (blockReset s).seq = .idle := rfl
@[simp] theorem blockReset_status (s : State) : (blockReset s).status = Status.atReset := rfl
@[simp] theorem blockReset_op (s : State) : (blockReset s).op = Operands.atReset := rfl
@[simp] theorem blockReset_latch (s : State) : (blockReset s).latch = Operands.atReset := rfl
@[simp] theorem blockReset_rx (s : State) : (blockReset s).rx = RxRegs.atReset := rfl
@[simp] theorem blockReset_dec (s : State) : (blockReset s).dec = DecWork.atReset := rfl
@[simp] theorem blockReset_enc (s : State) : (blockReset s).enc = EncRegs.atReset := rfl
@[simp] theorem blockReset_acc (s : State) : (blockReset s).acc = AcceptRegs.atReset := rfl
@[simp] theorem blockReset_sha (s : State) : (blockReset s).sha = ShaWork.atReset := rfl
@[simp] theorem blockReset_buf (s : State) : (blockReset s).buf = Buffers.atReset := rfl
@[simp] theorem blockReset_env (s : State) : (blockReset s).env = s.env := rfl

/-! ### `complete` -/

@[simp] theorem complete_cfg (s : State) : (complete s).cfg = s.cfg := rfl
@[simp] theorem complete_seq (s : State) : (complete s).seq = .idle := rfl
@[simp] theorem complete_status (s : State) : (complete s).status = { s.status with done := true } := rfl
@[simp] theorem complete_op (s : State) : (complete s).op = s.op := rfl
@[simp] theorem complete_latch (s : State) : (complete s).latch = s.latch := rfl
@[simp] theorem complete_rx (s : State) : (complete s).rx = s.rx := rfl
@[simp] theorem complete_dec (s : State) : (complete s).dec = s.dec := rfl
@[simp] theorem complete_enc (s : State) : (complete s).enc = s.enc := rfl
@[simp] theorem complete_acc (s : State) : (complete s).acc = s.acc := rfl
@[simp] theorem complete_sha (s : State) : (complete s).sha = s.sha := rfl
@[simp] theorem complete_buf (s : State) : (complete s).buf = s.buf := rfl
@[simp] theorem complete_env (s : State) : (complete s).env = s.env := rfl

/-! ### `completeDecode` -/

@[simp] theorem completeDecode_cfg (s : State) : (completeDecode s).cfg = s.cfg := rfl
@[simp] theorem completeDecode_seq (s : State) : (completeDecode s).seq = .idle := rfl
@[simp] theorem completeDecode_status (s : State) : (completeDecode s).status = { s.status with done := true } := rfl
@[simp] theorem completeDecode_op (s : State) : (completeDecode s).op = s.op := rfl
@[simp] theorem completeDecode_latch (s : State) : (completeDecode s).latch = s.latch := rfl
@[simp] theorem completeDecode_rx (s : State) : (completeDecode s).rx = { s.rx with frameValid := true } := rfl
@[simp] theorem completeDecode_dec (s : State) : (completeDecode s).dec = s.dec := rfl
@[simp] theorem completeDecode_enc (s : State) : (completeDecode s).enc = s.enc := rfl
@[simp] theorem completeDecode_acc (s : State) : (completeDecode s).acc = s.acc := rfl
@[simp] theorem completeDecode_sha (s : State) : (completeDecode s).sha = s.sha := rfl
@[simp] theorem completeDecode_buf (s : State) : (completeDecode s).buf = s.buf := rfl
@[simp] theorem completeDecode_env (s : State) : (completeDecode s).env = s.env := rfl

/-! ### `completeAccept` -/

@[simp] theorem completeAccept_cfg (s : State) : (completeAccept s).cfg = s.cfg := rfl
@[simp] theorem completeAccept_seq (s : State) : (completeAccept s).seq = .idle := rfl
@[simp] theorem completeAccept_status (s : State) : (completeAccept s).status = { s.status with done := true } := rfl
@[simp] theorem completeAccept_op (s : State) : (completeAccept s).op = s.op := rfl
@[simp] theorem completeAccept_latch (s : State) : (completeAccept s).latch = s.latch := rfl
@[simp] theorem completeAccept_rx (s : State) : (completeAccept s).rx = s.rx := rfl
@[simp] theorem completeAccept_dec (s : State) : (completeAccept s).dec = s.dec := rfl
@[simp] theorem completeAccept_enc (s : State) : (completeAccept s).enc = s.enc := rfl
@[simp] theorem completeAccept_acc (s : State) : (completeAccept s).acc = { s.acc with valid := true } := rfl
@[simp] theorem completeAccept_sha (s : State) : (completeAccept s).sha = s.sha := rfl
@[simp] theorem completeAccept_buf (s : State) : (completeAccept s).buf = s.buf := rfl
@[simp] theorem completeAccept_env (s : State) : (completeAccept s).env = s.env := rfl

/-! ### `countRxByte` -/

@[simp] theorem countRxByte_cfg (s : State) : (countRxByte s).cfg = s.cfg := rfl
@[simp] theorem countRxByte_seq (s : State) : (countRxByte s).seq = s.seq := rfl
@[simp] theorem countRxByte_status (s : State) : (countRxByte s).status = s.status := rfl
@[simp] theorem countRxByte_op (s : State) : (countRxByte s).op = s.op := rfl
@[simp] theorem countRxByte_latch (s : State) : (countRxByte s).latch = s.latch := rfl
@[simp] theorem countRxByte_rx (s : State) : (countRxByte s).rx =
    { s.rx with frameBytes := ⟨s.rx.frameBytes.val + 1#64, s.rx.frameBytes.known⟩ } := rfl
@[simp] theorem countRxByte_dec (s : State) : (countRxByte s).dec = s.dec := rfl
@[simp] theorem countRxByte_enc (s : State) : (countRxByte s).enc = s.enc := rfl
@[simp] theorem countRxByte_acc (s : State) : (countRxByte s).acc = s.acc := rfl
@[simp] theorem countRxByte_sha (s : State) : (countRxByte s).sha = s.sha := rfl
@[simp] theorem countRxByte_buf (s : State) : (countRxByte s).buf = s.buf := rfl
@[simp] theorem countRxByte_env (s : State) : (countRxByte s).env = s.env := rfl

/-! ### `countTxByte` -/

@[simp] theorem countTxByte_cfg (s : State) : (countTxByte s).cfg = s.cfg := rfl
@[simp] theorem countTxByte_seq (s : State) : (countTxByte s).seq = s.seq := rfl
@[simp] theorem countTxByte_status (s : State) : (countTxByte s).status = s.status := rfl
@[simp] theorem countTxByte_op (s : State) : (countTxByte s).op = s.op := rfl
@[simp] theorem countTxByte_latch (s : State) : (countTxByte s).latch = s.latch := rfl
@[simp] theorem countTxByte_rx (s : State) : (countTxByte s).rx = s.rx := rfl
@[simp] theorem countTxByte_dec (s : State) : (countTxByte s).dec = s.dec := rfl
@[simp] theorem countTxByte_enc (s : State) : (countTxByte s).enc =
    { s.enc with txBytes := ⟨s.enc.txBytes.val + 1#64, s.enc.txBytes.known⟩ } := rfl
@[simp] theorem countTxByte_acc (s : State) : (countTxByte s).acc = s.acc := rfl
@[simp] theorem countTxByte_sha (s : State) : (countTxByte s).sha = s.sha := rfl
@[simp] theorem countTxByte_buf (s : State) : (countTxByte s).buf = s.buf := rfl
@[simp] theorem countTxByte_env (s : State) : (countTxByte s).env = s.env := rfl

/-! ### `txPut` -/

@[simp] theorem txPut_cfg (b : Byte) (s : State) : (txPut b s).cfg = s.cfg := rfl
@[simp] theorem txPut_seq (b : Byte) (s : State) : (txPut b s).seq = s.seq := rfl
@[simp] theorem txPut_status (b : Byte) (s : State) : (txPut b s).status = s.status := rfl
@[simp] theorem txPut_op (b : Byte) (s : State) : (txPut b s).op = s.op := rfl
@[simp] theorem txPut_latch (b : Byte) (s : State) : (txPut b s).latch = s.latch := rfl
@[simp] theorem txPut_rx (b : Byte) (s : State) : (txPut b s).rx = s.rx := rfl
@[simp] theorem txPut_dec (b : Byte) (s : State) : (txPut b s).dec = s.dec := rfl
@[simp] theorem txPut_enc (b : Byte) (s : State) : (txPut b s).enc = s.enc := rfl
@[simp] theorem txPut_acc (b : Byte) (s : State) : (txPut b s).acc = s.acc := rfl
@[simp] theorem txPut_sha (b : Byte) (s : State) : (txPut b s).sha = s.sha := rfl
@[simp] theorem txPut_buf (b : Byte) (s : State) : (txPut b s).buf = s.buf := rfl
@[simp] theorem txPut_env (b : Byte) (s : State) : (txPut b s).env = { s.env with tx := s.env.tx ++ [b] } := rfl

/-! ### `latchOperands` -/

@[simp] theorem latchOperands_cfg (c : Cmd) (s : State) : (latchOperands c s).cfg = s.cfg := rfl
@[simp] theorem latchOperands_seq (c : Cmd) (s : State) : (latchOperands c s).seq = s.seq := rfl
@[simp] theorem latchOperands_status (c : Cmd) (s : State) : (latchOperands c s).status =
    { s.status with lastCmd := c, done := false } := rfl
@[simp] theorem latchOperands_op (c : Cmd) (s : State) : (latchOperands c s).op = s.op := rfl
@[simp] theorem latchOperands_latch (c : Cmd) (s : State) : (latchOperands c s).latch = s.op := rfl
@[simp] theorem latchOperands_rx (c : Cmd) (s : State) : (latchOperands c s).rx = s.rx := rfl
@[simp] theorem latchOperands_dec (c : Cmd) (s : State) : (latchOperands c s).dec = s.dec := rfl
@[simp] theorem latchOperands_enc (c : Cmd) (s : State) : (latchOperands c s).enc = s.enc := rfl
@[simp] theorem latchOperands_acc (c : Cmd) (s : State) : (latchOperands c s).acc = s.acc := rfl
@[simp] theorem latchOperands_sha (c : Cmd) (s : State) : (latchOperands c s).sha = s.sha := rfl
@[simp] theorem latchOperands_buf (c : Cmd) (s : State) : (latchOperands c s).buf = s.buf := rfl
@[simp] theorem latchOperands_env (c : Cmd) (s : State) : (latchOperands c s).env = s.env := rfl

/-! ### `setByte0` -/

@[simp] theorem setByte0_cfg (fin : Bool) (rsv : BitVec 3) (op : BitVec 4) (s : State) : (setByte0 fin rsv op s).cfg = s.cfg := rfl
@[simp] theorem setByte0_seq (fin : Bool) (rsv : BitVec 3) (op : BitVec 4) (s : State) : (setByte0 fin rsv op s).seq = s.seq := rfl
@[simp] theorem setByte0_status (fin : Bool) (rsv : BitVec 3) (op : BitVec 4) (s : State) : (setByte0 fin rsv op s).status = s.status := rfl
@[simp] theorem setByte0_op (fin : Bool) (rsv : BitVec 3) (op : BitVec 4) (s : State) : (setByte0 fin rsv op s).op = s.op := rfl
@[simp] theorem setByte0_latch (fin : Bool) (rsv : BitVec 3) (op : BitVec 4) (s : State) : (setByte0 fin rsv op s).latch = s.latch := rfl
@[simp] theorem setByte0_rx (fin : Bool) (rsv : BitVec 3) (op : BitVec 4) (s : State) : (setByte0 fin rsv op s).rx =
    { s.rx with fin := .of fin, rsv := .of rsv, opcode := .of op } := rfl
@[simp] theorem setByte0_dec (fin : Bool) (rsv : BitVec 3) (op : BitVec 4) (s : State) : (setByte0 fin rsv op s).dec = s.dec := rfl
@[simp] theorem setByte0_enc (fin : Bool) (rsv : BitVec 3) (op : BitVec 4) (s : State) : (setByte0 fin rsv op s).enc = s.enc := rfl
@[simp] theorem setByte0_acc (fin : Bool) (rsv : BitVec 3) (op : BitVec 4) (s : State) : (setByte0 fin rsv op s).acc = s.acc := rfl
@[simp] theorem setByte0_sha (fin : Bool) (rsv : BitVec 3) (op : BitVec 4) (s : State) : (setByte0 fin rsv op s).sha = s.sha := rfl
@[simp] theorem setByte0_buf (fin : Bool) (rsv : BitVec 3) (op : BitVec 4) (s : State) : (setByte0 fin rsv op s).buf = s.buf := rfl
@[simp] theorem setByte0_env (fin : Bool) (rsv : BitVec 3) (op : BitVec 4) (s : State) : (setByte0 fin rsv op s).env = s.env := rfl

/-! ### `setByte1` -/

@[simp] theorem setByte1_cfg (mask : Bool) (len7 : BitVec 7) (s : State) : (setByte1 mask len7 s).cfg = s.cfg := rfl
@[simp] theorem setByte1_seq (mask : Bool) (len7 : BitVec 7) (s : State) : (setByte1 mask len7 s).seq = s.seq := rfl
@[simp] theorem setByte1_status (mask : Bool) (len7 : BitVec 7) (s : State) : (setByte1 mask len7 s).status = s.status := rfl
@[simp] theorem setByte1_op (mask : Bool) (len7 : BitVec 7) (s : State) : (setByte1 mask len7 s).op = s.op := rfl
@[simp] theorem setByte1_latch (mask : Bool) (len7 : BitVec 7) (s : State) : (setByte1 mask len7 s).latch = s.latch := rfl
@[simp] theorem setByte1_rx (mask : Bool) (len7 : BitVec 7) (s : State) : (setByte1 mask len7 s).rx =
    { s.rx with masked := .of mask, len7 := .of len7, frameBytes := ⟨s.rx.frameBytes.val + 1#64, s.rx.frameBytes.known⟩ } := rfl
@[simp] theorem setByte1_dec (mask : Bool) (len7 : BitVec 7) (s : State) : (setByte1 mask len7 s).dec = s.dec := rfl
@[simp] theorem setByte1_enc (mask : Bool) (len7 : BitVec 7) (s : State) : (setByte1 mask len7 s).enc = s.enc := rfl
@[simp] theorem setByte1_acc (mask : Bool) (len7 : BitVec 7) (s : State) : (setByte1 mask len7 s).acc = s.acc := rfl
@[simp] theorem setByte1_sha (mask : Bool) (len7 : BitVec 7) (s : State) : (setByte1 mask len7 s).sha = s.sha := rfl
@[simp] theorem setByte1_buf (mask : Bool) (len7 : BitVec 7) (s : State) : (setByte1 mask len7 s).buf = s.buf := rfl
@[simp] theorem setByte1_env (mask : Bool) (len7 : BitVec 7) (s : State) : (setByte1 mask len7 s).env = s.env := rfl

/-! ### `expectExt` -/

@[simp] theorem expectExt_cfg (n : BitVec 4) (s : State) : (expectExt n s).cfg = s.cfg := rfl
@[simp] theorem expectExt_seq (n : BitVec 4) (s : State) : (expectExt n s).seq = .dExt := rfl
@[simp] theorem expectExt_status (n : BitVec 4) (s : State) : (expectExt n s).status = s.status := rfl
@[simp] theorem expectExt_op (n : BitVec 4) (s : State) : (expectExt n s).op = s.op := rfl
@[simp] theorem expectExt_latch (n : BitVec 4) (s : State) : (expectExt n s).latch = s.latch := rfl
@[simp] theorem expectExt_rx (n : BitVec 4) (s : State) : (expectExt n s).rx = s.rx := rfl
@[simp] theorem expectExt_dec (n : BitVec 4) (s : State) : (expectExt n s).dec = { s.dec with extNeed := n } := rfl
@[simp] theorem expectExt_enc (n : BitVec 4) (s : State) : (expectExt n s).enc = s.enc := rfl
@[simp] theorem expectExt_acc (n : BitVec 4) (s : State) : (expectExt n s).acc = s.acc := rfl
@[simp] theorem expectExt_sha (n : BitVec 4) (s : State) : (expectExt n s).sha = s.sha := rfl
@[simp] theorem expectExt_buf (n : BitVec 4) (s : State) : (expectExt n s).buf = s.buf := rfl
@[simp] theorem expectExt_env (n : BitVec 4) (s : State) : (expectExt n s).env = s.env := rfl

/-! ### `startDecode` -/

@[simp] theorem startDecode_cfg (s : State) : (startDecode s).cfg = s.cfg := rfl
@[simp] theorem startDecode_seq (s : State) : (startDecode s).seq = .dB0 := rfl
@[simp] theorem startDecode_status (s : State) : (startDecode s).status = s.status := rfl
@[simp] theorem startDecode_op (s : State) : (startDecode s).op = s.op := rfl
@[simp] theorem startDecode_latch (s : State) : (startDecode s).latch = s.latch := rfl
@[simp] theorem startDecode_rx (s : State) : (startDecode s).rx =
    { fin := s.rx.fin.forget, rsv := s.rx.rsv.forget, opcode := s.rx.opcode.forget, masked := s.rx.masked.forget,
      len7 := s.rx.len7.forget, len := s.rx.len.forget, key := s.rx.key.map Reg.forget, frameValid := false,
      frameBytes := .of 0#64 } := rfl
@[simp] theorem startDecode_dec (s : State) : (startDecode s).dec =
    { extNeed := 0#4, extCnt := 0#4, extAcc := 0#64, keyCnt := 0#3, payCnt := 0#64 } := rfl
@[simp] theorem startDecode_enc (s : State) : (startDecode s).enc = s.enc := rfl
@[simp] theorem startDecode_acc (s : State) : (startDecode s).acc = s.acc := rfl
@[simp] theorem startDecode_sha (s : State) : (startDecode s).sha = s.sha := rfl
@[simp] theorem startDecode_buf (s : State) : (startDecode s).buf = s.buf := rfl
@[simp] theorem startDecode_env (s : State) : (startDecode s).env = s.env := rfl

/-! ### `startEncode` -/

@[simp] theorem startEncode_cfg (fin : Bool) (op : BitVec 4) (len : Word64) (s : State) : (startEncode fin op len s).cfg = s.cfg := rfl
@[simp] theorem startEncode_seq (fin : Bool) (op : BitVec 4) (len : Word64) (s : State) : (startEncode fin op len s).seq = .eHdr := rfl
@[simp] theorem startEncode_status (fin : Bool) (op : BitVec 4) (len : Word64) (s : State) : (startEncode fin op len s).status = s.status := rfl
@[simp] theorem startEncode_op (fin : Bool) (op : BitVec 4) (len : Word64) (s : State) : (startEncode fin op len s).op = s.op := rfl
@[simp] theorem startEncode_latch (fin : Bool) (op : BitVec 4) (len : Word64) (s : State) : (startEncode fin op len s).latch = s.latch := rfl
@[simp] theorem startEncode_rx (fin : Bool) (op : BitVec 4) (len : Word64) (s : State) : (startEncode fin op len s).rx = s.rx := rfl
@[simp] theorem startEncode_dec (fin : Bool) (op : BitVec 4) (len : Word64) (s : State) : (startEncode fin op len s).dec = s.dec := rfl
@[simp] theorem startEncode_enc (fin : Bool) (op : BitVec 4) (len : Word64) (s : State) : (startEncode fin op len s).enc =
    encLenForm len (encByte0 fin op { s.enc with cnt := 0#4, payCnt := 0#64 }) := rfl
@[simp] theorem startEncode_acc (fin : Bool) (op : BitVec 4) (len : Word64) (s : State) : (startEncode fin op len s).acc = s.acc := rfl
@[simp] theorem startEncode_sha (fin : Bool) (op : BitVec 4) (len : Word64) (s : State) : (startEncode fin op len s).sha = s.sha := rfl
@[simp] theorem startEncode_buf (fin : Bool) (op : BitVec 4) (len : Word64) (s : State) : (startEncode fin op len s).buf = s.buf := rfl
@[simp] theorem startEncode_env (fin : Bool) (op : BitVec 4) (len : Word64) (s : State) : (startEncode fin op len s).env = s.env := rfl

/-! ### `withAgenda` -/

@[simp] theorem withAgenda_cfg (rest : List Turn) (s : State) : (withAgenda rest s).cfg = s.cfg := rfl
@[simp] theorem withAgenda_seq (rest : List Turn) (s : State) : (withAgenda rest s).seq = s.seq := rfl
@[simp] theorem withAgenda_status (rest : List Turn) (s : State) : (withAgenda rest s).status = s.status := rfl
@[simp] theorem withAgenda_op (rest : List Turn) (s : State) : (withAgenda rest s).op = s.op := rfl
@[simp] theorem withAgenda_latch (rest : List Turn) (s : State) : (withAgenda rest s).latch = s.latch := rfl
@[simp] theorem withAgenda_rx (rest : List Turn) (s : State) : (withAgenda rest s).rx = s.rx := rfl
@[simp] theorem withAgenda_dec (rest : List Turn) (s : State) : (withAgenda rest s).dec = s.dec := rfl
@[simp] theorem withAgenda_enc (rest : List Turn) (s : State) : (withAgenda rest s).enc = s.enc := rfl
@[simp] theorem withAgenda_acc (rest : List Turn) (s : State) : (withAgenda rest s).acc = s.acc := rfl
@[simp] theorem withAgenda_sha (rest : List Turn) (s : State) : (withAgenda rest s).sha = s.sha := rfl
@[simp] theorem withAgenda_buf (rest : List Turn) (s : State) : (withAgenda rest s).buf = s.buf := rfl
@[simp] theorem withAgenda_env (rest : List Turn) (s : State) : (withAgenda rest s).env = { s.env with agenda := rest } := rfl

end Sys2Proof.Machine
end

