-- ==== Sys2Proof/Laws/Ops.lean ====
section
/-! SUPPORT. One lemma per shared operation: everything it can do when it answers a next state. -/

namespace Sys2Proof.Machine

/-! ### Values -/

@[simp] theorem need_ok {α : Type} (v : α) (k : α → Result) : need (.ok v) k = k v := rfl

@[simp] theorem need_error {α : Type} (f : Fault) (k : α → Result) : need (.error f) k = .fault f := rfl

/-- A chain through `need` answers a next state only where its value is there. -/
theorem need_next {α : Type} {e : Except Fault α} {k : α → Result} {t : State} :
    need e k = .next t ↔ ∃ v, e = .ok v ∧ k v = .next t := by
  cases e <;> simp

theorem Reg.read_ok {α : Type} {r : Reg α} {v : α} : r.read = .ok v ↔ r = Reg.of v := by
  obtain ⟨w, k⟩ := r
  cases k <;> simp [Reg.read, Reg.of]

@[simp] theorem Reg.read_of {α : Type} (v : α) : (Reg.of v).read = .ok v := rfl

theorem Reg.eq_of_known {α : Type} {r : Reg α} (h : r.known = true) : r = Reg.of r.val := by
  cases r
  simp_all

/-! ### Phases -/

@[simp] theorem inPhase_pos {q : Seq} {s : State} (r : Result) (h : s.seq = q) : inPhase q s r = r := by
  simp [inPhase, h]

@[simp] theorem inPhase_neg {q : Seq} {s : State} (r : Result) (h : s.seq ≠ q) : inPhase q s r = .next s := by
  simp [inPhase, h]

theorem inPhase_next {q : Seq} {s t : State} {r : Result} :
    inPhase q s r = .next t ↔ (s.seq = q ∧ r = .next t) ∨ (s.seq ≠ q ∧ s = t) := by
  by_cases h : s.seq = q <;> simp [h]

/-! ### Streams -/

theorem rxTake_byte {s : State} {b : Byte} {bs : List Byte} (h : s.env.rx = b :: bs) (e : Result)
    (k : Byte → State → Result) :
    rxTake s e k = k b { s with env := { s.env with rx := bs } } := by
  simp [rxTake, h]

theorem rxTake_eos {s : State} (h : s.env.rx = []) (hc : s.env.rxClosed = true) (e : Result)
    (k : Byte → State → Result) : rxTake s e k = e := by
  simp [rxTake, h, hc]

theorem rxTake_hold {s : State} (h : s.env.rx = []) (hc : s.env.rxClosed = false) (e : Result)
    (k : Byte → State → Result) : rxTake s e k = .next s := by
  simp [rxTake, h, hc]

/-- R76: a byte from the front, the end of the stream, or a hold. -/
theorem rxTake_cases (s : State) (e : Result) (k : Byte → State → Result) :
    (∃ b bs, s.env.rx = b :: bs ∧ rxTake s e k = k b { s with env := { s.env with rx := bs } }) ∨
      (s.env.rx = [] ∧ s.env.rxClosed = true ∧ rxTake s e k = e) ∨
      (s.env.rx = [] ∧ s.env.rxClosed = false ∧ rxTake s e k = .next s) := by
  cases h : s.env.rx with
  | cons b bs => exact .inl ⟨b, bs, rfl, rxTake_byte h e k⟩
  | nil =>
    cases hc : s.env.rxClosed with
    | true => exact .inr (.inl ⟨rfl, rfl, rxTake_eos h hc e k⟩)
    | false => exact .inr (.inr ⟨rfl, rfl, rxTake_hold h hc e k⟩)

theorem whenTxReady_next {s t : State} {r : Result} :
    whenTxReady s r = .next t ↔ (s.env.txReady = true ∧ r = .next t) ∨ (s.env.txReady = false ∧ s = t) := by
  cases h : s.env.txReady <;> simp [whenTxReady, h]

/-! ### Header bytes -/

/-- R122 to R125: a header byte 0 always has a next state. -/
theorem headerByte0_eq (fin : Bool) (rsv : BitVec 3) (op : BitVec 4) (s : State) :
    headerByte0 fin rsv op s = .next
      (if rsv ≠ 0#3 then raise .reservedBitsSet (setByte0 fin rsv op (countRxByte s))
       else if isReservedOp op then raise .invalidOpcode (setByte0 fin rsv op (countRxByte s))
       else { setByte0 fin rsv op (countRxByte s) with seq := .dB1 }) := by
  unfold headerByte0
  split_ifs <;> rfl

/-- R138, R139: where the length leads. -/
theorem afterLength_next {len : Word64} {s t : State} :
    afterLength len s = .next t ↔
      (s.cfg.pbufBytes < len.toNat ∧ raise .payloadTooLarge { s with rx := { s.rx with len := .of len } } = t) ∨
      (len.toNat ≤ s.cfg.pbufBytes ∧ s.rx.masked = .of true ∧
        { s with rx := { s.rx with len := .of len }, dec := { s.dec with keyCnt := 0#3 }, seq := .dKey } = t) ∨
      (len.toNat ≤ s.cfg.pbufBytes ∧ s.rx.masked = .of false ∧
        { s with rx := { s.rx with len := .of len }, seq := if 0#64 < len then .dPay else .dChk } = t) := by
  unfold afterLength
  by_cases h : s.cfg.pbufBytes < len.toNat
  · simp [h, show ¬ len.toNat ≤ s.cfg.pbufBytes by omega]
  · simp only [h, if_false, need_next, Reg.read_ok, show len.toNat ≤ s.cfg.pbufBytes by omega]
    constructor
    · rintro ⟨m, hm, ht⟩
      cases m
      · right; right
        refine ⟨trivial, hm, ?_⟩
        by_cases h0 : 0#64 < len <;> simpa [h0] using ht
      · right; left
        exact ⟨trivial, hm, by simpa using ht⟩
    · rintro (⟨h', _⟩ | ⟨_, hm, ht⟩ | ⟨_, hm, ht⟩)
      · exact absurd h' (by simp)
      · exact ⟨true, hm, by simpa using ht⟩
      · refine ⟨false, hm, ?_⟩
        by_cases h0 : 0#64 < len <;> simpa [h0] using ht

/-! ### HOST accesses -/

/-- R34: a HOST read only records a value. -/
theorem hostRead_next {r : HostRead} {s t : State} :
    hostRead r s = .next t ↔
      readHazard r s.seq = false ∧ ∃ n, readValue r s = .ok n ∧ { s with env := { s.env with hostSaw := some n } } = t := by
  unfold hostRead
  cases readHazard r s.seq <;> simp [need_next]

/-- R34: a HOST write changes an operand register, TX_PBUF or NONCE_BUF, and keeps the buffers inside their sizes. -/
theorem hostWrite_next {w : HostWrite} {s t : State} (h : hostWrite w s = .next t) :
    writeHazard w s.seq = false ∧
      ((∃ op, t = { s with op := op }) ∨
        (∃ a v, a < s.cfg.pbufBytes ∧ t = { s with buf := { s.buf with txPbuf := s.buf.txPbuf.put a v } }) ∨
        (∃ a v, a < s.cfg.nonceMax ∧ t = { s with buf := { s.buf with nonceBuf := s.buf.nonceBuf.put a v } })) := by
  unfold hostWrite at h
  cases hz : writeHazard w s.seq with
  | true => simp [hz] at h
  | false =>
    refine ⟨rfl, ?_⟩
    simp only [hz] at h
    cases w with
    | txPbuf a v =>
      obtain ⟨m, hm, ht⟩ := need_next.1 (show need _ _ = _ from h)
      obtain ⟨ha, rfl⟩ := Memory.store_ok.1 hm
      exact .inr (.inl ⟨a, v, ha, by simpa using ht.symm⟩)
    | nonceBuf a v =>
      obtain ⟨m, hm, ht⟩ := need_next.1 (show need _ _ = _ from h)
      obtain ⟨ha, rfl⟩ := Memory.store_ok.1 hm
      exact .inr (.inr ⟨a, v, ha, by simpa using ht.symm⟩)
    | opFin v => exact .inl ⟨_, by simpa [writeValue] using h.symm⟩
    | opOpcode v => exact .inl ⟨_, by simpa [writeValue] using h.symm⟩
    | opMasked v => exact .inl ⟨_, by simpa [writeValue] using h.symm⟩
    | opLen v => exact .inl ⟨_, by simpa [writeValue] using h.symm⟩
    | opKey i v => exact .inl ⟨_, by simpa [writeValue] using h.symm⟩
    | opNonceLen v => exact .inl ⟨_, by simpa [writeValue] using h.symm⟩

end Sys2Proof.Machine
end

