-- ==== Sys2Proof/Laws/Rows.lean ====
section
/-! SUPPORT. What a decoded byte runs, by the bits of the byte, and what each row's meaning can answer. -/

namespace Sys2Proof.Machine

/-! ### Fields of a header byte -/

theorem byte_split0 : ∀ b : Byte, byte0Of (b.getLsbD 7) (b.extractLsb' 4 3) (b.extractLsb' 0 4) = b := by decide

theorem byte_split1 : ∀ b : Byte, byte1Of (b.getLsbD 7) (b.extractLsb' 0 7) = b := by decide

/-! ### The row a byte selects -/

/-- R123 to R131: whatever row header byte 0 is, its meaning is R122's step on its three fields. -/
theorem exec_decodeByte0 (b : Byte) (s : State) :
    exec (decodeByte0 b) s =
      inPhase .dB0 s (headerByte0 (b.getLsbD 7) (b.extractLsb' 4 3) (b.extractLsb' 0 4) s) := by
  have opcode : ∀ (fin : Bool) (op : BitVec 4),
      exec (decodeOpcode fin op) s = inPhase .dB0 s (headerByte0 fin 0 op s) := by
    intro fin op
    have : op = 0 ∨ op = 1 ∨ op = 2 ∨ op = 3 ∨ op = 4 ∨ op = 5 ∨ op = 6 ∨ op = 7 ∨ op = 8 ∨ op = 9 ∨ op = 10 ∨
        op = 11 ∨ op = 12 ∨ op = 13 ∨ op = 14 ∨ op = 15 := by
      revert op
      decide
    rcases this with rfl | rfl | rfl | rfl | rfl | rfl | rfl | rfl | rfl | rfl | rfl | rfl | rfl | rfl | rfl | rfl <;> rfl
  have rsv6 : ∀ b : Byte, b.getLsbD 6 = true → b.extractLsb' 4 3 = rsvOfBit6 (b.extractLsb' 4 2) := by decide
  have rsv5 : ∀ b : Byte, b.getLsbD 6 = false → b.getLsbD 5 = true →
      b.extractLsb' 4 3 = rsvOfBit5 (b.getLsbD 4) := by decide
  have rsv4 : ∀ b : Byte, b.getLsbD 6 = false → b.getLsbD 5 = false → b.getLsbD 4 = true →
      b.extractLsb' 4 3 = 1#3 := by decide
  have rsv0 : ∀ b : Byte, b.getLsbD 6 = false → b.getLsbD 5 = false → b.getLsbD 4 = false →
      b.extractLsb' 4 3 = 0#3 := by decide
  unfold decodeByte0
  cases h6 : b.getLsbD 6 with
  | true => rw [rsv6 b h6]; rfl
  | false =>
    cases h5 : b.getLsbD 5 with
    | true => rw [rsv5 b h6 h5]; rfl
    | false =>
      cases h4 : b.getLsbD 4 with
      | true => rw [rsv4 b h6 h5 h4]; rfl
      | false => rw [rsv0 b h6 h5 h4]; exact opcode _ _

/-- R133: the row header byte 1 selects. -/
theorem exec_decodeByte1 (b : Byte) (s : State) :
    exec (decodeByte1 b) s =
      if b.extractLsb' 0 7 ≤ 125#7 then execLenDirect (b.getLsbD 7) (b.extractLsb' 0 7) s
      else if b.extractLsb' 0 7 = 126#7 then execLenExt16 (b.getLsbD 7) s
      else execLenExt64 (b.getLsbD 7) s := by
  unfold decodeByte1
  dsimp only
  split_ifs <;> rfl

/-- R100, R101: the row a command code selects. -/
theorem exec_decodeCmd (c : Cmd) (s : State) :
    exec (decodeCmd c) s =
      if c = 1 then execDecode s else if c = 2 then execEncode s else if c = 3 then execMaskApply s
      else if c = 4 then execAcceptKey s else refuseCommand c s := by
  have : c = 0 ∨ c = 1 ∨ c = 2 ∨ c = 3 ∨ c = 4 ∨ c = 5 ∨ c = 6 ∨ c = 7 := by
    revert c
    decide
  rcases this with rfl | rfl | rfl | rfl | rfl | rfl | rfl | rfl <;> rfl

/-! ### Length forms -/

/-- R171, R173 to R175: the length selects exactly one row, and that row's header is what acceptance builds. -/
theorem lenForm_cases (len : Word64) (e : EncRegs) :
    (len ≤ 125#64 ∧ lenForm len = .encLenDirect (len.setWidth 7) ∧ encLenForm len e = encDirect (len.setWidth 7) e) ∨
      (125#64 < len ∧ len ≤ 65535#64 ∧ lenForm len = .encLenExt16 ∧ encLenForm len e = encExt16 len e) ∨
      (65535#64 < len ∧ lenForm len = .encLenExt64 ∧ encLenForm len e = encExt64 len e) := by
  unfold lenForm encLenForm
  by_cases h₁ : len ≤ 125#64
  · simp [h₁]
  · by_cases h₂ : len ≤ 65535#64
    · simp [h₁, h₂, BitVec.not_le.1 h₁]
    · simp [h₁, h₂, BitVec.not_le.1 h₂]

/-! ### Acceptance -/

/-- R171: what ENCODE's checks can answer. -/
theorem acceptEncode_next {s t : State} (h : acceptEncode s = .next t) :
    t = raise .invalidFrame s ∨
      ∃ fin op len, s.latch.fin = .of fin ∧ s.latch.opcode = .of op ∧ s.latch.len = .of len ∧
        isReservedOp op = false ∧ (isControlOp op = true → fin = true ∧ len ≤ 125#64) ∧
        len.toNat ≤ s.cfg.pbufBytes ∧ t = startEncode fin op len s := by
  have fits : ∀ {op : BitVec 4}, encodeFits op s = .next t → t = raise .invalidFrame s ∨
      ∃ fin len, s.latch.fin = .of fin ∧ s.latch.len = .of len ∧ len.toNat ≤ s.cfg.pbufBytes ∧
        t = startEncode fin op len s := by
    intro op h
    obtain ⟨len, hl, h⟩ := need_next.1 (show need _ _ = _ from h)
    split_ifs at h with hc
    · exact .inl (by simpa using h.symm)
    · obtain ⟨fin, hf, h⟩ := need_next.1 h
      exact .inr ⟨fin, len, Reg.read_ok.1 hf, Reg.read_ok.1 hl, by omega, by simpa using h.symm⟩
  obtain ⟨op, ho, h⟩ := need_next.1 (show need _ _ = _ from h)
  have ho := Reg.read_ok.1 ho
  split_ifs at h with hr hc
  · exact .inl (by simpa using h.symm)
  · obtain ⟨fin, hf, h⟩ := need_next.1 h
    have hf := Reg.read_ok.1 hf
    cases fin with
    | false => exact .inl (by simpa using h.symm)
    | true =>
      obtain ⟨len, hl, h⟩ := need_next.1 (by simpa using h)
      have hl := Reg.read_ok.1 hl
      split_ifs at h with hlen
      · exact .inl (by simpa using h.symm)
      · rcases fits h with h | ⟨fin', len', hf', hl', hp, ht⟩
        · exact .inl h
        · right
          rw [hf] at hf'
          rw [hl] at hl'
          obtain rfl : true = fin' := by simpa using hf'
          obtain rfl : len = len' := by simpa using hl'
          exact ⟨_, op, len, hf, ho, hl, by simpa using hr, fun _ => ⟨rfl, BitVec.not_lt.1 hlen⟩, hp, ht⟩
  · rcases fits h with h | ⟨fin, len, hf, hl, hp, ht⟩
    · exact .inl h
    · exact .inr ⟨fin, op, len, hf, ho, hl, by simpa using hr, fun hc' => absurd hc' hc, hp, ht⟩

end Sys2Proof.Machine
end

