-- ==== Sys2Proof/Laws/Codec.lean ====
section
/-! SUPPORT. One inversion lemma per sequencer step: what the CODEC can do in each value of STATE. -/

namespace Sys2Proof.Machine

/-! ### Decoder -/

/-- R136: the state once the byte is counted and accumulated. -/
def extTaken (r : Byte) (s : State) : State :=
  { s with
    rx := { s.rx with frameBytes := ⟨s.rx.frameBytes.val + 1#64, s.rx.frameBytes.known⟩ }
    dec := { s.dec with extAcc := (s.dec.extAcc <<< 8) ||| r.setWidth 64, extCnt := s.dec.extCnt + 1#4 } }

theorem extByte_next {r : Byte} {s t : State} :
    extByte r s = .next t ↔
      (s.dec.extCnt + 1#4 ≠ s.dec.extNeed ∧ extTaken r s = t) ∨
      (s.dec.extCnt + 1#4 = s.dec.extNeed ∧ s.dec.extNeed ≠ 2#4 ∧ (extTaken r s).dec.extAcc.msb = true ∧
        raise .lengthOverflow (extTaken r s) = t) ∨
      (s.dec.extCnt + 1#4 = s.dec.extNeed ∧ (s.dec.extNeed = 2#4 ∨ (extTaken r s).dec.extAcc.msb = false) ∧
        afterLength (extTaken r s).dec.extAcc (extTaken r s) = .next t) := by
  have h : extByte r s =
      if s.dec.extCnt + 1#4 = s.dec.extNeed then extDone (extTaken r s) else .next (extTaken r s) := rfl
  rw [h]
  by_cases hc : s.dec.extCnt + 1#4 = s.dec.extNeed
  · have hn : (extTaken r s).dec.extNeed = s.dec.extNeed := rfl
    simp only [hc, if_true, extDone, hn, ne_eq, not_true, false_and, false_or, true_and]
    by_cases h2 : s.dec.extNeed = 2#4
    · simp [h2]
    · cases hm : (extTaken r s).dec.extAcc.msb <;> simp [h2]
  · simp [hc]

/-- R140: the state once the key byte is stored. -/
def keyTaken (key : Vector (Reg Byte) 4) (s : State) : State :=
  { s with
    rx := { s.rx with key := key, frameBytes := ⟨s.rx.frameBytes.val + 1#64, s.rx.frameBytes.known⟩ }
    dec := { s.dec with keyCnt := s.dec.keyCnt + 1#3 } }

theorem storeKey_ok {key key' : Vector (Reg Byte) 4} {i : Nat} {r : Byte} :
    storeKey key i r = .ok key' ↔ ∃ h : i < 4, key.set i (.of r) = key' := by
  unfold storeKey
  split_ifs with h <;> simp [h]

theorem keyByteTaken_next {r : Byte} {s t : State} :
    keyByteTaken r s = .next t ↔
      ∃ h : s.dec.keyCnt.toNat < 4,
        (s.dec.keyCnt + 1#3 ≠ 4#3 ∧ keyTaken (s.rx.key.set s.dec.keyCnt.toNat (.of r)) s = t) ∨
        (s.dec.keyCnt + 1#3 = 4#3 ∧ ∃ len, s.rx.len = .of len ∧
          { keyTaken (s.rx.key.set s.dec.keyCnt.toNat (.of r)) s with
            seq := if 0#64 < len then .dPay else .dChk } = t) := by
  have h : keyByteTaken r s = need (storeKey s.rx.key s.dec.keyCnt.toNat r) fun key =>
      if s.dec.keyCnt + 1#3 = 4#3 then
        need s.rx.len.read fun len =>
          if 0#64 < len then .next { keyTaken key s with seq := .dPay } else .next { keyTaken key s with seq := .dChk }
      else .next (keyTaken key s) := rfl
  rw [h, need_next]
  simp only [storeKey_ok]
  constructor
  · rintro ⟨key, ⟨hk, rfl⟩, h⟩
    refine ⟨hk, ?_⟩
    by_cases hc : s.dec.keyCnt + 1#3 = 4#3
    · rw [if_pos hc, need_next] at h
      obtain ⟨len, hl, h⟩ := h
      refine .inr ⟨hc, len, Reg.read_ok.1 hl, ?_⟩
      by_cases h0 : 0#64 < len <;> simpa [h0] using h
    · rw [if_neg hc] at h
      exact .inl ⟨hc, by simpa using h⟩
  · rintro ⟨hk, h⟩
    refine ⟨_, ⟨hk, rfl⟩, ?_⟩
    rcases h with ⟨hc, ht⟩ | ⟨hc, len, hl, ht⟩
    · rw [if_neg hc, ht]
    · rw [if_pos hc, need_next]
      refine ⟨len, Reg.read_ok.2 hl, ?_⟩
      by_cases h0 : 0#64 < len <;> simpa [h0] using ht

theorem unmasked_ok {r v : Byte} {s : State} :
    unmasked r s = .ok v ↔
      (s.rx.masked = .of false ∧ r = v) ∨
      (s.rx.masked = .of true ∧ ∃ k, keyByte s.rx.key s.dec.payCnt.toNat = .of k ∧ r ^^^ k = v) := by
  unfold unmasked
  cases h : s.rx.masked.read with
  | error f =>
    have : ∀ b, s.rx.masked ≠ .of b := fun b hb => by simp [hb] at h
    simp [this]
  | ok b =>
    have hb := Reg.read_ok.1 h
    cases b with
    | false => simp [hb]
    | true =>
      simp only [hb, Reg.of]
      cases hk : (keyByte s.rx.key s.dec.payCnt.toNat).read with
      | error f =>
        have : ∀ k, keyByte s.rx.key s.dec.payCnt.toNat ≠ .of k := fun k h => by simp [h] at hk
        simp [this]
      | ok k =>
        have := Reg.read_ok.1 hk
        simp [this]

/-- R141: the state once the payload byte is stored. -/
def payTaken (v : Byte) (s : State) : State :=
  { s with
    rx := { s.rx with frameBytes := ⟨s.rx.frameBytes.val + 1#64, s.rx.frameBytes.known⟩ }
    buf := { s.buf with rxPbuf := s.buf.rxPbuf.put s.dec.payCnt.toNat v }
    dec := { s.dec with payCnt := s.dec.payCnt + 1#64 } }

theorem payByte_next {r : Byte} {s t : State} :
    payByte r s = .next t ↔
      ∃ v len, unmasked r s = .ok v ∧ s.dec.payCnt.toNat < s.cfg.pbufBytes ∧ s.rx.len = .of len ∧
        { payTaken v s with seq := if s.dec.payCnt + 1#64 = len then .dChk else s.seq } = t := by
  have h : payByte r s = need (unmasked r s) fun v =>
      need (s.buf.rxPbuf.store s.cfg.pbufBytes s.dec.payCnt.toNat v) fun m =>
        need s.rx.len.read fun len =>
          let t := { payTaken v s with buf := { s.buf with rxPbuf := m } }
          if s.dec.payCnt + 1#64 = len then .next { t with seq := .dChk } else .next t := rfl
  rw [h, need_next]
  constructor
  · rintro ⟨v, hv, h⟩
    obtain ⟨m, hm, h⟩ := need_next.1 h
    obtain ⟨ha, rfl⟩ := Memory.store_ok.1 hm
    obtain ⟨len, hl, h⟩ := need_next.1 h
    refine ⟨v, len, hv, ha, Reg.read_ok.1 hl, ?_⟩
    by_cases hc : s.dec.payCnt + 1#64 = len <;> simpa [hc, payTaken] using h
  · rintro ⟨v, len, hv, ha, hl, h⟩
    refine ⟨v, hv, need_next.2 ⟨_, Memory.store_ok.2 ⟨ha, rfl⟩, need_next.2 ⟨len, Reg.read_ok.2 hl, ?_⟩⟩⟩
    by_cases hc : s.dec.payCnt + 1#64 = len <;> simpa [hc, payTaken] using h

/-- R144, R145: a control frame is checked, a data frame is not. -/
theorem stepChk_next {s t : State} (h : stepChk s = .next t) :
    ∃ op, s.rx.opcode = .of op ∧
      ((isControlOp op = false ∧ t = completeDecode s) ∨
        (isControlOp op = true ∧ s.rx.fin = .of false ∧ t = raise .invalidControlFrame s) ∨
        (isControlOp op = true ∧ s.rx.fin = .of true ∧ ∃ len, s.rx.len = .of len ∧
          ((125#64 < len ∧ t = raise .invalidControlFrame s) ∨ (len ≤ 125#64 ∧ t = completeDecode s)))) := by
  obtain ⟨op, ho, h⟩ := need_next.1 (show need _ _ = _ from h)
  refine ⟨op, Reg.read_ok.1 ho, ?_⟩
  cases hc : isControlOp op with
  | false => exact .inl ⟨rfl, by simpa [hc] using h.symm⟩
  | true =>
    right
    simp only [hc, if_true] at h
    obtain ⟨fin, hf, h⟩ := need_next.1 h
    cases fin with
    | false => exact .inl ⟨rfl, Reg.read_ok.1 hf, by simpa using h.symm⟩
    | true =>
      simp only [if_true] at h
      obtain ⟨len, hl, h⟩ := need_next.1 h
      refine .inr ⟨rfl, Reg.read_ok.1 hf, len, Reg.read_ok.1 hl, ?_⟩
      by_cases hb : 125#64 < len
      · exact .inl ⟨hb, by simpa [hb] using h.symm⟩
      · exact .inr ⟨BitVec.not_lt.1 hb, by simpa [hb] using h.symm⟩

/-! ### Encoder -/

/-- R177: a header byte handed to the sink and counted. -/
def hdrSent (b : Byte) (s : State) : State :=
  { s with
    env := { s.env with tx := s.env.tx ++ [b] }
    enc := { s.enc with
      txBytes := ⟨s.enc.txBytes.val + 1#64, s.enc.txBytes.known⟩
      cnt := s.enc.cnt + 1#4 } }

/-- R178: a payload byte handed to the sink and counted. -/
def paySent (b : Byte) (s : State) : State :=
  { s with
    env := { s.env with tx := s.env.tx ++ [b] }
    enc := { s.enc with
      txBytes := ⟨s.enc.txBytes.val + 1#64, s.enc.txBytes.known⟩
      payCnt := s.enc.payCnt + 1#64 } }

theorem hdrByte_ok {hdr : Vector Byte 10} {i : Nat} {b : Byte} :
    hdrByte hdr i = .ok b ↔ hdr[i]? = some b := by
  unfold hdrByte
  cases hdr[i]? <;> simp

theorem stepHdr_next {s t : State} :
    stepHdr s = .next t ↔
      (s.env.txReady = false ∧ s = t) ∨
        (s.env.txReady = true ∧ ∃ b, s.enc.hdr[s.enc.cnt.toNat]? = some b ∧
          ((s.enc.cnt + 1#4 ≠ s.enc.hdrLen ∧ hdrSent b s = t) ∨
            (s.enc.cnt + 1#4 = s.enc.hdrLen ∧ ∃ len, s.latch.len = .of len ∧
              (if 0#64 < len then { hdrSent b s with seq := .ePay } else complete (hdrSent b s)) = t))) := by
  have h : stepHdr s = whenTxReady s (need (hdrByte s.enc.hdr s.enc.cnt.toNat) fun b =>
      if s.enc.cnt + 1#4 = s.enc.hdrLen then
        need s.latch.len.read fun len =>
          if 0#64 < len then .next { hdrSent b s with seq := .ePay } else .next (complete (hdrSent b s))
      else .next (hdrSent b s)) := rfl
  rw [h, whenTxReady_next, or_comm]
  refine or_congr Iff.rfl (and_congr_right fun _ => ?_)
  simp only [need_next, hdrByte_ok]
  refine exists_congr fun b => and_congr_right fun _ => ?_
  by_cases hc : s.enc.cnt + 1#4 = s.enc.hdrLen
  · rw [if_pos hc, need_next]
    simp only [Reg.read_ok]
    constructor
    · rintro ⟨len, hl, ht⟩
      refine .inr ⟨hc, len, hl, ?_⟩
      by_cases h0 : 0#64 < len <;> simpa [h0] using ht
    · rintro (⟨hn, _⟩ | ⟨_, len, hl, ht⟩)
      · exact absurd hc hn
      · refine ⟨len, hl, ?_⟩
        by_cases h0 : 0#64 < len <;> simpa [h0] using ht
  · rw [if_neg hc]
    constructor
    · exact fun ht => .inl ⟨hc, Host.Outcome.next.inj ht⟩
    · rintro (⟨_, ht⟩ | ⟨hn, _⟩)
      · rw [ht]
      · exact absurd hn hc

theorem stepEncPay_next {s t : State} :
    stepEncPay s = .next t ↔
      (s.env.txReady = false ∧ s = t) ∨
        (s.env.txReady = true ∧ s.enc.payCnt.toNat < s.cfg.pbufBytes ∧
          ∃ b len, s.buf.txPbuf.find s.enc.payCnt.toNat = some b ∧ s.latch.len = .of len ∧
            (if s.enc.payCnt + 1#64 = len then complete (paySent b s) else paySent b s) = t) := by
  have h : stepEncPay s = whenTxReady s (need (s.buf.txPbuf.load s.cfg.pbufBytes s.enc.payCnt.toNat) fun b =>
      need s.latch.len.read fun len =>
        if s.enc.payCnt + 1#64 = len then .next (complete (paySent b s)) else .next (paySent b s)) := rfl
  rw [h, whenTxReady_next, or_comm]
  simp only [need_next, Memory.load_ok, Reg.read_ok]
  refine or_congr Iff.rfl (and_congr_right fun _ => ?_)
  constructor
  · rintro ⟨b, ⟨ha, hb⟩, len, hl, ht⟩
    refine ⟨ha, b, len, hb, hl, ?_⟩
    by_cases hc : s.enc.payCnt + 1#64 = len <;> simpa [hc] using ht
  · rintro ⟨ha, b, len, hb, hl, ht⟩
    refine ⟨b, ⟨ha, hb⟩, len, hl, ?_⟩
    by_cases hc : s.enc.payCnt + 1#64 = len <;> simpa [hc] using ht

/-! ### Atomic bodies -/

theorem stepMask_next {s t : State} :
    stepMask s = .next t ↔
      ∃ len m, s.latch.len = .of len ∧
        maskBuffer s.latch.key s.cfg.pbufBytes s.buf.txPbuf 0 len.toNat = .ok m ∧
        complete { s with buf := { s.buf with txPbuf := m } } = t := by
  simp only [stepMask, need_next, Reg.read_ok, Host.Outcome.next.injEq]
  constructor
  · rintro ⟨len, hl, m, hm, h⟩
    exact ⟨len, m, hl, hm, h⟩
  · rintro ⟨len, m, hl, hm, h⟩
    exact ⟨len, hl, m, hm, h⟩

theorem stepAccept_next {s t : State} :
    stepAccept s = .next t ↔
      ∃ n nonce, s.latch.nonceLen = .of n ∧ s.buf.nonceBuf.loadBytes s.cfg.nonceMax 0 n.toNat = .ok nonce ∧
        completeAccept { s with
          sha := sha1Run (acceptMessage nonce)
          acc := { s.acc with
            digest := digestOf (sha1Run (acceptMessage nonce)).hash
            acceptOut := base64 (digestOf (sha1Run (acceptMessage nonce)).hash) } } = t := by
  simp only [stepAccept, need_next, Reg.read_ok, Host.Outcome.next.injEq]
  constructor
  · rintro ⟨n, hn, nonce, hm, h⟩
    exact ⟨n, nonce, hn, hm, h⟩
  · rintro ⟨n, nonce, hn, hm, h⟩
    exact ⟨n, hn, nonce, hm, h⟩

/-! ### Acceptance -/

/-- R101 with R121, R171, R194, R201: what a command offered to an idle block can do. -/
theorem accept_next {c : Cmd} {s t : State} (hs : s.seq = .idle) (h : exec (decodeCmd c) s = .next t) :
    (c = 1 ∧ t = startDecode (latchOperands 1#3 s)) ∨
      (c = 2 ∧ acceptEncode
        { latchOperands 2#3 s with enc := { s.enc with txBytes := .of 0#64 } } = .next t) ∨
      (c = 3 ∧ ∃ len, s.op.len = .of len ∧
        t = if s.cfg.pbufBytes < len.toNat then raise .operandRange (latchOperands 3#3 s)
          else { latchOperands 3#3 s with seq := .mRun }) ∨
      (c = 4 ∧ ∃ n, s.op.nonceLen = .of n ∧
        let u : State := { latchOperands 4#3 s with acc := { s.acc with valid := false } }
        t = if n = 0#64 then raise .invalidInput u
          else if s.cfg.nonceMax < n.toNat then raise .operandRange u else { u with seq := .aRun }) ∨
      ((c = 0 ∨ c = 5 ∨ c = 6 ∨ c = 7) ∧ t = raise .illegalCommand (latchOperands c s)) := by
  rw [exec_decodeCmd] at h
  have all : ∀ c : Cmd, c = 0 ∨ c = 1 ∨ c = 2 ∨ c = 3 ∨ c = 4 ∨ c = 5 ∨ c = 6 ∨ c = 7 := by decide
  rcases all c with rfl | rfl | rfl | rfl | rfl | rfl | rfl | rfl
  case inr.inl => exact .inl ⟨rfl, by simpa [execDecode, hs] using h.symm⟩
  case inr.inr.inl => exact .inr (.inl ⟨rfl, by simpa [execEncode, hs] using h⟩)
  case inr.inr.inr.inl =>
    refine .inr (.inr (.inl ⟨rfl, ?_⟩))
    obtain ⟨len, hl, h⟩ := need_next.1 (show need _ _ = _ by simpa [execMaskApply, hs] using h)
    refine ⟨len, Reg.read_ok.1 hl, ?_⟩
    by_cases hp : s.cfg.pbufBytes < len.toNat <;> simpa [hp] using h.symm
  case inr.inr.inr.inr.inl =>
    refine .inr (.inr (.inr (.inl ⟨rfl, ?_⟩)))
    obtain ⟨n, hn, h⟩ := need_next.1 (show need _ _ = _ by simpa [execAcceptKey, hs] using h)
    refine ⟨n, Reg.read_ok.1 hn, ?_⟩
    by_cases h0 : n = 0#64
    · simpa [h0, hs] using h.symm
    · by_cases hp : s.cfg.nonceMax < n.toNat <;> simpa [h0, hp, hs] using h.symm
  all_goals
    refine .inr (.inr (.inr (.inr ⟨by decide, ?_⟩)))
    simpa [refuseCommand, hs] using h.symm

end Sys2Proof.Machine
end

