-- ==== Sys2Proof/Laws/Turns.lean ====
section
/-! SUPPORT. One inversion lemma for the step of the whole machine, and what no turn of the CODEC touches. -/

namespace Sys2Proof.Machine

/-- 10_state.md R20, 30_encoding.md R106: every next state is a CODEC turn's, or one action of another agent on the
state with the rest of the agenda. -/
inductive StepTo (s t : State) : Prop where
  /-- The CODEC moves: on its own turn, with an empty agenda, or while HOST cannot go on. -/
  | codec (u : State) (agenda : u = s ∨ ∃ rest, s.env.agenda = .codec :: rest ∧ u = withAgenda rest s)
      (turn : codecTurn u = .next t)
  | offer (c : Cmd) (rest : List Turn) (agenda : s.env.agenda = .offer c :: rest) (free : s.env.offer = none)
      (result : t = { withAgenda rest s with env := { s.env with offer := some c, agenda := rest } })
  | write (w : HostWrite) (rest : List Turn) (agenda : s.env.agenda = .write w :: rest)
      (result : hostWrite w (withAgenda rest s) = .next t)
  | read (r : HostRead) (rest : List Turn) (agenda : s.env.agenda = .read r :: rest)
      (result : hostRead r (withAgenda rest s) = .next t)
  | copyByte (a b : Nat) (rest : List Turn) (agenda : s.env.agenda = .copyByte a b :: rest)
      (result : hostCopy a b (withAgenda rest s) = .next t)
  | wait (rest : List Turn) (agenda : s.env.agenda = .wait :: rest) (ended : waitOver s = true)
      (result : t = withAgenda rest s)
  | abort (rest : List Turn) (agenda : s.env.agenda = .abort :: rest)
      (result : t = Machine.abort (withAgenda rest s))
  | reset (rest : List Turn) (agenda : s.env.agenda = .reset :: rest)
      (result : t = blockReset (withAgenda rest s))
  | rxAppend (bytes : List Byte) (rest : List Turn) (agenda : s.env.agenda = .rxAppend bytes :: rest)
      (result : t = Machine.rxAppend bytes (withAgenda rest s))
  | rxClose (rest : List Turn) (agenda : s.env.agenda = .rxClose :: rest)
      (result : t = { s with env := { s.env with rxClosed := true, agenda := rest } })
  | txSink (ready : Bool) (rest : List Turn) (agenda : s.env.agenda = .txSink ready :: rest)
      (result : t = { s with env := { s.env with txReady := ready, agenda := rest } })

theorem step_next {s t : State} (h : step s = .next t) : StepTo s t := by
  unfold step nextTurn at h
  cases ha : s.env.agenda with
  | nil => exact .codec s (.inl rfl) (by simpa [ha] using h)
  | cons turn rest =>
    simp only [ha] at h
    cases turn with
    | codec => exact .codec _ (.inr ⟨rest, ha, rfl⟩) h
    | offer c =>
      simp only [takeTurn] at h
      cases ho : s.env.offer with
      | none => exact .offer c rest ha ho (by simpa [ho] using h.symm)
      | some d => exact .codec s (.inl rfl) (by simpa [ho] using h)
    | write w => exact .write w rest ha h
    | read r => exact .read r rest ha h
    | copyByte a b => exact .copyByte a b rest ha h
    | wait =>
      simp only [takeTurn] at h
      cases hw : waitOver s with
      | true => exact .wait rest ha hw (by simpa [hw] using h.symm)
      | false => exact .codec s (.inl rfl) (by simpa [hw] using h)
    | abort => exact .abort rest ha (by simpa [takeTurn] using h.symm)
    | reset => exact .reset rest ha (by simpa [takeTurn] using h.symm)
    | rxAppend bytes => exact .rxAppend bytes rest ha (by simpa [takeTurn] using h.symm)
    | rxClose => exact .rxClose rest ha (by simpa [takeTurn] using h.symm)
    | txSink ready => exact .txSink ready rest ha (by simpa [takeTurn] using h.symm)

/-- With an empty agenda the step is the CODEC's. -/
theorem step_codec {s : State} (h : s.env.agenda = []) : step s = codecTurn s := by
  simp [step, nextTurn, h]

/-- R106 COPY: one byte of RX_PBUF, read as a result, lands in TX_PBUF. -/
theorem hostCopy_next {a b : Nat} {s t : State} (h : hostCopy a b s = .next t) :
    ∃ v, readHazard (.rxPbuf a) s.seq = false ∧ readValue (.rxPbuf a) s = .ok v ∧
      hostWrite (.txPbuf b (BitVec.ofNat 8 v)) s = .next t := by
  unfold hostCopy at h
  cases hz : readHazard (.rxPbuf a) s.seq with
  | true => simp [hz] at h
  | false =>
    simp only [hz] at h
    obtain ⟨v, hv, h⟩ := need_next.1 (by simpa using h)
    exact ⟨v, rfl, hv, h⟩

end Sys2Proof.Machine
end

