-- ==== Sys2Proof/Laws/Deliveries.lean ====
section
/-! SUPPORT. When bytes arrive, and when the sink is ready, changes no result (20_memory.md R77, R78,
70_reset_and_hazards.md R279): a run over any deliveries ends where the run ends that finds them all delivered. -/

namespace Sys2Proof.Machine

/-! ### One step, other surroundings -/

/-- A given RX stream, sink readiness and agenda around the same block. -/
def surround (rx : List Byte) (closed ready : Bool) (agenda : List Turn) (s : State) : State :=
  { s with env := { s.env with rx := rx, rxClosed := closed, txReady := ready, agenda := agenda } }

/-- More bytes behind those at hand, and a given rest of the surroundings. -/
def later (more : List Byte) (closed ready : Bool) (agenda : List Turn) (s : State) : State :=
  surround (s.env.rx ++ more) closed ready agenda s

/-- The answer, with its next state changed. -/
def mapNext (f : State → State) : Result → Result
  | .next t => .next (f t)
  | .fault e => .fault e
  | .refused r => .refused r

@[simp] theorem mapNext_next (f : State → State) (t : State) : mapNext f (.next t) = .next (f t) := rfl

theorem mapNext_need {α : Type} (f : State → State) (e : Except Fault α) (k : α → Result) :
    mapNext f (need e k) = need e fun v => mapNext f (k v) := by
  cases e <;> rfl

theorem mapNext_ite (f : State → State) (c : Prop) [Decidable c] (x y : Result) :
    mapNext f (if c then x else y) = if c then mapNext f x else mapNext f y := by
  split <;> rfl

/-- The body of a step does not look at the surroundings. -/
def Blind (k : State → Result) : Prop :=
  ∀ rx closed ready agenda s,
    k (surround rx closed ready agenda s) = mapNext (surround rx closed ready agenda) (k s)

/-- A body that does not look at the RX stream leaves it, so bytes that come later stay behind it. -/
theorem Blind.later {k : State → Result} (h : Blind k) (more : List Byte) (closed ready : Bool) (agenda : List Turn)
    (s : State) : k (later more closed ready agenda s) = mapNext (later more closed ready agenda) (k s) := by
  have hk : k s = mapNext (surround s.env.rx s.env.rxClosed s.env.txReady s.env.agenda) (k s) := h _ _ _ _ s
  rw [Machine.later, h]
  cases hs : k s with
  | next t =>
    rw [hs, mapNext_next, Host.Outcome.next.injEq] at hk
    have hrx : t.env.rx = s.env.rx := by rw [hk]; rfl
    simp only [mapNext_next, Machine.later, hrx]
  | fault e => rfl
  | refused r => rfl

theorem exec_blind (i : Instr) : Blind (exec i) := by
  intro rx closed ready agenda s
  cases i <;>
    simp only [exec, execContinuation, execText, execBinary, execClose, execPing, execPong, execRsvBit6Set,
      execRsvBit5Set, execRsvBit4Set, execReservedOp3, execReservedOp4To7, execReservedOpB, execReservedOpCToF,
      execLenDirect, execLenExt16, execLenExt64, execEncLenDirect, execEncLenExt16, execEncLenExt64, execDecode,
      execEncode, execMaskApply, execAcceptKey, execReservedCmd000, execReservedCmd101, execReservedCmd110,
      execReservedCmd111, refuseCommand, applyForm, headerByte0, afterLength, acceptEncode, encodeFits, inPhase,
      mapNext_need, mapNext_ite, mapNext_next] <;>
    rfl

theorem extByte_blind (b : Byte) : Blind (extByte b) := by
  intro rx closed ready agenda s
  simp only [extByte, extDone, afterLength, mapNext_need, mapNext_ite, mapNext_next]
  rfl

theorem keyByteTaken_blind (b : Byte) : Blind (keyByteTaken b) := by
  intro rx closed ready agenda s
  simp only [keyByteTaken, mapNext_need, mapNext_ite, mapNext_next]
  rfl

theorem payByte_blind (b : Byte) : Blind (payByte b) := by
  intro rx closed ready agenda s
  simp only [payByte, mapNext_need, mapNext_ite, mapNext_next]
  rfl

theorem stepChk_blind : Blind stepChk := by
  intro rx closed ready agenda s
  simp only [stepChk, mapNext_need, mapNext_ite, mapNext_next]
  rfl

theorem stepMask_blind : Blind stepMask := by
  intro rx closed ready agenda s
  simp only [stepMask, mapNext_need, mapNext_next]
  rfl

theorem stepAccept_blind : Blind stepAccept := by
  intro rx closed ready agenda s
  simp only [stepAccept, mapNext_need, mapNext_next]
  rfl

/-- R76: the STATE values in which the CODEC waits for a byte. -/
def Seq.taking : Seq → Bool
  | .dB0 | .dB1 | .dExt | .dKey | .dPay => true
  | .idle | .dChk | .eHdr | .ePay | .mRun | .aRun | .error => false

/-- R76: taking a byte that is at hand, or the end of the stream, is the same whatever comes later. -/
theorem rxTake_later {s : State} {e : ErrCode} {k : Byte → State → Result} (hk : ∀ b, Blind (k b))
    {more : List Byte} {closed ready : Bool} {agenda : List Turn}
    (h : s.env.rx ≠ [] ∨ (s.env.rxClosed = true ∧ more = [] ∧ closed = true)) :
    rxTake (later more closed ready agenda s) (.next (raise e (later more closed ready agenda s))) k =
      mapNext (later more closed ready agenda) (rxTake s (.next (raise e s)) k) := by
  cases hrx : s.env.rx with
  | cons b bs =>
    rw [rxTake_byte hrx, rxTake_byte (show (later more closed ready agenda s).env.rx = b :: (bs ++ more) by
      rw [later, hrx]; rfl)]
    exact (hk b).later more closed ready agenda { s with env := { s.env with rx := bs } }
  | nil =>
    obtain ⟨hc, rfl, rfl⟩ := h.resolve_left (fun h => h hrx)
    rw [rxTake_eos hrx hc, rxTake_eos (show (later [] true ready agenda s).env.rx = [] by rw [later, hrx]; rfl) rfl]
    rfl

theorem stepHdr_later {s : State} (more : List Byte) (closed : Bool) (agenda : List Turn) :
    stepHdr (later more closed s.env.txReady agenda s) =
      mapNext (later more closed s.env.txReady agenda) (stepHdr s) := by
  simp only [stepHdr, whenTxReady, mapNext_need, mapNext_ite, mapNext_next]
  rfl

theorem stepEncPay_later {s : State} (more : List Byte) (closed : Bool) (agenda : List Turn) :
    stepEncPay (later more closed s.env.txReady agenda s) =
      mapNext (later more closed s.env.txReady agenda) (stepEncPay s) := by
  simp only [stepEncPay, whenTxReady, mapNext_need, mapNext_ite, mapNext_next]
  rfl

/-- A turn of the CODEC that does not hold on the RX stream is the same turn whatever comes later. -/
theorem codecTurn_later {s : State} {more : List Byte} {closed ready : Bool} {agenda : List Turn}
    (hrx : s.seq.taking = true → s.env.rx ≠ [] ∨ (s.env.rxClosed = true ∧ more = [] ∧ closed = true))
    (htx : s.seq.encoding = true → ready = s.env.txReady) :
    codecTurn (later more closed ready agenda s) = mapNext (later more closed ready agenda) (codecTurn s) := by
  have hseq : (later more closed ready agenda s).seq = s.seq := rfl
  unfold codecTurn
  rw [hseq]
  cases hq : s.seq <;> simp only
  case idle =>
    have hoffer : (later more closed ready agenda s).env.offer = s.env.offer := rfl
    unfold stepIdle
    rw [hoffer]
    cases s.env.offer with
    | none => rfl
    | some c => exact (exec_blind (decodeCmd c)).later more closed ready agenda { s with env := { s.env with offer := none } }
  case dB0 => exact rxTake_later (fun b => exec_blind (decodeByte0 b)) (hrx (by rw [hq]; rfl))
  case dB1 => exact rxTake_later (fun b => exec_blind (decodeByte1 b)) (hrx (by rw [hq]; rfl))
  case dExt => exact rxTake_later extByte_blind (hrx (by rw [hq]; rfl))
  case dKey => exact rxTake_later keyByteTaken_blind (hrx (by rw [hq]; rfl))
  case dPay => exact rxTake_later payByte_blind (hrx (by rw [hq]; rfl))
  case dChk => exact stepChk_blind.later more closed ready agenda s
  case eHdr =>
    rw [htx (by rw [hq]; rfl)]
    exact stepHdr_later more closed agenda
  case ePay =>
    rw [htx (by rw [hq]; rfl)]
    exact stepEncPay_later more closed agenda
  case mRun => exact stepMask_blind.later more closed ready agenda s
  case aRun => exact stepAccept_blind.later more closed ready agenda s
  case error => rfl

/-! ### The bytes that a step does not take -/

/-- The same state with another RX stream. -/
def withRx (rx : List Byte) (s : State) : State := { s with env := { s.env with rx := rx } }

/-- A body that does not look at the RX stream does the same with another one, and leaves it alone. -/
theorem Blind.withRx {k : State → Result} (h : Blind k) (rx : List Byte) (s : State) :
    k (withRx rx s) = mapNext (withRx rx) (k s) := by
  have hk : k s = mapNext (surround s.env.rx s.env.rxClosed s.env.txReady s.env.agenda) (k s) := h _ _ _ _ s
  refine (h rx s.env.rxClosed s.env.txReady s.env.agenda s).trans ?_
  cases hs : k s with
  | next t =>
    rw [hs, mapNext_next, Host.Outcome.next.injEq] at hk
    rw [mapNext_next, mapNext_next, hk]
    rfl
  | fault e => rfl
  | refused r => rfl

theorem Blind.keeps {k : State → Result} (h : Blind k) {s t : State} (hs : k s = .next t) :
    t.env.rx = s.env.rx ∧ t.env.rxClosed = s.env.rxClosed := by
  have hk : k s = mapNext (surround s.env.rx s.env.rxClosed s.env.txReady s.env.agenda) (k s) := h _ _ _ _ s
  rw [hs, mapNext_next, Host.Outcome.next.injEq] at hk
  rw [hk]
  exact ⟨rfl, rfl⟩

/-- R75: in a STATE that takes no byte, the turn has nothing to do with the RX stream. -/
theorem codecTurn_withRx {s : State} (hq : s.seq.taking = false) (rx : List Byte) :
    codecTurn (withRx rx s) = mapNext (withRx rx) (codecTurn s) := by
  have hseq : (withRx rx s).seq = s.seq := rfl
  unfold codecTurn
  rw [hseq]
  cases h : s.seq <;> simp only [h, Seq.taking, Bool.true_eq_false] at hq <;> simp only
  case idle =>
    have hoffer : (withRx rx s).env.offer = s.env.offer := rfl
    unfold stepIdle
    rw [hoffer]
    cases s.env.offer with
    | none => rfl
    | some c => exact (exec_blind (decodeCmd c)).withRx rx { s with env := { s.env with offer := none } }
  case dChk => exact stepChk_blind.withRx rx s
  case eHdr =>
    simp only [stepHdr, whenTxReady, mapNext_need, mapNext_ite, mapNext_next]
    rfl
  case ePay =>
    simp only [stepEncPay, whenTxReady, mapNext_need, mapNext_ite, mapNext_next]
    rfl
  case mRun => exact stepMask_blind.withRx rx s
  case aRun => exact stepAccept_blind.withRx rx s
  case error => rfl

theorem rxTake_takes {s t : State} {e e' : Result} {k : Byte → State → Result} (hk : ∀ b, Blind (k b)) {b : Byte}
    {bs : List Byte} (hrx : s.env.rx = b :: bs) (h : rxTake s e k = .next t) (others : List Byte) :
    t.env.rx = bs ∧ t.env.rxClosed = s.env.rxClosed ∧
      rxTake (withRx (b :: others) s) e' k = .next (withRx others t) := by
  rw [rxTake_byte hrx] at h
  obtain ⟨h1, h2⟩ := (hk b).keeps h
  refine ⟨h1, h2, ?_⟩
  rw [rxTake_byte rfl]
  have hw := (hk b).withRx others { s with env := { s.env with rx := bs } }
  rw [h] at hw
  exact hw

/-- R75, R76: a turn that takes a byte takes the front one, and the bytes behind it have no part in it. -/
theorem codecTurn_takes {s t : State} (hq : s.seq.taking = true) {b : Byte} {bs : List Byte}
    (hrx : s.env.rx = b :: bs) (h : codecTurn s = .next t) (others : List Byte) :
    t.env.rx = bs ∧ t.env.rxClosed = s.env.rxClosed ∧
      codecTurn (withRx (b :: others) s) = .next (withRx others t) := by
  have hseq : (withRx (b :: others) s).seq = s.seq := rfl
  unfold codecTurn at h ⊢
  rw [hseq]
  cases hs : s.seq <;> simp only [hs, Seq.taking, Bool.false_eq_true] at hq h <;> simp only
  case dB0 => exact rxTake_takes (fun b => exec_blind (decodeByte0 b)) hrx h others
  case dB1 => exact rxTake_takes (fun b => exec_blind (decodeByte1 b)) hrx h others
  case dExt => exact rxTake_takes extByte_blind hrx h others
  case dKey => exact rxTake_takes keyByteTaken_blind hrx h others
  case dPay => exact rxTake_takes payByte_blind hrx h others

/-- Where the CODEC moves, the step is its turn, whatever the RX stream. -/
theorem codecMoves_step {s u : State} (h : codecMoves s u) :
    step s = codecTurn u ∧ s.seq = u.seq ∧ s.env.rx = u.env.rx ∧ s.env.rxClosed = u.env.rxClosed ∧
      ∀ rx, step (withRx rx s) = codecTurn (withRx rx u) := by
  rcases h with ⟨ha, rfl⟩ | ⟨rest, ha, rfl⟩ | ⟨c, d, rest, ha, ho, rfl⟩ | ⟨rest, ha, hw, rfl⟩
  · exact ⟨step_codec ha, rfl, rfl, rfl, fun _ => step_codec ha⟩
  · simp [step, nextTurn, ha, takeTurn, withAgenda, withRx]
  · simp [step, nextTurn, ha, takeTurn, ho, withRx]
  · refine ⟨by simp [step, nextTurn, ha, takeTurn, hw], rfl, rfl, rfl, fun rx => ?_⟩
    unfold step nextTurn
    simp only [withRx, ha, takeTurn]
    exact if_neg fun hover => Bool.false_ne_true (hw.symm.trans hover)

/-- R75: an end of stream, or a hold, leaves the RX stream as it is. -/
theorem codecTurn_empty {s t : State} (hq : s.seq.taking = true) (hrx : s.env.rx = []) (h : codecTurn s = .next t) :
    t.env.rx = s.env.rx ∧ t.env.rxClosed = s.env.rxClosed := by
  unfold codecTurn at h
  cases hc : s.env.rxClosed <;> cases hs : s.seq <;> simp only [hs, Seq.taking, Bool.false_eq_true] at hq h <;>
    simp [stepB0, stepB1, stepExt, stepKey, stepPay, rxTake, hrx, hc, raise] at h <;> subst h <;> simp [hrx, hc]

/-! ### Runs -/

/-- The state in which every byte of the agenda has been delivered, and the sink is as it will be. -/
def settled (s : State) : State :=
  surround (feed s) (closesBy s) (readyAfter s.env.txReady s.env.agenda) [] s

/-- The agenda holds turns of the CODEC, the RX source and the TX sink, and the sink ends up ready unless it makes no
turn. -/
def Settles (s : State) : Prop :=
  (∀ turn ∈ s.env.agenda, turn.delivers = true) ∨
    ((∀ turn ∈ s.env.agenda, turn.drains = true) ∧ readyAfter s.env.txReady s.env.agenda = true)

theorem readyAfter_delivers {ready : Bool} : ∀ {agenda : List Turn}, (∀ turn ∈ agenda, turn.delivers = true) →
    readyAfter ready agenda = ready
  | [], _ => rfl
  | turn :: rest, h => by
    have hrest := readyAfter_delivers (ready := ready) fun x hx => h x (List.mem_cons_of_mem _ hx)
    have ht := h turn List.mem_cons_self
    cases turn <;> first | exact hrest | cases ht

/-- A CODEC turn either holds, or does the same in the settled state. -/
theorem codecTurn_settled {s : State} (hr : readyAfter s.env.txReady s.env.agenda = s.env.txReady ∨
    readyAfter s.env.txReady s.env.agenda = true) :
    codecTurn s = .next s ∨
      (codecTurn (settled s) = mapNext settled (codecTurn s) ∧
        ∀ t, codecTurn s = .next t →
          t.env.agenda = s.env.agenda ∧ t.env.txReady = s.env.txReady ∧ t.env.rxClosed = s.env.rxClosed) := by
  by_cases hhold : s.seq.taking = true ∧ s.env.rx = [] ∧ s.env.rxClosed = false
  · obtain ⟨hq, hrx, hc⟩ := hhold
    left
    unfold codecTurn
    cases h : s.seq <;> first | exact rxTake_hold hrx hc _ _ | simp [h, Seq.taking] at hq
  by_cases hsink : s.seq.encoding = true ∧ s.env.txReady = false
  · obtain ⟨hq, ht⟩ := hsink
    left
    unfold codecTurn
    cases h : s.seq <;> first | simp [stepHdr, stepEncPay, whenTxReady, ht]; done | simp [h, Seq.encoding] at hq
  right
  have hown : codecTurn s =
      mapNext (later [] s.env.rxClosed s.env.txReady s.env.agenda) (codecTurn s) := by
    have h := codecTurn_later (s := s) (more := []) (closed := s.env.rxClosed) (ready := s.env.txReady)
      (agenda := s.env.agenda) (fun hq => ?_) (fun _ => rfl)
    · rw [← h]
      congr 1
      simp [later, surround]
    · by_cases hrx : s.env.rx = []
      · cases hc : s.env.rxClosed with
        | true => exact .inr ⟨rfl, rfl, rfl⟩
        | false => exact absurd ⟨hq, hrx, hc⟩ hhold
      · exact .inl hrx
  have hkeep : ∀ t, codecTurn s = .next t →
      t.env.agenda = s.env.agenda ∧ t.env.txReady = s.env.txReady ∧ t.env.rxClosed = s.env.rxClosed := by
    intro t ht
    rw [ht, mapNext_next, Host.Outcome.next.injEq] at hown
    rw [hown]
    exact ⟨rfl, rfl, rfl⟩
  refine ⟨?_, hkeep⟩
  have hlater := codecTurn_later (s := s) (more := if s.env.rxClosed then [] else delivered s.env.agenda)
    (closed := closesBy s) (ready := readyAfter s.env.txReady s.env.agenda) (agenda := []) (fun hq => ?_) (fun hq => ?_)
  · refine Eq.trans hlater ?_
    cases ht : codecTurn s with
    | next t =>
      obtain ⟨ha, hx, hc⟩ := hkeep t ht
      simp only [mapNext_next, later, settled, feed, closesBy, ha, hx, hc]
    | fault e => rfl
    | refused r => rfl
  · by_cases hrx : s.env.rx = []
    · cases hc : s.env.rxClosed with
      | true => exact .inr ⟨rfl, by simp, by simp [closesBy, hc]⟩
      | false => exact absurd ⟨hq, hrx, hc⟩ hhold
    · exact .inl hrx
  · rcases hr with hr | hr
    · exact hr
    · cases ht : s.env.txReady with
      | true => rwa [ht] at hr
      | false => exact absurd ⟨hq, ht⟩ hsink

theorem runSteps_fixed {v : State} (h : step v = .next v) : ∀ n, runSteps n v = .next v
  | 0 => rfl
  | n + 1 => by rw [runSteps, h]; exact runSteps_fixed h n

/-- One more step of a run that has come to rest. -/
theorem runSteps_succ {v : State} (h : step v = .next v) : ∀ {n : Nat} {s : State}, runSteps n s = .next v →
    runSteps (n + 1) s = .next v
  | 0, s, hs => by
    obtain rfl : s = v := by simpa [runSteps] using hs
    exact runSteps_fixed h 1
  | n + 1, s, hs => by
    rw [runSteps] at hs ⊢
    cases ht : step s with
    | next t => rw [ht] at hs; exact runSteps_succ h hs
    | fault e => rw [ht] at hs; cases hs
    | refused r => rw [ht] at hs; cases hs

/-- U20, R279: where the run with everything delivered comes to rest, the run over the deliveries comes to rest too,
after as many more steps as the agenda has turns. -/
theorem runSteps_settled {v : State} (hv : step v = .next v) :
    ∀ (agenda : List Turn) (k : Nat) (s : State), s.env.agenda = agenda → Settles s →
      runSteps k (settled s) = .next v → runSteps (agenda.length + k) s = .next v := by
  intro agenda
  induction agenda with
  | nil =>
    intro k s ha _ hk
    have hs : settled s = { s with env := { s.env with agenda := [] } } := by
      simp [settled, surround, feed, closesBy, delivered, readyAfter, ha]
    rw [← ha] at hs
    simpa [hs] using hk
  | cons turn rest ih =>
    intro k s ha hset hk
    have hlen : (turn :: rest).length + k = rest.length + k + 1 := by simp; omega
    rw [hlen, runSteps]
    have hrest : ∀ u : State, u.env.agenda = rest → readyAfter u.env.txReady rest = readyAfter s.env.txReady (turn :: rest) →
        Settles u := by
      intro u hu hready
      rcases hset with h | ⟨h, hr⟩
      · exact .inl fun x hx => h x (by rw [ha]; rw [hu] at hx; exact List.mem_cons_of_mem _ hx)
      · exact .inr ⟨fun x hx => h x (by rw [ha]; rw [hu] at hx; exact List.mem_cons_of_mem _ hx),
          by rw [hu, hready, ← ha]; exact hr⟩
    have hturn : turn.delivers = true ∨ turn.drains = true :=
      hset.imp (fun h => h turn (by rw [ha]; exact List.mem_cons_self))
        (fun h => h.1 turn (by rw [ha]; exact List.mem_cons_self))
    cases turn with
    | codec =>
      let u := withAgenda rest s
      have hstep : step s = codecTurn u := by simp [step, nextTurn, ha, takeTurn, u]
      have hsu : settled u = settled s := by
        simp [u, settled, surround, withAgenda, feed, closesBy, delivered, readyAfter, ha]
      have hready : readyAfter u.env.txReady u.env.agenda = u.env.txReady ∨ readyAfter u.env.txReady u.env.agenda = true := by
        rcases hrest u rfl rfl with h | h
        · exact .inl (readyAfter_delivers h)
        · exact .inr h.2
      rw [hstep]
      rcases codecTurn_settled hready with h | ⟨h, hkeep⟩
      · rw [h]
        exact ih k u rfl (hrest u rfl rfl) (by rw [hsu]; exact hk)
      · have hfull : step (settled s) = mapNext settled (codecTurn u) := by
          rw [← h, hsu]
          exact step_codec rfl
        have hgo : ∃ t j, codecTurn u = .next t ∧ runSteps j (settled t) = .next v ∧ j ≤ k ∧ k ≤ j + 1 := by
          cases k with
          | zero =>
            obtain hsv : settled s = v := by simpa [runSteps] using hk
            rw [hsv, hv] at hfull
            cases ht : codecTurn u with
            | next t =>
              rw [ht, mapNext_next, Host.Outcome.next.injEq] at hfull
              exact ⟨t, 0, rfl, by rw [← hfull]; rfl, by omega, by omega⟩
            | fault e => rw [ht] at hfull; cases hfull
            | refused r => rw [ht] at hfull; cases hfull
          | succ k =>
            rw [runSteps, hfull] at hk
            cases ht : codecTurn u with
            | next t => rw [ht] at hk; exact ⟨t, k, rfl, hk, by omega, by omega⟩
            | fault e => rw [ht] at hk; cases hk
            | refused r => rw [ht] at hk; cases hk
        obtain ⟨t, j, ht, hj, hjk, hkj⟩ := hgo
        obtain ⟨hta, htx, -⟩ := hkeep t ht
        have hset' : Settles t := hrest t hta (by rw [htx]; rfl)
        have hrun := ih j t hta hset' hj
        rw [ht]
        rcases Nat.lt_or_ge j k with hlt | hge
        · have : rest.length + k = rest.length + j + 1 := by omega
          rw [this]
          exact runSteps_succ hv hrun
        · obtain rfl : j = k := by omega
          exact hrun
    | rxAppend bytes =>
      have hstep : step s = .next (rxAppend bytes (withAgenda rest s)) := by simp [step, nextTurn, ha, takeTurn]
      rw [hstep]
      cases hc : s.env.rxClosed with
      | true =>
        refine ih k _ (by simp [rxAppend, withAgenda, hc]) (hrest _ (by simp [rxAppend, withAgenda, hc])
          (by simp [rxAppend, withAgenda, hc, readyAfter])) ?_
        rw [← hk]
        congr 1
        simp [rxAppend, withAgenda, hc, settled, surround, feed, closesBy, readyAfter, ha]
      | false =>
        refine ih k _ (by simp [rxAppend, withAgenda, hc]) (hrest _ (by simp [rxAppend, withAgenda, hc])
          (by simp [rxAppend, withAgenda, hc, readyAfter])) ?_
        rw [← hk]
        congr 1
        simp [rxAppend, withAgenda, hc, settled, surround, feed, closesBy, readyAfter, ha, delivered]
    | rxClose =>
      have hstep : step s = .next { s with env := { s.env with rxClosed := true, agenda := rest } } := by
        simp [step, nextTurn, ha, takeTurn]
      rw [hstep]
      refine ih k _ rfl (hrest _ rfl rfl) ?_
      rw [← hk]
      congr 1
      cases hc : s.env.rxClosed <;>
        simp [settled, surround, feed, closesBy, readyAfter, ha, delivered, hc]
    | txSink ready =>
      have hstep : step s = .next { s with env := { s.env with txReady := ready, agenda := rest } } := by
        simp [step, nextTurn, ha, takeTurn]
      rw [hstep]
      refine ih k _ rfl (hrest _ rfl rfl) ?_
      rw [← hk]
      congr 1
      simp [settled, surround, feed, closesBy, readyAfter, ha, delivered]
    | offer c => simp [Turn.delivers, Turn.drains] at hturn
    | write w => simp [Turn.delivers, Turn.drains] at hturn
    | read r => simp [Turn.delivers, Turn.drains] at hturn
    | copyByte a b => simp [Turn.delivers, Turn.drains] at hturn
    | wait => simp [Turn.delivers, Turn.drains] at hturn
    | abort => simp [Turn.delivers, Turn.drains] at hturn
    | reset => simp [Turn.delivers, Turn.drains] at hturn

end Sys2Proof.Machine
end

