-- ==== Sys2Proof/Laws/PerInstr.lean ====
section
/-! SUPPORT. The per-instruction family `TableRow`: the byte of every well-formed row has the fixed bits that
opcode_table.json gives the row, and the bits the row leaves free are no part of its mask. -/

namespace Sys2Proof.Laws.TableRow

/-- The row's byte matches the row: under the table's mask it is the table's match. -/
def Statement (i : Instr) : Prop :=
  i.wellFormed = true → encodeByte i &&& (tableRow i).2 = (tableRow i).1

theorem continuation (fin : Bool) : Statement (.continuation fin) := by
  revert fin
  unfold Statement
  decide

theorem text (fin : Bool) : Statement (.text fin) := by
  revert fin
  unfold Statement
  decide

theorem binary (fin : Bool) : Statement (.binary fin) := by
  revert fin
  unfold Statement
  decide

theorem close (fin : Bool) : Statement (.close fin) := by
  revert fin
  unfold Statement
  decide

theorem ping (fin : Bool) : Statement (.ping fin) := by
  revert fin
  unfold Statement
  decide

theorem pong (fin : Bool) : Statement (.pong fin) := by
  revert fin
  unfold Statement
  decide

theorem rsvBit6Set (fin : Bool) (rsv54 : BitVec 2) (op : BitVec 4) : Statement (.rsvBit6Set fin rsv54 op) := by
  revert fin rsv54 op
  unfold Statement
  decide

theorem rsvBit5Set (fin : Bool) (rsv4 : Bool) (op : BitVec 4) : Statement (.rsvBit5Set fin rsv4 op) := by
  revert fin rsv4 op
  unfold Statement
  decide

theorem rsvBit4Set (fin : Bool) (op : BitVec 4) : Statement (.rsvBit4Set fin op) := by
  revert fin op
  unfold Statement
  decide

theorem reservedOp3 (fin : Bool) : Statement (.reservedOp3 fin) := by
  revert fin
  unfold Statement
  decide

theorem reservedOp4To7 (fin : Bool) (low : BitVec 2) : Statement (.reservedOp4To7 fin low) := by
  revert fin low
  unfold Statement
  decide

theorem reservedOpB (fin : Bool) : Statement (.reservedOpB fin) := by
  revert fin
  unfold Statement
  decide

theorem reservedOpCToF (fin : Bool) (low : BitVec 2) : Statement (.reservedOpCToF fin low) := by
  revert fin low
  unfold Statement
  decide

theorem lenDirect (mask : Bool) (len7 : BitVec 7) : Statement (.lenDirect mask len7) := by
  revert mask len7
  unfold Statement
  decide

theorem lenExt16 (mask : Bool) : Statement (.lenExt16 mask) := by
  revert mask
  unfold Statement
  decide

theorem lenExt64 (mask : Bool) : Statement (.lenExt64 mask) := by
  revert mask
  unfold Statement
  decide

theorem encLenDirect (len7 : BitVec 7) : Statement (.encLenDirect len7) := by
  revert len7
  unfold Statement
  decide

theorem encLenExt16 : Statement .encLenExt16 := by
  unfold Statement
  decide

theorem encLenExt64 : Statement .encLenExt64 := by
  unfold Statement
  decide

theorem decode : Statement .decode := by
  unfold Statement
  decide

theorem encode : Statement .encode := by
  unfold Statement
  decide

theorem maskApply : Statement .maskApply := by
  unfold Statement
  decide

theorem acceptKey : Statement .acceptKey := by
  unfold Statement
  decide

theorem reservedCmd000 : Statement .reservedCmd000 := by
  unfold Statement
  decide

theorem reservedCmd101 : Statement .reservedCmd101 := by
  unfold Statement
  decide

theorem reservedCmd110 : Statement .reservedCmd110 := by
  unfold Statement
  decide

theorem reservedCmd111 : Statement .reservedCmd111 := by
  unfold Statement
  decide

end Sys2Proof.Laws.TableRow
end

