-- ==== Sys2Proof/Tests/Slice0.lean ====
section
/-! SUPPORT. Small tests: ill-formed terms, words written out from the spec's encodings, one step an instruction with the
result that 95_test_vectors.md gives (the vector's name stands in the docstring), and a witness for the hypotheses of
every statement. -/

namespace Sys2Proof.Tests

open Sys2Proof.Machine

/-! ### Well-formedness -/

/-- 30_encoding.md R95: 126 is the EXT16 marker, not a length. -/
theorem test_lenDirect_126_ill_formed : (Instr.lenDirect true 126).wellFormed = false := by decide

theorem test_lenDirect_127_ill_formed : (Instr.lenDirect false 127).wellFormed = false := by decide

theorem test_lenDirect_125_well_formed : (Instr.lenDirect true 125).wellFormed = true := by decide

/-- 41_encode.md R173: the DIRECT form ends at 125. -/
theorem test_encLenDirect_126_ill_formed : (Instr.encLenDirect 126).wellFormed = false := by decide

theorem test_encLenDirect_125_well_formed : (Instr.encLenDirect 125).wellFormed = true := by decide

/-! ### Words written out from the encodings -/

theorem test_decode_continuation : decode .rxByte0 0b1_000_0000 = .ok (.continuation true) := by decide

theorem test_decode_text : decode .rxByte0 0b0_000_0001 = .ok (.text false) := by decide

theorem test_decode_binary : decode .rxByte0 0b1_000_0010 = .ok (.binary true) := by decide

theorem test_decode_close : decode .rxByte0 0b1_000_1000 = .ok (.close true) := by decide

theorem test_decode_ping : decode .rxByte0 0b0_000_1001 = .ok (.ping false) := by decide

theorem test_decode_pong : decode .rxByte0 0b1_000_1010 = .ok (.pong true) := by decide

/-- Vector D-E3: 0xF3 is a reserved-bit row, not a reserved-opcode row. -/
theorem test_decode_rsvBit6Set : decode .rxByte0 0b1_111_0011 = .ok (.rsvBit6Set true 0b11 0b0011) := by decide

theorem test_decode_rsvBit5Set : decode .rxByte0 0b0_011_0010 = .ok (.rsvBit5Set false true 0b0010) := by decide

/-- Vector D-E4. -/
theorem test_decode_rsvBit4Set : decode .rxByte0 0b1_001_0010 = .ok (.rsvBit4Set true 0b0010) := by decide

theorem test_decode_reservedOp3 : decode .rxByte0 0b1_000_0011 = .ok (.reservedOp3 true) := by decide

/-- Vector D-E6. -/
theorem test_decode_reservedOp4To7 : decode .rxByte0 0b1_000_0111 = .ok (.reservedOp4To7 true 0b11) := by decide

/-- Vector D-E7. -/
theorem test_decode_reservedOpB : decode .rxByte0 0b0_000_1011 = .ok (.reservedOpB false) := by decide

/-- Vector D-E8. -/
theorem test_decode_reservedOpCToF : decode .rxByte0 0b1_000_1111 = .ok (.reservedOpCToF true 0b11) := by decide

theorem test_decode_lenDirect : decode .rxByte1 0b1_0000101 = .ok (.lenDirect true 5) := by decide

theorem test_decode_lenExt16 : decode .rxByte1 0b0_1111110 = .ok (.lenExt16 false) := by decide

theorem test_decode_lenExt64 : decode .rxByte1 0b1_1111111 = .ok (.lenExt64 true) := by decide

theorem test_decode_encLenDirect : decode .encByte1 0b0_1111101 = .ok (.encLenDirect 125) := by decide

theorem test_decode_encLenExt16 : decode .encByte1 0b0_1111110 = .ok .encLenExt16 := by decide

theorem test_decode_encLenExt64 : decode .encByte1 0b0_1111111 = .ok .encLenExt64 := by decide

/-- 41_encode.md R176: the encoder sets no MASK bit. -/
theorem test_decode_encByte1_mask : decode .encByte1 0b1_0000101 = .error .maskBitInEncoderByte := by decide

theorem test_decode_decode : decode .cmd 0b001 = .ok .decode := by decide

theorem test_decode_encode : decode .cmd 0b010 = .ok .encode := by decide

theorem test_decode_maskApply : decode .cmd 0b011 = .ok .maskApply := by decide

theorem test_decode_acceptKey : decode .cmd 0b100 = .ok .acceptKey := by decide

theorem test_decode_reservedCmds :
    decode .cmd 0b000 = .ok .reservedCmd000 ∧ decode .cmd 0b101 = .ok .reservedCmd101 ∧
      decode .cmd 0b110 = .ok .reservedCmd110 ∧ decode .cmd 0b111 = .ok .reservedCmd111 := by
  decide

/-- 30_encoding.md R100: a command code has three bits. -/
theorem test_decode_wide_command : decode .cmd 8 = .error .commandCodeTooWide := by decide

/-- opcode_table.json: three table words, each read at the port that log 9 gives it. -/
theorem test_table_words :
    decodeTableWord 8 0x88 = some (.close true) ∧ decodeTableWord 8 0xFE = some (.lenExt16 true) ∧
      decodeTableWord 3 3 = some .maskApply := by
  decide

/-! ### States for one step -/

/-- A field of the next state, if there is one. -/
def field {α : Type} (r : Result) (f : State → α) : Option α :=
  match r with
  | .next t => some (f t)
  | .fault _ | .refused _ => none

/-- A DECODE that has taken `n` bytes and waits in `q`, with bytes to come. -/
def receiving (q : Seq) (n : Word64) (bytes : List Byte) : State :=
  { startDecode State.reset with
    seq := q
    rx := { (startDecode State.reset).rx with frameBytes := .of n }
    env := { Env.quiet with rx := bytes } }

/-- An idle block with ENCODE or MASK_APPLY operands, five bytes "Hello" in TX_PBUF, and an offered command. -/
def ready (c : Cmd) (fin : Bool) (op : BitVec 4) (len : Word64) : State :=
  { State.reset with
    op := { Operands.atReset with
      fin := .of fin
      opcode := .of op
      len := .of len
      key := #v[.of 0x37, .of 0xFA, .of 0x21, .of 0x3D] }
    buf := { Buffers.atReset with txPbuf := [(0, 0x48), (1, 0x65), (2, 0x6C), (3, 0x6C), (4, 0x6F)] }
    env := { Env.quiet with offer := some c } }

/-- Operand registers with no value (10_state.md R35). -/
def noOperands : Operands where
  fin      := ⟨false, false⟩
  opcode   := ⟨0, false⟩
  masked   := ⟨false, false⟩
  len      := ⟨0, false⟩
  key      := Vector.replicate 4 ⟨0, false⟩
  nonceLen := ⟨0, false⟩

/-- The 24 nonce bytes of vector L1.1. -/
def sampleNonce : List Byte :=
  [0x64, 0x47, 0x68, 0x6C, 0x49, 0x48, 0x4E, 0x68, 0x62, 0x58, 0x42, 0x73] ++
    [0x5A, 0x53, 0x42, 0x75, 0x62, 0x32, 0x35, 0x6A, 0x5A, 0x51, 0x3D, 0x3D]

/-- A nonce in NONCE_BUF, its length in OP_NONCE_LEN, and ACCEPT_KEY offered. -/
def withNonce (nonce : List Byte) (n : Word64) : State :=
  { State.reset with
    op := { Operands.atReset with nonceLen := .of n }
    buf := { Buffers.atReset with nonceBuf := nonce.zipIdx.map fun p => (p.2, p.1) }
    env := { Env.quiet with offer := some 4 } }

/-! ### One step -/

/-- Vector D-F2, byte 0. -/
theorem test_continuation_step :
    field (step (receiving .dB0 0 [0x80, 0x02])) (fun t => (t.seq, t.rx.fin, t.rx.opcode, t.env.rx)) =
      some (.dB1, .of true, .of 0x0, [0x02]) := by
  decide

/-- Vector D-F1, byte 0. -/
theorem test_text_step :
    field (step (receiving .dB0 0 [0x01, 0x03])) (fun t => (t.seq, t.rx.fin, t.rx.opcode, t.rx.frameBytes)) =
      some (.dB1, .of false, .of 0x1, .of 1) := by
  decide

/-- Vector D-Z1, byte 0. -/
theorem test_binary_step :
    field (step (receiving .dB0 0 [0x82])) (fun t => (t.seq, t.rx.fin, t.rx.opcode)) = some (.dB1, .of true, .of 0x2) := by
  decide

/-- Vector D-C1, byte 0. -/
theorem test_close_step :
    field (step (receiving .dB0 0 [0x88])) (fun t => (t.seq, t.rx.fin, t.rx.opcode)) = some (.dB1, .of true, .of 0x8) := by
  decide

/-- Vector D-E19, byte 0: a control frame with FIN = 0 is not rejected here. -/
theorem test_ping_step :
    field (step (receiving .dB0 0 [0x09])) (fun t => (t.seq, t.rx.fin, t.rx.opcode)) = some (.dB1, .of false, .of 0x9) := by
  decide

/-- Vector D-G1, byte 0. -/
theorem test_pong_step :
    field (step (receiving .dB0 0 [0x8A])) (fun t => (t.seq, t.rx.fin, t.rx.opcode)) = some (.dB1, .of true, .of 0xA) := by
  decide

/-- Vector D-E2. -/
theorem test_rsvBit6Set_step :
    field (step (receiving .dB0 0 [0xC1])) (fun t => (t.status.errCode, t.status.errState, t.rx.rsv, t.rx.frameBytes)) =
      some (.reservedBitsSet, .dB0, .of 0b100, .of 1) := by
  decide

theorem test_rsvBit5Set_step :
    field (step (receiving .dB0 0 [0x3B])) (fun t => (t.status.errCode, t.rx.rsv, t.rx.opcode)) =
      some (.reservedBitsSet, .of 0b011, .of 0xB) := by
  decide

/-- Vector D-E4. -/
theorem test_rsvBit4Set_step :
    field (step (receiving .dB0 0 [0x92])) (fun t => (t.status.errCode, t.rx.rsv, t.rx.opcode)) =
      some (.reservedBitsSet, .of 0b001, .of 0x2) := by
  decide

/-- Vector D-E5. -/
theorem test_reservedOp3_step :
    field (step (receiving .dB0 0 [0x83])) (fun t => (t.status.errCode, t.status.errState, t.rx.opcode, t.rx.frameBytes)) =
      some (.invalidOpcode, .dB0, .of 0x3, .of 1) := by
  decide

/-- Vector D-E6. -/
theorem test_reservedOp4To7_step :
    field (step (receiving .dB0 0 [0x87])) (fun t => (t.status.errCode, t.rx.opcode)) = some (.invalidOpcode, .of 0x7) := by
  decide

/-- Vector D-E7. -/
theorem test_reservedOpB_step :
    field (step (receiving .dB0 0 [0x0B])) (fun t => (t.status.errCode, t.rx.fin, t.rx.opcode)) =
      some (.invalidOpcode, .of false, .of 0xB) := by
  decide

/-- Vector D-E8. -/
theorem test_reservedOpCToF_step :
    field (step (receiving .dB0 0 [0x8F])) (fun t => (t.status.errCode, t.rx.opcode)) = some (.invalidOpcode, .of 0xF) := by
  decide

/-- Vector D-E1: the end of the stream at a frame boundary. -/
theorem test_connection_closed :
    field (step { receiving .dB0 0 [] with env := { Env.quiet with rxClosed := true } })
      (fun t => (t.status.errCode, t.status.errState, t.rx.frameBytes)) = some (.connectionClosed, .dB0, .of 0) := by
  decide

/-- Vector D-T2, byte 1. -/
theorem test_lenDirect_masked_step :
    field (step (receiving .dB1 1 [0x85, 0x37])) (fun t => (t.seq, t.rx.masked, t.rx.len, t.rx.frameBytes)) =
      some (.dKey, .of true, .of 5, .of 2) := by
  decide

/-- Vector D-Z1, byte 1: no payload. -/
theorem test_lenDirect_zero_step :
    field (step (receiving .dB1 1 [0x00])) (fun t => (t.seq, t.rx.masked, t.rx.len)) = some (.dChk, .of false, .of 0) := by
  decide

/-- Vector D-B1, byte 1. -/
theorem test_lenExt16_step :
    field (step (receiving .dB1 1 [0x7E])) (fun t => (t.seq, t.rx.len7, t.dec.extNeed, t.rx.len.known)) =
      some (.dExt, .of 126, 2, false) := by
  decide

/-- Vector D-B2, byte 1, with the MASK bit set. -/
theorem test_lenExt64_step :
    field (step (receiving .dB1 1 [0xFF])) (fun t => (t.seq, t.rx.masked, t.dec.extNeed)) = some (.dExt, .of true, 8) := by
  decide

/-- Vector D-E9. -/
theorem test_truncated_byte1 :
    field (step { receiving .dB1 1 [] with env := { Env.quiet with rxClosed := true } })
      (fun t => (t.status.errCode, t.status.errState)) = some (.truncatedStream, .dB1) := by
  decide

/-- Vector E-8's header byte 1. -/
theorem test_encLenExt16_row :
    field (exec .encLenExt16 { State.reset with latch := { Operands.atReset with len := .of 126 } })
      (fun t => (t.enc.hdr[1], t.enc.hdr[2], t.enc.hdr[3], t.enc.hdrLen)) = some (0x7E, 0x00, 0x7E, 4) := by
  decide

/-- Vector E-7's header byte 1. -/
theorem test_encLenDirect_row :
    field (exec (.encLenDirect 125) { State.reset with latch := { Operands.atReset with len := .of 125 } })
      (fun t => (t.enc.hdr[1], t.enc.hdrLen)) = some (0x7D, 2) := by
  decide

/-- Vector E-11's header: a length of 70000. -/
theorem test_encLenExt64_row :
    field (exec .encLenExt64 { State.reset with latch := { Operands.atReset with len := .of 70000 } })
      (fun t => (t.enc.hdr.toList.drop 1, t.enc.hdrLen)) =
      some ([0x7F, 0x00, 0x00, 0x00, 0x00, 0x00, 0x01, 0x11, 0x70], 10) := by
  decide

/-- 40_decode.md R121. -/
theorem test_decode_accepted :
    field (step (ready 1 true 1 5)) (fun t => (t.seq, t.status.lastCmd, t.rx.frameBytes, t.env.offer)) =
      some (.dB0, 1, .of 0, none) := by
  decide

/-- Vector E-1's acceptance: byte 0 is 0x81, byte 1 is 0x05. -/
theorem test_encode_accepted :
    field (step (ready 2 true 1 5)) (fun t => (t.seq, t.enc.hdr[0], t.enc.hdr[1], t.enc.hdrLen)) =
      some (.eHdr, 0x81, 0x05, 2) := by
  decide

/-- Vector E-X3: a fragmented Ping. -/
theorem test_encode_refused :
    field (step (ready 2 false 9 0)) (fun t => (t.seq, t.status.errCode, t.status.errState, t.enc.txBytes)) =
      some (.error, .invalidFrame, .idle, .of 0) := by
  decide

/-- 42_mask_cipher.md R194. -/
theorem test_maskApply_accepted :
    field (step (ready 3 true 1 5)) (fun t => (t.seq, t.status.lastCmd, t.latch.len)) = some (.mRun, 3, .of 5) := by
  decide

/-- 42_mask_cipher.md R193's example. -/
theorem test_maskApply_body :
    field (runSteps 2 (ready 3 true 1 5)) (fun t => (t.seq, t.status.done, t.buf.txPbuf)) =
      some (.idle, true, [(0, 0x7F), (1, 0x9F), (2, 0x4D), (3, 0x51), (4, 0x58)]) := by
  decide

/-- 43_accept_key_sha1.md R201. -/
theorem test_acceptKey_accepted :
    field (step (withNonce [0x61] 1)) (fun t => (t.seq, t.acc.valid, t.latch.nonceLen)) = some (.aRun, false, .of 1) := by
  decide

/-- 43_accept_key_sha1.md R201: an empty nonce. -/
theorem test_acceptKey_empty :
    field (step (withNonce [] 0)) (fun t => (t.seq, t.status.errCode)) = some (.error, .invalidInput) := by
  decide

/-- 30_encoding.md R101. -/
theorem test_reserved_commands :
    [0, 5, 6, 7].map (fun c => field (step (ready c true 1 5)) fun t => (t.seq, t.status.errCode, t.status.lastCmd)) =
      [some (.error, .illegalCommand, 0), some (.error, .illegalCommand, 5), some (.error, .illegalCommand, 6),
        some (.error, .illegalCommand, 7)] := by
  decide

/-- Vector L1.1: the digest, by the rules of 43_accept_key_sha1.md. -/
theorem test_sha1_sample :
    (sha1 (sampleNonce ++ guidRom)).toList =
      [0xB3, 0x7A, 0x4F, 0x2C, 0xC0, 0x62, 0x4F, 0x16, 0x90, 0xF6] ++
        [0x46, 0x06, 0xCF, 0x38, 0x59, 0x45, 0xB2, 0xBE, 0xC4, 0xEA] := by
  decide +kernel

/-- Vector L1.1: "s3pPLMBiTxaQ9kYGzzhZRbK+xOo=", through the whole command. -/
theorem test_accept_key_sample :
    field (runSteps 2 (withNonce sampleNonce 24)) (fun t => (t.acc.valid, t.seq, t.acc.acceptOut.toList)) =
      some (true, .idle,
        [0x73, 0x33, 0x70, 0x50, 0x4C, 0x4D, 0x42, 0x69, 0x54, 0x78, 0x61, 0x51, 0x39, 0x6B] ++
          [0x59, 0x47, 0x7A, 0x7A, 0x68, 0x5A, 0x52, 0x62, 0x4B, 0x2B, 0x78, 0x4F, 0x6F, 0x3D]) := by
  decide +kernel

/-- Vector L1.1: a step from reset runs a table word as its first instruction. -/
theorem test_fetch_word :
    field (step (State.reset.withFetchWord 8 0x81)) (fun t => (t.seq, t.rx.opcode)) = some (.dB1, .of 1) := by
  decide

/-! ### Witnesses: encoding, the step -/

theorem witness_DecodeOfEncode :
    (Instr.lenDirect true 125).wellFormed = true ∧ (Instr.encLenDirect 0).wellFormed = true ∧
      (Instr.rsvBit6Set true 3 15).wellFormed = true := by
  decide

theorem witness_DecodedRowEncodesBack :
    decode .cmd 7 = .ok .reservedCmd111 ∧ decode .rxByte0 0xFF = .ok (.rsvBit6Set true 3 15) ∧
      decode .rxByte1 0xFD = .ok (.lenDirect true 125) ∧ decode .encByte1 0x7D = .ok (.encLenDirect 125) := by
  decide

theorem moves_quiet {s : State} (h : s.env.agenda = []) : codecMoves s s := .inl ⟨h, rfl⟩

theorem witness_StepRunsDecodedRow :
    (let s := ready 7 true 1 5
     codecMoves s s ∧ s.seq = .idle ∧ s.env.offer = some 7 ∧ decode .cmd ((7 : Cmd).setWidth 8) = .ok .reservedCmd111) ∧
    (let s := receiving .dB0 0 [0x81, 0x00]
     codecMoves s s ∧ s.seq = .dB0 ∧ s.env.rx = 0x81 :: [0x00] ∧ decode .rxByte0 0x81 = .ok (.text true)) ∧
    (let s := receiving .dB1 1 [0xFF]
     let a : State := { s with env := { s.env with agenda := [.codec, .abort] } }
     codecMoves a (withAgenda [.abort] a) ∧ (withAgenda [.abort] a).seq = .dB1 ∧
       (withAgenda [.abort] a).env.rx = 0xFF :: [] ∧ decode .rxByte1 0xFF = .ok (.lenExt64 true)) :=
  ⟨⟨moves_quiet rfl, rfl, rfl, by decide⟩, ⟨moves_quiet rfl, rfl, rfl, by decide⟩,
    ⟨.inr (.inl ⟨_, rfl, rfl⟩), rfl, rfl, by decide⟩⟩

/-- Two agendas under which the CODEC moves although HOST's turn stands first. -/
theorem witness_codecMoves_waiting :
    (let s : State := { ready 1 true 1 5 with env := { (ready 1 true 1 5).env with agenda := [.offer 2] } }
     codecMoves s s) ∧
    (let s : State := { receiving .dB0 0 [] with env := { (receiving .dB0 0 []).env with agenda := [.wait] } }
     codecMoves s s) :=
  ⟨.inr (.inr (.inl ⟨2, 1, [], rfl, rfl, rfl⟩)), .inr (.inr (.inr ⟨[], rfl, rfl, rfl⟩))⟩

/-- The reset state with a given agenda. -/
def turns (agenda : List Turn) : State := { State.reset with env := { Env.quiet with agenda := agenda } }

theorem witness_OtherAgentsTakeTheirTurn :
    (turns [.offer 1]).env.agenda = .offer 1 :: [] ∧ (turns [.offer 1]).env.offer = none ∧
    (turns [.rxAppend [1, 2]]).env.agenda = .rxAppend [1, 2] :: [] ∧ (turns [.rxAppend [1, 2]]).env.rxClosed = false ∧
    (let s : State := { State.reset with env := { Env.quiet with rxClosed := true, agenda := [.rxAppend [1]] } }
     s.env.agenda = .rxAppend [1] :: [] ∧ s.env.rxClosed = true) ∧
    (turns [.rxClose]).env.agenda = .rxClose :: [] ∧ (turns [.txSink false]).env.agenda = .txSink false :: [] ∧
    (let s : State := { turns [.wait] with status := { Status.atReset with done := true } }
     s.env.agenda = .wait :: [] ∧ s.env.offer = none ∧ (s.status.done = true ∨ s.status.err = true)) := by
  decide

theorem witness_RowOutsideItsStateHolds :
    (receiving .dB0 0 []).seq ≠ rowPhase .decode ∧ State.reset.seq ≠ rowPhase (.text true) ∧
      State.reset.seq ≠ rowPhase (.lenExt16 true) ∧ (receiving .dB1 1 []).seq ≠ rowPhase .encLenExt64 := by
  decide

theorem witness_CommandsAcceptedOnlyInIdle :
    (let s := ready 6 true 1 5
     codecMoves s s ∧ s.env.offer = some 6 ∧ (∃ t, step s = .next t) ∧ s.seq = .idle ∧ (6 : Cmd) ∈ [0, 5, 6, 7]) ∧
    (let s := ready 4 true 1 5
     ((4 : Cmd), Instr.acceptKey) ∈
       [(1, Instr.decode), (2, .encode), (3, .maskApply), (4, .acceptKey)] ∧ s.env.offer = some 4) ∧
    (let s : State := { receiving .dB0 0 [0x81] with env := { Env.quiet with rx := [0x81], offer := some 2 } }
     codecMoves s s ∧ s.env.offer = some 2 ∧ (∃ t, step s = .next t) ∧ s.seq ≠ .idle) :=
  ⟨⟨moves_quiet rfl, rfl, ⟨_, rfl⟩, rfl, by decide⟩, ⟨by decide, rfl⟩,
    ⟨moves_quiet rfl, rfl, ⟨_, rfl⟩, by decide⟩⟩

/-! ### Witnesses: the decoder -/

theorem witness_OpcodeRowsComplete : (receiving .dB0 0 []).seq = .dB0 := rfl

theorem witness_IllegalByte0RowsRaise : (receiving .dB0 0 [0xC1]).seq = .dB0 := rfl

theorem witness_HeaderByte0Step :
    (let s := receiving .dB0 0 [0x8A]
     codecMoves s s ∧ s.seq = .dB0 ∧ s.env.rx = 0x8A :: []) ∧
    (let s : State := { receiving .dB0 0 [] with env := { Env.quiet with rxClosed := true } }
     codecMoves s s ∧ s.seq = .dB0 ∧ s.env.rx = [] ∧ s.env.rxClosed = true) :=
  ⟨⟨moves_quiet rfl, rfl, rfl⟩, ⟨moves_quiet rfl, rfl, rfl, rfl⟩⟩

theorem witness_LengthRowsComplete :
    (receiving .dB1 1 []).seq = .dB1 ∧ (receiving .dB1 1 []).cfg.wf = true ∧ (125 : BitVec 7) ≤ 125 := by
  decide

theorem witness_HeaderByte1Step :
    (let s := receiving .dB1 1 [0x7D]
     codecMoves s s ∧ s.seq = .dB1 ∧ s.env.rx = 0x7D :: [] ∧ (0x7D : Byte).extractLsb' 0 7 ≤ 125#7) ∧
    (0xFE : Byte).extractLsb' 0 7 = 126#7 ∧ (0x7F : Byte).extractLsb' 0 7 = 127#7 ∧
    (let s : State := { receiving .dB1 1 [] with env := { Env.quiet with rxClosed := true } }
     codecMoves s s ∧ s.seq = .dB1 ∧ s.env.rx = [] ∧ s.env.rxClosed = true) :=
  ⟨⟨moves_quiet rfl, rfl, rfl, by decide⟩, by decide, by decide, ⟨moves_quiet rfl, rfl, rfl, rfl⟩⟩

/-- A state of the reset parameters, with no error, no result and an acceptable `STATE`, meets the invariant where its
buffers and its `STATE` do. -/
theorem inv_of_parts {s : State} (hc : s.cfg = Config.vectors) (he : s.status.err = false)
    (hcode : s.status.errCode = .none) (hst : s.status.errState = .idle) (hd : s.status.done = false)
    (hq : s.seq ≠ .error) (hb : bufferInv s) (hp : phaseInv s) (hv : s.rx.frameValid = false)
    (ha : s.acc.valid = false) : Inv s where
  config := by rw [hc]; decide
  status := by simp [statusInv, he, hcode, hst, hd, hq]
  buffers := hb
  phase := hp
  frame := by simp [frameInv, hv]
  accept := by simp [acceptInv, ha]

theorem no_buffers {s : State} (h : s.buf = Buffers.atReset) : bufferInv s := by
  rw [bufferInv, h]
  exact And.intro (And.intro rfl rfl) (And.intro (And.intro rfl rfl) (And.intro rfl rfl))

/-- A DECODE past header byte 1, with a given LEN7, and the masked length `len` where it is known. -/
def decoding (q : Seq) (masked : Bool) (len7 : BitVec 7) (len : Reg Word64) (key : Vector (Reg Byte) 4) (taken : Word64)
    (dec : DecWork) (env : Env) : State :=
  { State.reset with
    seq := q
    rx := {
      fin := .of true
      rsv := .of 0
      opcode := .of 1
      masked := .of masked
      len7 := .of len7
      len := len
      key := key
      frameValid := false
      frameBytes := .of taken }
    dec := dec
    env := env }

/-- No key byte taken. -/
def noKeyBytes : Vector (Reg Byte) 4 := Vector.replicate 4 ⟨0, false⟩

/-- The key of vector D-T2. -/
def sampleKey : Vector (Reg Byte) 4 := #v[.of 0x37, .of 0xFA, .of 0x21, .of 0x3D]

/-- EXT64 with seven of its eight bytes taken. -/
def atExt (env : Env) : State := decoding .dExt true 127 ⟨0, false⟩ noKeyBytes 9 ⟨8, 7, 0x80000000000000, 0, 0⟩ env

theorem atExt_inv (env : Env) : Inv (atExt env) :=
  inv_of_parts rfl rfl rfl rfl rfl (fun h => by cases h) (no_buffers rfl)
    (And.intro (And.intro rfl rfl) (And.intro (And.intro rfl (And.intro rfl (And.intro rfl rfl)))
      (And.intro (And.intro rfl (And.intro rfl rfl)) (And.intro (show ∀ i : Fin 4, noKeyBytes[i].known = false by decide)
        (And.intro (show 7#4 < 8#4 by decide) (And.intro (show (0x80000000000000#64).toNat < 2 ^ 56 by decide) rfl))))))
    rfl rfl

theorem witness_ExtendedLengthStep :
    (let s := atExt { Env.quiet with rx := [0x05] }
     codecMoves s s ∧ Inv s ∧ s.seq = .dExt ∧ s.env.rx = 0x05 :: []) ∧
    (let s := atExt { Env.quiet with rxClosed := true }
     codecMoves s s ∧ Inv s ∧ s.seq = .dExt ∧ s.env.rx = [] ∧ s.env.rxClosed = true) :=
  ⟨⟨moves_quiet rfl, atExt_inv _, rfl, rfl⟩, ⟨moves_quiet rfl, atExt_inv _, rfl, rfl, rfl⟩⟩

/-- Three of four key bytes taken, and a payload of five to come. -/
def atKey (env : Env) : State :=
  decoding .dKey true 5 (.of 5) #v[.of 0x37, .of 0xFA, .of 0x21, ⟨0, false⟩] 5 ⟨0, 0, 0, 3, 0⟩ env

theorem atKey_inv (env : Env) : Inv (atKey env) :=
  inv_of_parts rfl rfl rfl rfl rfl (fun h => by cases h) (no_buffers rfl)
    (And.intro (And.intro rfl rfl) (And.intro (And.intro rfl (And.intro rfl (And.intro rfl rfl)))
      (And.intro (And.intro rfl (And.intro rfl rfl)) (And.intro (And.intro rfl (show 5 ≤ 70000 by decide))
        (And.intro rfl (And.intro (show 3#3 < 4#3 by decide) (And.intro
          (show ∀ i : Fin 4, i.val < 3 →
            (#v[.of 0x37, .of 0xFA, .of 0x21, ⟨0, false⟩] : Vector (Reg Byte) 4)[i].known = true by decide)
          rfl)))))))
    rfl rfl

/-- The last payload byte of an unmasked one-byte frame. -/
def atPay (env : Env) : State := decoding .dPay false 1 (.of 1) noKeyBytes 2 ⟨0, 0, 0, 0, 0⟩ env

theorem atPay_inv (env : Env) : Inv (atPay env) :=
  inv_of_parts rfl rfl rfl rfl rfl (fun h => by cases h) (no_buffers rfl)
    (And.intro (And.intro rfl rfl) (And.intro (And.intro rfl (And.intro rfl (And.intro rfl rfl)))
      (And.intro (And.intro rfl (And.intro rfl rfl)) (And.intro (And.intro rfl (show 1 ≤ 70000 by decide))
        (And.intro (And.intro (fun h => by cases h) (fun _ => show ∀ i : Fin 4, noKeyBytes[i].known = false by decide))
          (And.intro (show 0#64 < 1#64 by decide) (fun a ha => absurd ha (Nat.not_lt_zero a))))))))
    rfl rfl

/-- The first payload byte of a masked frame of five. -/
def atMaskedPay (env : Env) : State := decoding .dPay true 5 (.of 5) sampleKey 6 ⟨0, 0, 0, 4, 0⟩ env

theorem atMaskedPay_inv (env : Env) : Inv (atMaskedPay env) :=
  inv_of_parts rfl rfl rfl rfl rfl (fun h => by cases h) (no_buffers rfl)
    (And.intro (And.intro rfl rfl) (And.intro (And.intro rfl (And.intro rfl (And.intro rfl rfl)))
      (And.intro (And.intro rfl (And.intro rfl rfl)) (And.intro (And.intro rfl (show 5 ≤ 70000 by decide))
        (And.intro (And.intro (fun _ => show ∀ i : Fin 4, sampleKey[i].known = true by decide) (fun h => by cases h))
          (And.intro (show 0#64 < 5#64 by decide) (fun a ha => absurd ha (Nat.not_lt_zero a))))))))
    rfl rfl

/-- An empty frame with a given FIN and opcode, in D_CHK. -/
def atCheck (fin : Bool) (op : BitVec 4) : State :=
  { decoding .dChk false 0 (.of 0) noKeyBytes 2 ⟨0, 0, 0, 0, 0⟩ Env.quiet with
    rx := { (decoding .dChk false 0 (.of 0) noKeyBytes 2 ⟨0, 0, 0, 0, 0⟩ Env.quiet).rx with fin := .of fin, opcode := .of op } }

theorem atCheck_inv (fin : Bool) (op : BitVec 4) (h : isReservedOp op = false) : Inv (atCheck fin op) :=
  inv_of_parts rfl rfl rfl rfl rfl (fun h => by cases h) (no_buffers rfl)
    (And.intro (And.intro rfl rfl) (And.intro (And.intro rfl (And.intro rfl (And.intro rfl h)))
      (And.intro (And.intro rfl (And.intro rfl rfl)) (And.intro (And.intro rfl (show 0 ≤ 70000 by decide))
        (And.intro (And.intro (fun h => by cases h) (fun _ => show ∀ i : Fin 4, noKeyBytes[i].known = false by decide))
          (And.intro rfl (fun a ha => absurd ha (Nat.not_lt_zero a))))))))
    rfl rfl

theorem witness_KeyByteStep :
    (let s := atKey { Env.quiet with rx := [0x3D, 0x7F] }
     codecMoves s s ∧ Inv s ∧ s.seq = .dKey ∧ s.env.rx = 0x3D :: [0x7F]) ∧
    (let s := atKey { Env.quiet with rxClosed := true }
     codecMoves s s ∧ Inv s ∧ s.seq = .dKey ∧ s.env.rx = [] ∧ s.env.rxClosed = true) ∧
    (let s := atPay Env.quiet
     codecMoves s s ∧ Inv s ∧ (s.seq = .dPay ∨ s.seq = .dChk ∨ s.rx.frameValid = true) ∧ s.rx.masked = .of false) :=
  ⟨⟨moves_quiet rfl, atKey_inv _, rfl, rfl⟩, ⟨moves_quiet rfl, atKey_inv _, rfl, rfl, rfl⟩,
    ⟨moves_quiet rfl, atPay_inv _, .inl rfl, rfl⟩⟩

theorem witness_PayloadByteStep :
    (let s := atPay { Env.quiet with rx := [0xFF] }
     codecMoves s s ∧ Inv s ∧ s.seq = .dPay ∧ s.env.rx = 0xFF :: [] ∧ s.rx.masked = .of false) ∧
    (let s := atMaskedPay { Env.quiet with rx := [0x7F, 0x9F] }
     codecMoves s s ∧ Inv s ∧ s.seq = .dPay ∧ s.env.rx = 0x7F :: [0x9F] ∧ s.rx.masked = .of true) ∧
    (let s := atMaskedPay { Env.quiet with rxClosed := true }
     codecMoves s s ∧ Inv s ∧ s.seq = .dPay ∧ s.env.rx = [] ∧ s.env.rxClosed = true) :=
  ⟨⟨moves_quiet rfl, atPay_inv _, rfl, rfl, rfl⟩, ⟨moves_quiet rfl, atMaskedPay_inv _, rfl, rfl, rfl⟩,
    ⟨moves_quiet rfl, atMaskedPay_inv _, rfl, rfl, rfl⟩⟩

theorem witness_ControlFrameCheckStep :
    (codecMoves (atCheck false 8) (atCheck false 8) ∧ Inv (atCheck false 8) ∧ (atCheck false 8).seq = .dChk ∧
      ((8 : BitVec 4) ∈ [0x8#4, 0x9#4, 0xA#4] ∧ (false = false ∨ 125#64 < 0#64))) ∧
    (codecMoves (atCheck true 10) (atCheck true 10) ∧ Inv (atCheck true 10) ∧ (atCheck true 10).seq = .dChk ∧
      ¬ ((10 : BitVec 4) ∈ [0x8#4, 0x9#4, 0xA#4] ∧ (true = false ∨ 125#64 < 0#64))) :=
  ⟨⟨moves_quiet rfl, atCheck_inv _ _ rfl, rfl, by decide⟩, ⟨moves_quiet rfl, atCheck_inv _ _ rfl, rfl, by decide⟩⟩

/-! ### Witnesses: acceptance and emission -/

theorem witness_DecodeAccepts : State.reset.seq = .idle := rfl

theorem witness_EncodeAcceptance :
    (let s := ready 2 true 9 126
     s.seq = .idle ∧ s.cfg.wf = true ∧ s.op.fin = .of true ∧ s.op.opcode = .of 9 ∧ s.op.len = .of 126 ∧
       (9 : BitVec 4) ∈ [0x8, 0x9, 0xA] ∧ (125 : Word64) < 126) ∧
    (let s := ready 2 false 2 125
     s.seq = .idle ∧ s.cfg.wf = true ∧ s.op.fin = .of false ∧ s.op.opcode = .of 2 ∧ s.op.len = .of 125 ∧
       ¬ ((2 : BitVec 4) ∈ [0x3, 0x4, 0x5, 0x6, 0x7, 0xB, 0xC, 0xD, 0xE, 0xF] ∨
         ((2 : BitVec 4) ∈ [0x8, 0x9, 0xA] ∧ (false = false ∨ (125 : Word64) < 125)) ∨
         s.cfg.pbufBytes < (125 : Word64).toNat)) ∧
    (126 : Word64) ≤ 65535 ∧ (65536 : Word64).toNat ≤ (ready 2 true 2 65536).cfg.pbufBytes :=
  ⟨⟨rfl, by decide, rfl, rfl, rfl, by decide, by decide⟩, ⟨rfl, by decide, rfl, rfl, rfl,
    fun h => h.elim (by decide) fun h => h.elim (by decide) (show ¬ 70000 < 125 by decide)⟩, by decide,
    show 65536 ≤ 70000 by decide⟩

theorem witness_EncoderFormRowsComplete :
    (let s : State := { State.reset with latch := { Operands.atReset with len := .of 125 } }
     s.seq = .idle ∧ s.latch.len = .of 125 ∧ (125 : Word64) ≤ 125 ∧ (125 : Word64).setWidth 7 = 125#7) ∧
    (let s : State := { State.reset with latch := { Operands.atReset with len := .of 65535 } }
     s.seq = .idle ∧ s.latch.len = .of 65535 ∧ (125 : Word64) < 65535 ∧ (65535 : Word64) ≤ 65535) ∧
    (let s : State := { State.reset with latch := { Operands.atReset with len := .of 65536 } }
     s.seq = .idle ∧ s.latch.len = .of 65536 ∧ (65535 : Word64) < 65536) :=
  ⟨⟨rfl, rfl, by decide, by decide⟩, ⟨rfl, rfl, by decide, by decide⟩, ⟨rfl, rfl, by decide⟩⟩

theorem witness_EncodeWritesALengthRow :
    let s := ready 2 true 1 126
    ∃ t, exec .encode s = .next t ∧ s.seq = .idle ∧ t.seq = .eHdr ∧ s.op.len = .of 126 ∧ (126 : Word64) ≤ 126 :=
  ⟨_, rfl, rfl, rfl, rfl, by decide⟩

theorem witness_MaskApplyAccepts :
    (ready 3 true 1 70000).seq = .idle ∧ (ready 3 true 1 70000).op.len = .of 70000 ∧
      (ready 3 true 1 70001).op.len = .of 70001 := by
  decide

theorem witness_AcceptKeyAccepts :
    (withNonce [] 64).seq = .idle ∧ (withNonce [] 64).op.nonceLen = .of 64 ∧ (withNonce [] 65).op.nonceLen = .of 65 ∧
      (withNonce [] 0).op.nonceLen = .of 0 ∧ (withNonce [] 0).cfg.wf = true := by
  decide

theorem witness_ReservedCommandsRaise : State.reset.seq = .idle := rfl

theorem witness_UnwrittenOperandsFault :
    (let s : State := { State.reset with op := noOperands }
     s.seq = .idle ∧ s.op.opcode.known = false ∧ s.op.len.known = false ∧ s.op.nonceLen.known = false) ∧
    (let s : State := { State.reset with op := { noOperands with opcode := .of 8 } }
     s.op.opcode.val ∈ [0x8, 0x9, 0xA] ∧ s.op.opcode.val ∉ [0x3, 0x4, 0x5, 0x6, 0x7, 0xB, 0xC, 0xD, 0xE, 0xF] ∧
       s.op.fin.known = false) ∧
    (let s : State := { State.reset with op := { noOperands with opcode := .of 8, fin := .of true } }
     s.op.opcode.val ∉ [0x3, 0x4, 0x5, 0x6, 0x7, 0xB, 0xC, 0xD, 0xE, 0xF] ∧ s.op.fin.val = true ∧ s.op.len.known = false) ∧
    (let s : State := { State.reset with op := { noOperands with opcode := .of 0, len := .of 70000 } }
     s.op.opcode.val ∉ [0x8, 0x9, 0xA] ∧ s.op.opcode.val ∉ [0x3, 0x4, 0x5, 0x6, 0x7, 0xB, 0xC, 0xD, 0xE, 0xF] ∧
       s.op.fin.known = false ∧ s.op.len.val.toNat ≤ s.cfg.pbufBytes) ∧
    (let s : State := { State.reset with op := { noOperands with opcode := .of 0xF } }
     s.op.opcode.known = true ∧ s.op.opcode.val ∈ [0x3, 0x4, 0x5, 0x6, 0x7, 0xB, 0xC, 0xD, 0xE, 0xF]) ∧
    (ready 3 true 1 5).seq = .idle ∧ (ready 3 true 1 5).op.len.known = true ∧
    (withNonce [0x61] 1).seq = .idle ∧ (withNonce [0x61] 1).op.nonceLen.known = true := by
  decide

/-- 30_encoding.md R101: the two forms of ENCODE that go on although an operand has no value. -/
theorem test_encode_unneeded_operands :
    field (exec .encode { State.reset with op := { noOperands with opcode := .of 9, fin := .of false } })
      (fun t => t.status.errCode) = some .invalidFrame ∧
    field (exec .encode { State.reset with op := { noOperands with opcode := .of 0, len := .of 70001 } })
      (fun t => t.status.errCode) = some .invalidFrame := by
  decide

/-- ENCODE with operands latched, in E_HDR or E_PAY. -/
def emitting (q : Seq) (len : Word64) (enc : EncRegs) (m : Memory) (env : Env) : State :=
  { State.reset with
    seq := q
    latch := { Operands.atReset with fin := .of true, opcode := .of 1, len := .of len }
    enc := enc
    buf := { Buffers.atReset with txPbuf := m }
    env := env }

/-- The last header byte of an empty Text frame. -/
def atHdr (env : Env) : State :=
  emitting .eHdr 0 ⟨#v[0x81, 0x00, 0, 0, 0, 0, 0, 0, 0, 0], 2, 1, 0, .of 1⟩ [] env

theorem atHdr_inv (env : Env) : Inv (atHdr env) :=
  inv_of_parts rfl rfl rfl rfl rfl (fun h => by cases h) (no_buffers rfl)
    (And.intro rfl (And.intro (show 0 ≤ 70000 by decide) (And.intro (.inl rfl)
      (And.intro (show 1#4 < 2#4 by decide) (And.intro rfl rfl)))))
    rfl rfl

/-- The one payload byte of a Text frame, present or not. -/
def atEncPay (m : Memory) (env : Env) : State :=
  emitting .ePay 1 ⟨#v[0x81, 0x01, 0, 0, 0, 0, 0, 0, 0, 0], 2, 2, 0, .of 2⟩ m env

theorem atEncPay_inv (m : Memory) (hm : m.wf = true) (hw : m.within 70000 = true) (env : Env) : Inv (atEncPay m env) :=
  inv_of_parts rfl rfl rfl rfl rfl (fun h => by cases h)
    (And.intro (And.intro rfl rfl) (And.intro (And.intro hm hw) (And.intro rfl rfl)))
    (And.intro rfl (And.intro (show 1 ≤ 70000 by decide) (And.intro (show 0#64 < 1#64 by decide) rfl))) rfl rfl

theorem witness_HeaderEmissionStep :
    codecMoves (atHdr Env.quiet) (atHdr Env.quiet) ∧ Inv (atHdr Env.quiet) ∧ (atHdr Env.quiet).seq = .eHdr ∧
      (atHdr Env.quiet).env.txReady = true :=
  ⟨moves_quiet rfl, atHdr_inv _, rfl, rfl⟩

theorem witness_PayloadEmissionStep :
    (let s := atEncPay [] Env.quiet
     codecMoves s s ∧ Inv s ∧ s.seq = .ePay ∧ s.env.txReady = true ∧ s.buf.txPbuf.find s.enc.payCnt.toNat = none) ∧
    (let s := atEncPay [(0, 0x48)] Env.quiet
     codecMoves s s ∧ Inv s ∧ s.seq = .ePay ∧ s.env.txReady = true ∧
       s.buf.txPbuf.find s.enc.payCnt.toNat = some 0x48) :=
  ⟨⟨moves_quiet rfl, atEncPay_inv _ rfl rfl _, rfl, rfl, rfl⟩, ⟨moves_quiet rfl, atEncPay_inv _ rfl rfl _, rfl, rfl, rfl⟩⟩

theorem witness_HoldsChangeNothing :
    (let s := receiving .dPay 6 []
     codecMoves s s ∧ s.seq ∈ [.dB0, .dB1, .dExt, .dKey, .dPay] ∧ s.env.rx = [] ∧ s.env.rxClosed = false) ∧
    (let s := atHdr { Env.quiet with txReady := false }
     codecMoves s s ∧ s.seq ∈ [.eHdr, .ePay] ∧ s.env.txReady = false) ∧
    (codecMoves State.reset State.reset ∧ State.reset.seq = .idle ∧ State.reset.env.offer = none) ∧
    (let s := raise .illegalCommand State.reset
     codecMoves s s ∧ s.seq = .error) :=
  ⟨⟨moves_quiet rfl, by decide, rfl, rfl⟩, ⟨moves_quiet rfl, by decide, rfl⟩, ⟨moves_quiet rfl, rfl, rfl⟩,
    ⟨moves_quiet rfl, rfl⟩⟩

theorem witness_EncodeLeavesDecoder :
    (let s := ready 2 true 1 5
     codecMoves s s ∧ s.seq = .idle ∧ s.env.offer = some 2 ∧ ∃ t, step s = .next t) ∧
    (let s := atHdr Env.quiet
     codecMoves s s ∧ s.seq = .eHdr ∧ ∃ t, step s = .next t) ∧
    (let s := atEncPay [(0, 0x48)] Env.quiet
     codecMoves s s ∧ s.seq = .ePay ∧ ∃ t, step s = .next t) :=
  ⟨⟨moves_quiet rfl, rfl, rfl, _, rfl⟩, ⟨moves_quiet rfl, rfl, _, rfl⟩, ⟨moves_quiet rfl, rfl, _, rfl⟩⟩

/-! ### Witnesses: mask and accept key -/

theorem witness_MaskFunction : ([0x48, 0x65, 0x6C] : List Byte)[2]? = some 0x6C := by decide

/-- MASK_APPLY of "Hello", its body pending. -/
def atMask (agenda : List Turn) : State :=
  { ready 3 true 1 5 with seq := .mRun, latch := (ready 3 true 1 5).op, env := { Env.quiet with agenda := agenda } }

theorem witness_MaskApplyBody :
    (let s := atMask []
     let key : Vector Byte 4 := #v[0x37, 0xFA, 0x21, 0x3D]
     s.seq = .mRun ∧ s.latch.len = .of 5 ∧ codecMoves s s ∧ (5 : Word64).toNat ≤ s.cfg.pbufBytes ∧
       (∀ i : Fin 4, i.val < (5 : Word64).toNat → s.latch.key[i] = .of key[i]) ∧
       (∀ a, a < (5 : Word64).toNat → (s.buf.txPbuf.find a).isSome = true)) ∧
    (let s : State := { atMask [] with latch := { noOperands with len := .of 6 } }
     s.seq = .mRun ∧ s.latch.len = .of 6 ∧ codecMoves s s ∧ (6 : Word64).toNat ≤ s.cfg.pbufBytes ∧
       (5 < (6 : Word64).toNat ∧ s.buf.txPbuf.find 5 = none) ∧ s.latch.key[(3 : Fin 4)].known = false) ∧
    ((atMask [.abort]).seq = .mRun ∧ (atMask [.abort]).latch.len = .of 5 ∧ (atMask [.abort]).env.agenda = .abort :: []) :=
  ⟨⟨rfl, rfl, moves_quiet rfl, by decide, by decide, by decide⟩,
    ⟨rfl, rfl, moves_quiet rfl, by decide, by decide, by decide⟩, rfl, rfl, rfl⟩

/-- Log 27: with three bytes the fourth key byte is not read. -/
theorem test_maskApply_unused_key_byte :
    field (step { atMask [] with
      latch := { Operands.atReset with len := .of 3, key := #v[.of 0x37, .of 0xFA, .of 0x21, ⟨0, false⟩] } })
      (fun t => (t.status.done, t.buf.txPbuf)) =
      some (true, [(0, 0x7F), (1, 0x9F), (2, 0x4D), (3, 0x6C), (4, 0x6F)]) := by
  decide

/-- ACCEPT_KEY of a one-byte nonce, its body pending. -/
def atAccept (agenda : List Turn) : State :=
  { withNonce [0x61] 1 with
    seq := .aRun
    latch := (withNonce [0x61] 1).op
    env := { Env.quiet with agenda := agenda } }

theorem atAccept_inv (agenda : List Turn) : Inv (atAccept agenda) :=
  inv_of_parts rfl rfl rfl rfl rfl (fun h => by cases h)
    (And.intro (And.intro rfl rfl) (And.intro (And.intro rfl rfl) (And.intro rfl rfl)))
    (And.intro rfl (And.intro (show 1#64 ≠ 0#64 by decide) (And.intro (show 1 ≤ 64 by decide) rfl))) rfl rfl

theorem atAccept_nonce : ∀ (i : Nat) (x : Byte), [0x61#8][i]? = some x → (atAccept []).buf.nonceBuf.find i = some x := by
  intro i x h
  cases i with
  | zero => exact h
  | succ i => simp at h

theorem witness_AcceptKeyBody :
    (let s := atAccept []
     s.seq = .aRun ∧ codecMoves s s ∧ s.latch.nonceLen = .of (BitVec.ofNat 64 [0x61#8].length) ∧
       [0x61#8].length < 2 ^ 64 ∧ [0x61#8].length ≤ s.cfg.nonceMax ∧
       ∀ (i : Nat) (x : Byte), [0x61#8][i]? = some x → s.buf.nonceBuf.find i = some x) ∧
    (let s : State := { atAccept [] with latch := { Operands.atReset with nonceLen := .of 2 } }
     s.seq = .aRun ∧ codecMoves s s ∧ s.latch.nonceLen = .of 2 ∧ (2 : Word64).toNat ≤ s.cfg.nonceMax ∧
       1 < (2 : Word64).toNat ∧ s.buf.nonceBuf.find 1 = none) ∧
    (Inv (atAccept [.abort]) ∧ (atAccept [.abort]).env.agenda = .abort :: []) :=
  ⟨⟨rfl, moves_quiet rfl, rfl, by decide, by decide, atAccept_nonce⟩,
    ⟨rfl, moves_quiet rfl, rfl, by decide, by decide, by decide⟩, atAccept_inv _, rfl⟩

theorem witness_AcceptKeyPurity :
    (let s := atAccept []
     let s' := atAccept [.codec, .reset]
     codecMoves s s ∧ codecMoves s' (withAgenda [.reset] s') ∧ s.seq = .aRun ∧ s'.seq = .aRun ∧
       s.latch.nonceLen = s'.latch.nonceLen ∧ (∃ t, step s = .next t) ∧ ∃ t, step s' = .next t) ∧
    (∃ t, exec .acceptKey (withNonce [0x61] 1) = .next t) ∧ (withNonce [0x61] 1).seq = .idle :=
  ⟨⟨moves_quiet rfl, .inr (.inl ⟨_, rfl, rfl⟩), rfl, rfl, rfl, ⟨_, rfl⟩, ⟨_, rfl⟩⟩, ⟨_, rfl⟩, rfl⟩

theorem witness_PaddingFillsWholeBlocks :
    8 * (List.replicate 55 (0 : Byte)).length < 2 ^ 64 ∧ 8 * (List.replicate 56 (0 : Byte)).length < 2 ^ 64 := by
  decide

theorem witness_Sha1FollowsItsRules :
    (List.replicate 16 (1 : Word32)).length = 16 ∧ 16 ≤ 79 ∧ 79 < 80 ∧ 8 * (List.replicate 64 (0 : Byte)).length < 2 ^ 64 ∧
      1 < ((List.replicate 64 (0 : Byte)).length + 8) / 64 + 1 := by
  decide

theorem witness_Base64Characters :
    let d : Vector Byte 20 := Vector.replicate 20 0xFF
    5 < 6 ∧ d[3 * 5]? = some 0xFF ∧ d[3 * 5 + 1]? = some 0xFF ∧ d[3 * 5 + 2]? = some 0xFF := by
  decide

theorem witness_AcceptKeyShape : base64 (Vector.replicate 20 0xFF) = base64 (Vector.replicate 20 0xFF) := rfl

/-! ### Witnesses: errors, reset, streams -/

theorem witness_ErrorEntry :
    let s := receiving .dB0 0 [0x83]
    codecMoves s s ∧ s.seq ≠ .error ∧ ∃ t, step s = .next t ∧ t.seq = .error :=
  ⟨moves_quiet rfl, by decide, _, rfl, rfl⟩

theorem receiving_dB0_inv (bytes : List Byte) : Inv (receiving .dB0 0 bytes) :=
  inv_of_parts rfl rfl rfl rfl rfl (fun h => by cases h) (no_buffers rfl)
    (And.intro (And.intro rfl rfl) (And.intro
      (show ∀ i : Fin 4, (receiving .dB0 0 []).rx.key[i].known = false by decide +kernel) (And.intro rfl (And.intro rfl rfl))))
    rfl rfl

theorem ready_inv (c : Cmd) (fin : Bool) (op : BitVec 4) (len : Word64) : Inv (ready c fin op len) :=
  inv_of_parts rfl rfl rfl rfl rfl (fun h => by cases h)
    (And.intro (And.intro rfl rfl) (And.intro (And.intro rfl rfl) (And.intro rfl rfl))) trivial rfl rfl

theorem withNonce_empty_inv : Inv (withNonce [] 0) :=
  inv_of_parts rfl rfl rfl rfl rfl (fun h => by cases h) (no_buffers rfl) trivial rfl rfl

theorem witness_ErrorsLeaveNoResult :
    (let s := receiving .dB0 0 [0x83]
     codecMoves s s ∧ Inv s ∧ s.seq ≠ .error ∧ s.seq ≠ .idle ∧ ∃ t, step s = .next t ∧ t.seq = .error) ∧
    (let s := withNonce [] 0
     codecMoves s s ∧ Inv s ∧ s.seq = .idle ∧ s.env.offer = some 4 ∧ ∃ t, step s = .next t ∧ t.seq = .error) ∧
    (let s := ready 2 false 9 0
     codecMoves s s ∧ Inv s ∧ s.seq = .idle ∧ s.env.offer = some 2 ∧ ∃ t, step s = .next t ∧ t.seq = .error) :=
  ⟨⟨moves_quiet rfl, receiving_dB0_inv _, by decide, by decide, _, rfl, rfl⟩,
    ⟨moves_quiet rfl, withNonce_empty_inv, rfl, rfl, _, rfl, rfl⟩,
    ⟨moves_quiet rfl, ready_inv _ _ _ _, rfl, rfl, _, rfl, rfl⟩⟩

theorem witness_ErrorLeftOnlyByAbortOrReset :
    let s := raise .illegalCommand (turns [.abort])
    s.seq = .error ∧ (∃ t, step s = .next t) ∧ (raise .illegalCommand State.reset).seq = .error ∧
      ∃ t, step (raise .illegalCommand State.reset) = .next t :=
  ⟨rfl, ⟨_, rfl⟩, rfl, _, rfl⟩

theorem witness_AbortStep : (turns [.abort, .codec]).env.agenda = .abort :: [.codec] := rfl

theorem witness_ResetStep : (turns [.reset]).env.agenda = .reset :: [] := rfl

theorem witness_LatchesChangeOnlyAtAcceptance :
    (∃ t, step (ready 1 true 1 5) = .next t) ∧ ∃ t, step (turns [.write (.opLen 7)]) = .next t := ⟨⟨_, rfl⟩, _, rfl⟩

theorem witness_RxStreamInOrder :
    (let s := receiving .dB0 0 [0x81, 0x00]
     codecMoves s s ∧ (∃ t, step s = .next t) ∧ s.seq ∈ [.dB0, .dB1, .dExt, .dKey, .dPay] ∧ s.env.rx = 0x81 :: [0x00]) ∧
    (let s := ready 2 true 1 5
     codecMoves s s ∧ (∃ t, step s = .next t) ∧ s.seq ∉ [.dB0, .dB1, .dExt, .dKey, .dPay]) ∧
    (∃ t, step (turns [.rxAppend [1]]) = .next t) ∧ ∃ t, step (turns [.rxClose]) = .next t :=
  ⟨⟨moves_quiet rfl, ⟨_, rfl⟩, by decide, rfl⟩, ⟨moves_quiet rfl, ⟨_, rfl⟩, by decide⟩, ⟨_, rfl⟩, _, rfl⟩

theorem witness_TxStreamInOrder :
    (∃ t, step (atHdr Env.quiet) = .next t) ∧ ∃ t, step (atEncPay [(0, 0x48)] Env.quiet) = .next t := ⟨⟨_, rfl⟩, _, rfl⟩

/-! ### Witnesses: HOST -/

/-- A state in `q` with one turn of HOST's to come. -/
def hostIn (q : Seq) (turn : Turn) : State := { turns [turn] with seq := q }

theorem witness_HazardsFault :
    ((hostIn .dChk (.read .rxFin)).seq ∈ [.dB0, .dB1, .dExt, .dKey, .dPay, .dChk] ∧
      (hostIn .dChk (.read .rxFin)).env.agenda = .read .rxFin :: [] ∧
      (hostIn .dB0 (.read (.rxPbuf 0))).env.agenda = .read (.rxPbuf 0) :: []) ∧
    ((hostIn .mRun (.write (.txPbuf 0 1))).seq ∈ [.eHdr, .ePay, .mRun] ∧
      (hostIn .mRun (.write (.txPbuf 0 1))).env.agenda = .write (.txPbuf 0 1) :: []) ∧
    ((hostIn .mRun (.read (.txPbuf 0))).seq = .mRun ∧
      (hostIn .mRun (.read (.txPbuf 0))).env.agenda = .read (.txPbuf 0) :: []) ∧
    ((hostIn .ePay (.read .txBytes)).seq ∈ [.eHdr, .ePay] ∧
      (hostIn .ePay (.read .txBytes)).env.agenda = .read .txBytes :: []) ∧
    ((hostIn .aRun (.read (.digest 19))).seq = .aRun ∧
      (hostIn .aRun (.write (.nonceBuf 0 1))).env.agenda = .write (.nonceBuf 0 1) :: [] ∧
      (hostIn .aRun (.read (.digest 19))).env.agenda = .read (.digest 19) :: [] ∧
      (hostIn .aRun (.read (.acceptOut 27))).env.agenda = .read (.acceptOut 27) :: [] ∧
      (hostIn .aRun (.read .acceptValid)).env.agenda = .read .acceptValid :: []) ∧
    ((hostIn .dPay (.copyByte 0 0)).seq ∈ [.dB0, .dB1, .dExt, .dKey, .dPay, .dChk] ∧
      (hostIn .dPay (.copyByte 0 0)).env.agenda = .copyByte 0 0 :: []) ∧
    (let s : State := { hostIn .ePay (.copyByte 69999 0) with
       rx := { RxRegs.atReset with frameValid := true }, buf := { Buffers.atReset with rxPbuf := [(69999, 1)] } }
     s.seq ∈ [.eHdr, .ePay, .mRun] ∧ s.env.agenda = .copyByte 69999 0 :: [] ∧ s.rx.frameValid = true ∧
       69999 < s.cfg.pbufBytes ∧ (s.buf.rxPbuf.find 69999).isSome = true) ∧
    (hostIn .dB0 (.read .busy)).env.agenda = .read .busy :: [] ∧
    ((Seq.error, 15) ∈ [(Seq.aRun, 10), (.error, 15)] ∧ (hostIn .error (.read .state)).seq = .error ∧
      (hostIn .error (.read .state)).env.agenda = .read .state :: [] ∧
      (hostIn .error (.read .errState)).status.errState = .idle ∧
      (hostIn .error (.read .errState)).env.agenda = .read .errState :: []) ∧
    ((hostIn .idle (.read .errCode)).status.errCode = .none ∧
      (hostIn .idle (.read .errCode)).env.agenda = .read .errCode :: []) ∧
    (hostIn .ePay (.write (.opKey 3 1))).env.agenda = .write (.opKey 3 1) :: [] := by
  decide

theorem witness_HostTouchesOnlyItsOwn :
    (∃ t, step (turns [.read .state]) = .next t) ∧ (∃ t, step (turns [.write (.txPbuf 69999 7)]) = .next t) ∧
      (turns [.read .state]).env.agenda = .read .state :: [] ∧
      (turns [.write (.txPbuf 69999 7)]).env.agenda = .write (.txPbuf 69999 7) :: [] :=
  ⟨⟨_, rfl⟩, ⟨_, rfl⟩, rfl, rfl⟩

theorem witness_HostBufferAccess :
    (let s := hostIn .dPay (.write (.txPbuf 69999 7))
     s.seq ∉ [.eHdr, .ePay, .mRun] ∧ s.env.agenda = .write (.txPbuf 69999 7) :: [] ∧ 69999 < s.cfg.pbufBytes ∧
       (hostIn .error (.write (.txPbuf 70000 7))).env.agenda = .write (.txPbuf 70000 7) :: [] ∧ s.cfg.pbufBytes ≤ 70000) ∧
    (let s : State := { turns [.write (.txPbuf 69999 7), .read (.txPbuf 69999)] with seq := .aRun }
     s.seq ∉ [.eHdr, .ePay, .mRun] ∧ s.env.agenda = .write (.txPbuf 69999 7) :: .read (.txPbuf 69999) :: []) ∧
    (let s := hostIn .ePay (.write (.nonceBuf 63 7))
     s.seq ≠ .aRun ∧ s.env.agenda = .write (.nonceBuf 63 7) :: [] ∧ 63 < s.cfg.nonceMax ∧
       (hostIn .error (.write (.nonceBuf 64 7))).env.agenda = .write (.nonceBuf 64 7) :: [] ∧ s.cfg.nonceMax ≤ 64) ∧
    (let s : State := { turns [.write (.nonceBuf 63 7), .read (.nonceBuf 63)] with seq := .error }
     s.seq ≠ .aRun ∧ s.env.agenda = .write (.nonceBuf 63 7) :: .read (.nonceBuf 63) :: []) ∧
    ((hostIn .ePay (.read (.txPbuf 70000))).seq ≠ .mRun ∧
      (hostIn .ePay (.read (.txPbuf 70000))).env.agenda = .read (.txPbuf 70000) :: [] ∧
      (hostIn .aRun (.read (.rxPbuf 70000))).seq ∉ [.dB0, .dB1, .dExt, .dKey, .dPay, .dChk] ∧
      (hostIn .aRun (.read (.rxPbuf 70000))).env.agenda = .read (.rxPbuf 70000) :: [] ∧
      (hostIn .aRun (.copyByte 70000 0)).env.agenda = .copyByte 70000 0 :: []) ∧
    (let s : State := { hostIn .error (.copyByte 69999 70000) with
       rx := { RxRegs.atReset with frameValid := true }, buf := { Buffers.atReset with rxPbuf := [(69999, 1)] } }
     s.seq ∈ [.idle, .aRun, .error] ∧ s.rx.frameValid = true ∧ 69999 < s.cfg.pbufBytes ∧
       (s.buf.rxPbuf.find 69999).isSome = true ∧ s.cfg.pbufBytes ≤ 70000 ∧ s.env.agenda = .copyByte 69999 70000 :: []) ∧
    (hostIn .aRun (.read (.nonceBuf 64))).env.agenda = .read (.nonceBuf 64) :: [] ∧
    ((turns [.read (.guidRom 36)]).env.agenda = .read (.guidRom 36) :: [] ∧ 36 ≤ 36 ∧
      (turns [.read (.guidRom 35)]).env.agenda = .read (.guidRom 35) :: []) := by
  decide

theorem witness_UnwrittenReadsFault :
    (let s : State := { hostIn .dPay (.read .opFin) with op := noOperands }
     s.op.fin.known = false ∧ s.env.agenda = .read .opFin :: []) ∧
    (let s : State := { startDecode (turns [.read .rxFin]) with seq := .error }
     s.seq ∉ [.dB0, .dB1, .dExt, .dKey, .dPay, .dChk] ∧ s.rx.fin.known = false ∧ s.env.agenda = .read .rxFin :: []) ∧
    (69999 < State.reset.cfg.pbufBytes ∧ (hostIn .error (.read (.rxPbuf 69999))).rx.frameValid = false ∧
      (hostIn .error (.read (.rxPbuf 69999))).env.agenda = .read (.rxPbuf 69999) :: [] ∧
      (hostIn .error (.copyByte 69999 0)).env.agenda = .copyByte 69999 0 :: []) ∧
    (let s : State := { turns [.read (.rxPbuf 5)] with rx := { RxRegs.atReset with frameValid := true } }
     s.rx.frameValid = true ∧ s.buf.rxPbuf.find 5 = none ∧ s.env.agenda = .read (.rxPbuf 5) :: []) ∧
    (let s : State := { hostIn .mRun (.read .txBytes) with enc := { EncRegs.atReset with txBytes := ⟨0, false⟩ } }
     s.seq ∉ [.eHdr, .ePay] ∧ s.enc.txBytes.known = false ∧ s.env.agenda = .read .txBytes :: []) ∧
    ((turns [.read (.digest 0)]).seq ≠ .aRun ∧ (turns [.read (.digest 0)]).acc.valid = false ∧
      (turns [.read (.digest 0)]).env.agenda = .read (.digest 0) :: [] ∧
      (turns [.read (.acceptOut 0)]).env.agenda = .read (.acceptOut 0) :: []) ∧
    ((hostIn .ePay (.read (.txPbuf 69999))).seq ≠ .mRun ∧ (turns [.read (.txPbuf 69999)]).buf.txPbuf.find 69999 = none ∧
      (hostIn .ePay (.read (.txPbuf 69999))).env.agenda = .read (.txPbuf 69999) :: []) ∧
    (63 < State.reset.cfg.nonceMax ∧ (turns [.read (.nonceBuf 63)]).buf.nonceBuf.find 63 = none ∧
      (hostIn .aRun (.read (.nonceBuf 63))).env.agenda = .read (.nonceBuf 63) :: []) := by
  decide

/-- A decoded unmasked Text frame "H", and HOST about to copy it. -/
def decoded : State :=
  { decoding .idle false 1 (.of 1) noKeyBytes 3 ⟨0, 0, 0, 0, 1⟩ { Env.quiet with agenda := copyLine 1 } with
    status := { Status.atReset with done := true, lastCmd := 1 }
    rx := { (decoding .idle false 1 (.of 1) noKeyBytes 3 ⟨0, 0, 0, 0, 1⟩ Env.quiet).rx with frameValid := true }
    buf := { Buffers.atReset with rxPbuf := [(0, 0x48)] } }

theorem decoded_inv : Inv decoded where
  config := by decide
  status := by simp [statusInv, decoded, decoding, State.reset, State.resetWith, Status.atReset]
  buffers := And.intro (And.intro rfl rfl) (And.intro (And.intro rfl rfl) (And.intro rfl rfl))
  phase := trivial
  frame := fun _ => And.intro rfl (And.intro rfl (And.intro rfl (And.intro rfl (And.intro (fun h => by cases h)
    (And.intro rfl (And.intro rfl (And.intro (And.intro rfl (show 1 ≤ 70000 by decide)) (And.intro
      (And.intro (fun h => by cases h) (fun _ => show ∀ i : Fin 4, noKeyBytes[i].known = false by decide))
      (And.intro (show ∀ a, a < 1 → (Memory.find [(0, 0x48)] a).isSome = true by decide) rfl)))))))))
  accept := fun h => by cases h

/-- The state after that frame, with one turn of HOST's, and results of the other commands too. -/
def withResults (r : HostRead) : State :=
  { decoded with
    op := zeroOperands
    enc := { EncRegs.atReset with txBytes := .of 7 }
    acc := { AcceptRegs.atReset with valid := true }
    buf := { rxPbuf := [(0, 0x48)], txPbuf := [(69999, 1)], nonceBuf := [(63, 2)] }
    env := { Env.quiet with agenda := [.read r] } }

theorem witness_HostReadsReturnValues :
    (let s := withResults .opLen
     s.op.len.known = true ∧ s.env.agenda = .read .opLen :: [] ∧ s.op.key[(3 : Fin 4)] = .of 0 ∧
       (withResults (.opKey 3)).env.agenda = .read (.opKey 3) :: []) ∧
    (let s := withResults .rxLen
     s.seq ∉ [.dB0, .dB1, .dExt, .dKey, .dPay, .dChk] ∧ s.rx.len.known = true ∧ s.env.agenda = .read .rxLen :: []) ∧
    (let s : State := { withResults (.rxKey 3) with rx := { (withResults (.rxKey 3)).rx with key := sampleKey } }
     s.rx.key[(3 : Fin 4)] = .of 0x3D ∧ s.env.agenda = .read (.rxKey 3) :: []) ∧
    (let s := withResults (.rxPbuf 0)
     0 < s.cfg.pbufBytes ∧ s.rx.frameValid = true ∧ s.buf.rxPbuf.find 0 = some 0x48 ∧
       s.env.agenda = .read (.rxPbuf 0) :: []) ∧
    (let s := withResults .txBytes
     s.seq ∉ [.eHdr, .ePay] ∧ s.enc.txBytes = .of 7 ∧ s.env.agenda = .read .txBytes :: []) ∧
    (let s := withResults (.digest 19)
     s.seq ≠ .aRun ∧ s.acc.valid = true ∧ s.env.agenda = .read (.digest 19) :: [] ∧
       (withResults (.acceptOut 27)).env.agenda = .read (.acceptOut 27) :: [] ∧
       (withResults .acceptValid).env.agenda = .read .acceptValid :: []) ∧
    (let s := withResults (.txPbuf 69999)
     s.seq ≠ .mRun ∧ 69999 < s.cfg.pbufBytes ∧ s.buf.txPbuf.find 69999 = some 1 ∧
       s.env.agenda = .read (.txPbuf 69999) :: []) ∧
    (let s := withResults (.nonceBuf 63)
     63 < s.cfg.nonceMax ∧ s.buf.nonceBuf.find 63 = some 2 ∧ s.env.agenda = .read (.nonceBuf 63) :: []) := by
  decide

/-- 10_state.md R21, 60_exceptions.md R240: two codes as HOST reads them after a command of a reserved code. -/
theorem test_status_codes :
    field (runSteps 2 { ready 7 true 1 5 with env := { Env.quiet with offer := some 7, agenda := [.codec, .read .state] } })
      (fun t => t.env.hostSaw) = some (some 15) ∧
    field (runSteps 2 { ready 7 true 1 5 with env := { Env.quiet with offer := some 7, agenda := [.codec, .read .errCode] } })
      (fun t => t.env.hostSaw) = some (some 11) := by
  decide

/-- 20_memory.md R74: the first and the last byte of GUID_ROM; 10_state.md R34 with R216: ACCEPT_VALID in A_RUN. -/
theorem test_host_reads :
    field (step (turns [.read (.guidRom 0)])) (fun t => t.env.hostSaw) = some (some 0x32) ∧
      field (step (turns [.read (.guidRom 35)])) (fun t => t.env.hostSaw) = some (some 0x31) ∧
      step (hostIn .aRun (.read .acceptValid)) = .fault .bufferHazard := by
  exact ⟨by decide, by decide, rfl⟩

theorem witness_CopyMovesDecodedPayload :
    Inv decoded ∧ decoded.seq ∈ [.idle, .aRun, .error] ∧ decoded.rx.frameValid = true ∧ 1 ≤ decoded.rx.len.val.toNat ∧
      decoded.env.agenda = copyLine 1 ++ [] :=
  ⟨decoded_inv, by decide, rfl, by decide, rfl⟩

/-! ### Witnesses: whole commands, invariants -/

/-- The payload "Hello". -/
def hello : List Byte := [0x48, 0x65, 0x6C, 0x6C, 0x6F]

theorem ready_payload : ∀ (i : Nat) (x : Byte), hello[i]? = some x → (ready 2 true 1 5).buf.txPbuf.find i = some x := by
  have h : ∀ i, i < 5 → (ready 2 true 1 5).buf.txPbuf.find i = hello[i]? := by decide
  intro i x hx
  rw [h i (by simpa [hello] using (List.getElem?_eq_some_iff.1 hx).1), hx]

theorem witness_EncodeEmitsTheFrame :
    let s : State := { ready 2 true 1 5 with
      env := { Env.quiet with offer := some 2, txReady := false, agenda := [.codec, .txSink true] } }
    s.seq = .idle ∧ (∀ turn ∈ s.env.agenda, turn.drains = true) ∧ readyAfter s.env.txReady s.env.agenda = true ∧
      s.env.offer = some 2 ∧ s.cfg.wf = true ∧
      s.op.fin = .of true ∧ s.op.opcode = .of 1 ∧ s.op.len = .of (BitVec.ofNat 64 hello.length) ∧
      hello.length ≤ s.cfg.pbufBytes ∧ (∀ (i : Nat) (x : Byte), hello[i]? = some x → s.buf.txPbuf.find i = some x) ∧
      (encodedFrame true 1 hello).legal :=
  ⟨rfl, by decide, rfl, rfl, by decide, rfl, rfl, rfl, by decide, ready_payload,
    And.intro rfl (And.intro (fun h => by cases h) (show 5 ≤ 125 by decide))⟩

/-- Vector D-T2 as a frame. -/
def maskedHello : WireFrame := ⟨true, 1, .direct, some #v[0x37, 0xFA, 0x21, 0x3D], hello⟩

/-- Vector D-T2: the bytes of that frame. -/
theorem test_masked_frame_bytes :
    maskedHello.bytes = [0x81, 0x85, 0x37, 0xFA, 0x21, 0x3D, 0x7F, 0x9F, 0x4D, 0x51, 0x58] := by
  decide

/-- An idle block with DECODE offered. -/
def toDecode (bytes : List Byte) (closed : Bool) : State :=
  { State.reset with env := { Env.quiet with rx := bytes, rxClosed := closed, offer := some 1 } }

/-- An idle block with DECODE offered, two bytes at hand, and the rest to come after a turn of the CODEC's. -/
def toGather (bytes : List Byte) (tail : List Turn) : State :=
  { State.reset with
    env := { Env.quiet with rx := bytes.take 2, offer := some 1, agenda := [.codec, .rxAppend (bytes.drop 2)] ++ tail } }

/-- Vector D-T2: two steps more than the frame has bytes. -/
theorem test_decode_masked_frame :
    field (runSteps 13 (toDecode maskedHello.bytes false)) (fun t => (t.status.done, t.rx.frameValid, t.rx.frameBytes,
      t.buf.rxPbuf)) = some (true, true, .of 11, [(0, 0x48), (1, 0x65), (2, 0x6C), (3, 0x6C), (4, 0x6F)]) := by
  decide +kernel

theorem witness_DecodeDeliversTheFrame :
    (let s := toDecode (maskedHello.bytes ++ [0x88]) false
     maskedHello.legal ∧ maskedHello.payload.length ≤ s.cfg.pbufBytes ∧ s.seq = .idle ∧
       (∀ turn ∈ s.env.agenda, turn.delivers = true) ∧ s.env.offer = some 1 ∧ feed s = maskedHello.bytes ++ [0x88]) ∧
    (let s := toGather (maskedHello.bytes ++ [0x88]) [.rxClose, .codec]
     s.seq = .idle ∧ (∀ turn ∈ s.env.agenda, turn.delivers = true) ∧ s.env.offer = some 1 ∧
       feed s = maskedHello.bytes ++ [0x88]) :=
  ⟨⟨And.intro rfl (And.intro (fun h => by cases h) (show 5 ≤ 125 by decide)), by decide, rfl, by decide, rfl, rfl⟩,
    rfl, by decide, rfl, rfl⟩

theorem witness_CutFrameIsNeverDelivered :
    (∀ n, n < 11 →
      let s := toDecode (maskedHello.bytes.take n) true
      isReservedOp maskedHello.op = false ∧ maskedHello.fits ∧ maskedHello.payload.length ≤ s.cfg.pbufBytes ∧
        n < maskedHello.bytes.length ∧ s.seq = .idle ∧ (∀ turn ∈ s.env.agenda, turn.delivers = true) ∧
        s.env.offer = some 1 ∧ feed s = maskedHello.bytes.take n ∧ closesBy s = true) ∧
    (let s := toGather (maskedHello.bytes.take 10) [.rxClose]
     10 < maskedHello.bytes.length ∧ s.seq = .idle ∧ (∀ turn ∈ s.env.agenda, turn.delivers = true) ∧
       s.env.offer = some 1 ∧ feed s = maskedHello.bytes.take 10 ∧ closesBy s = true) :=
  ⟨fun _ hn => ⟨rfl, show 5 ≤ 125 by decide, show 5 ≤ 70000 by decide, hn, rfl, (fun _ h => by cases h), rfl,
    List.append_nil _, rfl⟩, by decide, rfl, by decide, rfl, rfl, by decide⟩

/-- Vector D-E19 as a frame. -/
def brokenPing : WireFrame := ⟨false, 9, .direct, none, []⟩

theorem witness_BadControlFrameTakenWhole :
    (let s := toGather (brokenPing.bytes ++ [0x81]) []
     brokenPing.op ∈ [0x8, 0x9, 0xA] ∧ (brokenPing.fin = false ∨ 125 < brokenPing.payload.length) ∧ brokenPing.fits ∧
       brokenPing.payload.length ≤ s.cfg.pbufBytes ∧ s.seq = .idle ∧ (∀ turn ∈ s.env.agenda, turn.delivers = true) ∧
       s.env.offer = some 1 ∧ feed s = brokenPing.bytes ++ [0x81]) ∧
    (let f : WireFrame := ⟨true, 8, .ext16, none, List.replicate 126 0⟩
     f.op ∈ [0x8, 0x9, 0xA] ∧ (f.fin = false ∨ 125 < f.payload.length) ∧ f.fits) :=
  ⟨⟨by decide, .inl rfl, show 0 ≤ 125 by decide, by decide, rfl, by decide, rfl, rfl⟩,
    ⟨by decide, .inr (by decide +kernel), show (List.replicate 126 (0 : Byte)).length ≤ 65535 by decide +kernel⟩⟩

theorem witness_RoundTrip :
    (let s := ready 2 true 1 5
     s.seq = .idle ∧ (∀ turn ∈ s.env.agenda, turn.drains = true) ∧ readyAfter s.env.txReady s.env.agenda = true ∧
       s.env.offer = some 2 ∧ s.cfg.wf = true ∧
       s.op.fin = .of true ∧ s.op.opcode = .of 1 ∧ s.op.len = .of (BitVec.ofNat 64 hello.length) ∧
       hello.length ≤ s.cfg.pbufBytes ∧ (∀ (i : Nat) (x : Byte), hello[i]? = some x → s.buf.txPbuf.find i = some x) ∧
       isReservedOp 1 = false ∧ (isControlOp 1 = true → true = true ∧ hello.length ≤ 125)) ∧
    (let u := toGather (encodedFrame true 1 hello).bytes [.rxClose]
     (∀ turn ∈ u.env.agenda, turn.delivers = true) ∧ feed u = (encodedFrame true 1 hello).bytes) :=
  ⟨⟨rfl, (fun _ h => by cases h), rfl, rfl, by decide, rfl, rfl, rfl, by decide, ready_payload, rfl,
    fun h => by cases h⟩, by decide, by decide⟩

/-- Vector D-T2, in two deliveries: 20_memory.md R77. -/
theorem test_decode_in_pieces :
    field (runSteps 15 (toGather maskedHello.bytes [])) (fun t => (t.status.done, t.rx.frameValid, t.rx.frameBytes,
      t.buf.rxPbuf)) = some (true, true, .of 11, [(0, 0x48), (1, 0x65), (2, 0x6C), (3, 0x6C), (4, 0x6F)]) := by
  decide +kernel

theorem witness_StepKeepsInv :
    Inv (receiving .dB0 0 [0x81]) ∧ registersHoldValues (receiving .dB0 0 [0x81]) ∧
      ∃ t, step (receiving .dB0 0 [0x81]) = .next t :=
  ⟨receiving_dB0_inv _, by unfold registersHoldValues; decide +kernel, _, rfl⟩

theorem witness_CodecStopsOnlyOnHostsValues :
    codecMoves (atEncPay [] Env.quiet) (atEncPay [] Env.quiet) ∧ Inv (atEncPay [] Env.quiet) ∧
      registersHoldValues (atEncPay [] Env.quiet) ∧ step (atEncPay [] Env.quiet) = .fault .unwrittenRead :=
  ⟨moves_quiet rfl, atEncPay_inv _ rfl rfl _, by unfold registersHoldValues; decide, rfl⟩

/-- Log 3: every command runs from reset, its operands unwritten; ACCEPT_KEY then has an empty nonce (R201). -/
theorem test_commands_run_from_reset :
    field (runSteps 3 { State.reset with env := { Env.quiet with offer := some 2 } }) (fun t => (t.status.done, t.env.tx)) =
        some (true, [0x00, 0x00]) ∧
      field (runSteps 2 { State.reset with env := { Env.quiet with offer := some 3 } }) (fun t => t.status.done) =
        some true ∧
      field (step { State.reset with env := { Env.quiet with offer := some 4 } }) (fun t => t.status.errCode) =
        some .invalidInput := by
  decide

end Sys2Proof.Tests
end

section
/-! The command port: what a turn of the CODEC leaves alone while an offer waits, and what acceptance does with it
(30_encoding.md R101). -/

namespace Sys2Proof.Machine

/-! ### Outside IDLE -/

/-- From `s` to `t` the command port stands still: the offer still waits, and nothing is latched. -/
structure PortKept (s t : State) : Prop where
  offer   : t.env.offer = s.env.offer
  lastCmd : t.status.lastCmd = s.status.lastCmd
  latch   : t.latch = s.latch
  op      : t.op = s.op

theorem PortKept.refl (s : State) : PortKept s s := ⟨rfl, rfl, rfl, rfl⟩

theorem PortKept.trans {s t u : State} (h : PortKept s t) (h' : PortKept t u) : PortKept s u :=
  ⟨h'.offer.trans h.offer, h'.lastCmd.trans h.lastCmd, h'.latch.trans h.latch, h'.op.trans h.op⟩

theorem raise_portKept (e : ErrCode) (s : State) : PortKept s (raise e s) := ⟨rfl, rfl, rfl, rfl⟩

/-- R101, log 8: outside its phase a row does nothing, so it keeps the port if its meaning inside does. -/
theorem inPhase_portKept {q : Seq} {s t : State} {r : Result} (hr : r = .next t → PortKept s t)
    (h : inPhase q s r = .next t) : PortKept s t := by
  rcases inPhase_next.1 h with ⟨-, h⟩ | ⟨-, rfl⟩
  · exact hr h
  · exact .refl s

/-- R76: a step that takes a byte keeps the port if what it does with the byte does. -/
theorem rxTake_portKept {s t : State} {e : ErrCode} {k : Byte → State → Result}
    (hk : ∀ b v, k b v = .next t → PortKept v t) (h : rxTake s (.next (raise e s)) k = .next t) : PortKept s t := by
  rcases rxTake_cases s (.next (raise e s)) k with ⟨b, bs, -, hb⟩ | ⟨-, -, heos⟩ | ⟨-, -, hhold⟩
  · have taken : PortKept s { s with env := { s.env with rx := bs } } := ⟨rfl, rfl, rfl, rfl⟩
    exact taken.trans (hk b _ (hb.symm.trans h))
  · obtain rfl := Host.Outcome.next.inj (heos.symm.trans h)
    exact raise_portKept e s
  · obtain rfl := Host.Outcome.next.inj (hhold.symm.trans h)
    exact .refl s

/-- R138, R139: wherever the length leads, the port is kept. -/
theorem afterLength_portKept {len : Word64} {s t : State} (h : afterLength len s = .next t) : PortKept s t := by
  rcases afterLength_next.1 h with ⟨-, rfl⟩ | ⟨-, -, rfl⟩ | ⟨-, -, rfl⟩ <;> exact ⟨rfl, rfl, rfl, rfl⟩

/-- R122 to R125: whatever the byte, header byte 0 keeps the port. -/
theorem execByte0_portKept (b : Byte) (s : State) {t : State} (h : exec (decodeByte0 b) s = .next t) :
    PortKept s t := by
  rw [exec_decodeByte0, headerByte0_eq] at h
  refine inPhase_portKept (fun h => ?_) h
  obtain rfl := Host.Outcome.next.inj h
  split_ifs <;> exact ⟨rfl, rfl, rfl, rfl⟩

/-- R132, R133: whatever the byte, header byte 1 keeps the port. -/
theorem execByte1_portKept (b : Byte) (s : State) {t : State} (h : exec (decodeByte1 b) s = .next t) :
    PortKept s t := by
  rw [exec_decodeByte1] at h
  split_ifs at h
  case pos =>
    have fields : PortKept s { setByte1 (b.getLsbD 7) (b.extractLsb' 0 7) s with
        dec := { s.dec with extNeed := 0#4 } } := ⟨rfl, rfl, rfl, rfl⟩
    exact inPhase_portKept (fun h => fields.trans (afterLength_portKept h)) h
  all_goals
    refine inPhase_portKept (fun h => ?_) h
    obtain rfl := Host.Outcome.next.inj h
    exact ⟨rfl, rfl, rfl, rfl⟩

/-- R136: an extended-length byte keeps the port. -/
theorem extByte_portKept (b : Byte) (s : State) {t : State} (h : extByte b s = .next t) : PortKept s t := by
  have taken : PortKept s (extTaken b s) := ⟨rfl, rfl, rfl, rfl⟩
  rcases extByte_next.1 h with ⟨-, rfl⟩ | ⟨-, -, -, rfl⟩ | ⟨-, -, h⟩
  · exact taken
  · exact taken.trans (raise_portKept _ _)
  · exact taken.trans (afterLength_portKept h)

/-- R140: a mask-key byte keeps the port. -/
theorem keyByteTaken_portKept (b : Byte) (s : State) {t : State} (h : keyByteTaken b s = .next t) : PortKept s t := by
  obtain ⟨_, ⟨-, rfl⟩ | ⟨-, _, -, rfl⟩⟩ := keyByteTaken_next.1 h <;> exact ⟨rfl, rfl, rfl, rfl⟩

/-- R141: a payload byte keeps the port. -/
theorem payByte_portKept (b : Byte) (s : State) {t : State} (h : payByte b s = .next t) : PortKept s t := by
  obtain ⟨_, _, -, -, -, rfl⟩ := payByte_next.1 h
  exact ⟨rfl, rfl, rfl, rfl⟩

/-- R144, R145: the check keeps the port, whether the frame passes or not. -/
theorem stepChk_portKept {s t : State} (h : stepChk s = .next t) : PortKept s t := by
  obtain ⟨_, -, ⟨-, rfl⟩ | ⟨-, -, rfl⟩ | ⟨-, -, _, -, ⟨-, rfl⟩ | ⟨-, rfl⟩⟩⟩ := stepChk_next h <;>
    exact ⟨rfl, rfl, rfl, rfl⟩

/-- R177: a header byte emitted, or a hold, keeps the port. -/
theorem stepHdr_portKept {s t : State} (h : stepHdr s = .next t) : PortKept s t := by
  obtain ⟨-, rfl⟩ | ⟨-, b, -, ⟨-, rfl⟩ | ⟨-, _, -, rfl⟩⟩ := stepHdr_next.1 h
  · exact .refl s
  · exact ⟨rfl, rfl, rfl, rfl⟩
  · split_ifs <;> exact ⟨rfl, rfl, rfl, rfl⟩

/-- R178: a payload byte emitted, or a hold, keeps the port. -/
theorem stepEncPay_portKept {s t : State} (h : stepEncPay s = .next t) : PortKept s t := by
  obtain ⟨-, rfl⟩ | ⟨-, -, b, _, -, -, rfl⟩ := stepEncPay_next.1 h
  · exact .refl s
  · split_ifs <;> exact ⟨rfl, rfl, rfl, rfl⟩

/-- R101: in any STATE but IDLE, a turn of the CODEC leaves the offer waiting and latches nothing. -/
theorem codecTurn_portKept {s t : State} (hq : s.seq ≠ .idle) (h : codecTurn s = .next t) : PortKept s t := by
  unfold codecTurn at h
  cases hs : s.seq <;> simp only [hs] at h
  case idle => exact absurd hs hq
  case dB0 => exact rxTake_portKept (fun b v => execByte0_portKept b v) h
  case dB1 => exact rxTake_portKept (fun b v => execByte1_portKept b v) h
  case dExt => exact rxTake_portKept (fun b v => extByte_portKept b v) h
  case dKey => exact rxTake_portKept (fun b v => keyByteTaken_portKept b v) h
  case dPay => exact rxTake_portKept (fun b v => payByte_portKept b v) h
  case dChk => exact stepChk_portKept h
  case eHdr => exact stepHdr_portKept h
  case ePay => exact stepEncPay_portKept h
  case mRun =>
    obtain ⟨_, _, -, -, rfl⟩ := stepMask_next.1 h
    exact ⟨rfl, rfl, rfl, rfl⟩
  case aRun =>
    obtain ⟨_, _, -, -, rfl⟩ := stepAccept_next.1 h
    exact ⟨rfl, rfl, rfl, rfl⟩
  case error =>
    obtain rfl := Host.Outcome.next.inj h
    exact .refl s

/-! ### In IDLE -/

/-- R101: in IDLE the CODEC's turn runs the row of the offered code, the offer gone. -/
theorem codecTurn_idle_offer {s : State} {c : Cmd} (hq : s.seq = .idle) (ho : s.env.offer = some c) :
    codecTurn s = exec (decodeCmd c) { s with env := { s.env with offer := none } } := by
  simp [codecTurn, hq, stepIdle, ho]

/-- From `s` to `t` command `c` is accepted: its code and every operand are latched, and DONE is cleared. -/
structure Accepted (c : Cmd) (s t : State) : Prop where
  offer   : t.env.offer = s.env.offer
  lastCmd : t.status.lastCmd = c
  done    : t.status.done = false
  latch   : t.latch = s.op
  op      : t.op = s.op

/-- R101: whatever the command, and whatever its checks answer, running its row in IDLE accepts it. -/
theorem accepted_of_exec {c : Cmd} {s t : State} (hexec : exec (decodeCmd c) s = .next t) (hq : s.seq = .idle) :
    Accepted c s t := by
  rcases accept_next hq hexec with ⟨rfl, rfl⟩ | ⟨rfl, h⟩ | ⟨rfl, _, -, rfl⟩ | ⟨rfl, _, -, rfl⟩ | ⟨-, rfl⟩
  · exact ⟨rfl, rfl, rfl, rfl, rfl⟩
  · rcases acceptEncode_next h with rfl | ⟨_, _, _, -, -, -, -, -, -, rfl⟩ <;> exact ⟨rfl, rfl, rfl, rfl, rfl⟩
  · split_ifs <;> exact ⟨rfl, rfl, rfl, rfl, rfl⟩
  · split_ifs <;> exact ⟨rfl, rfl, rfl, rfl, rfl⟩
  · exact ⟨rfl, rfl, rfl, rfl, rfl⟩

/-- R100: the rows of the four commands. -/
theorem decodeCmd_of_mem {c : Cmd} {i : Instr}
    (h : (c, i) ∈ [(1, Instr.decode), (2, .encode), (3, .maskApply), (4, .acceptKey)]) : decodeCmd c = i := by
  simp only [List.mem_cons, List.not_mem_nil, or_false, Prod.mk.injEq] at h
  rcases h with ⟨rfl, rfl⟩ | ⟨rfl, rfl⟩ | ⟨rfl, rfl⟩ | ⟨rfl, rfl⟩ <;> rfl

/-- R101: the row of a reserved code, run in IDLE, raises IllegalCommand once the operands are latched. -/
theorem exec_reservedCmd {c : Cmd} {s : State} (hc : c ∈ [0, 5, 6, 7]) (hq : s.seq = .idle) :
    exec (decodeCmd c) s = .next (raise .illegalCommand (latchOperands c s)) := by
  have row : exec (decodeCmd c) s = refuseCommand c s := by
    simp only [List.mem_cons, List.not_mem_nil, or_false] at hc
    rcases hc with rfl | rfl | rfl | rfl <;> rfl
  rw [row, refuseCommand, inPhase_pos _ hq]

/-- Settles O7: outside IDLE by the frame of the CODEC's turn, in IDLE by the acceptance of the offered code's row. -/
theorem commandsAcceptedOnlyInIdle : Obligations.CommandsAcceptedOnlyInIdle := by
  intro s u t c hmoves hoffer hstep
  obtain ⟨hturn, -⟩ := codecMoves_step hmoves
  rw [hturn] at hstep
  refine ⟨fun hidle => ?_, fun hother => ?_⟩
  · rw [codecTurn_idle_offer hidle hoffer] at hstep
    obtain ⟨ho, hcmd, hdone, hlatch, hop⟩ := accepted_of_exec hstep hidle
    refine ⟨ho, hcmd, hdone, hlatch, hop, fun i hi => ?_, fun hc => ?_⟩
    · rwa [← decodeCmd_of_mem hi]
    · obtain rfl := Host.Outcome.next.inj (hstep.symm.trans (exec_reservedCmd hc hidle))
      simp only [raise, latchOperands, hidle]
  · obtain ⟨ho, hcmd, hlatch, hop⟩ := codecTurn_portKept hother hstep
    exact ⟨ho.trans hoffer, hcmd, hlatch, hop⟩

end Sys2Proof.Machine
end

section
/-! The decoder's header, key and check steps (40_decode.md R122 to R145): what each taken byte, and the end of the
stream, makes of the state. -/

namespace Sys2Proof.Machine

/-! ### The CODEC's turn -/

theorem codecTurn_dB0 {s : State} (h : s.seq = .dB0) : codecTurn s = stepB0 s := by simp only [codecTurn, h]

theorem codecTurn_dB1 {s : State} (h : s.seq = .dB1) : codecTurn s = stepB1 s := by simp only [codecTurn, h]

theorem codecTurn_dExt {s : State} (h : s.seq = .dExt) : codecTurn s = stepExt s := by simp only [codecTurn, h]

theorem codecTurn_dKey {s : State} (h : s.seq = .dKey) : codecTurn s = stepKey s := by simp only [codecTurn, h]

theorem codecTurn_dChk {s : State} (h : s.seq = .dChk) : codecTurn s = stepChk s := by simp only [codecTurn, h]

/-- R76: where the CODEC's turn takes a byte and one is at hand, the step is what that byte means. -/
theorem step_of_byte {s u : State} {e : Result} {k : Byte → State → Result} {b : Byte} {bs : List Byte}
    (hmoves : codecMoves s u) (hturn : codecTurn u = rxTake u e k) (hrx : u.env.rx = b :: bs) :
    step s = k b (withRx bs u) := by
  rw [(codecMoves_step hmoves).1, hturn, rxTake_byte hrx]
  rfl

/-- R76: where the CODEC's turn takes a byte and the stream has ended, the step is the turn's answer to that. -/
theorem step_of_eos {s u : State} {e : Result} {k : Byte → State → Result}
    (hmoves : codecMoves s u) (hturn : codecTurn u = rxTake u e k) (hrx : u.env.rx = [])
    (hclosed : u.env.rxClosed = true) : step s = e := by
  rw [(codecMoves_step hmoves).1, hturn, rxTake_eos hrx hclosed]

/-! ### Opcode classes -/

/-- R92, R125: the reserved opcodes, one by one. -/
theorem isReservedOp_iff (op : BitVec 4) :
    isReservedOp op = true ↔ op ∈ [0x3#4, 0x4, 0x5, 0x6, 0x7, 0xB, 0xC, 0xD, 0xE, 0xF] := by
  revert op
  decide

/-- R93, R144: the control opcodes, one by one. -/
theorem isControlOp_iff (op : BitVec 4) : isControlOp op = true ↔ op ∈ [0x8#4, 0x9#4, 0xA#4] := by
  revert op
  decide

/-! ### Header byte 0 -/

/-- Settles O10: the row of any byte means R122's step on the byte's three fields. -/
theorem headerByte0Step : Obligations.HeaderByte0Step := by
  intro s u hmoves hq
  refine ⟨fun b bs hrx => ?_, step_of_eos hmoves (codecTurn_dB0 hq)⟩
  rw [step_of_byte hmoves (codecTurn_dB0 hq) hrx, exec_decodeByte0, inPhase_pos (s := withRx bs u) _ hq,
    headerByte0_eq]
  simp only [isReservedOp_iff]
  rfl

/-! ### The length decoder -/

/-- R138, R139: once RX_MASKED has its value, the length decoder always has a next state. -/
theorem afterLength_eq (len : Word64) {masked : Bool} {s : State} (hm : s.rx.masked = .of masked) :
    let w : State := { s with rx := { s.rx with len := .of len } }
    afterLength len s = .next
      (if s.cfg.pbufBytes < len.toNat then raise .payloadTooLarge w
       else if masked then { w with dec := { w.dec with keyCnt := 0#3 }, seq := .dKey }
       else if 0#64 < len then { w with seq := .dPay } else { w with seq := .dChk }) := by
  unfold afterLength
  simp only [hm, Reg.read_of, need_ok]
  split_ifs <;> rfl

/-- R132, R133, DIRECT: the three fields of header byte 1, then R138 and R139 on LEN7. -/
theorem execLenDirect_eq (mask : Bool) (len7 : BitVec 7) {s : State} (hq : s.seq = .dB1) :
    let w : State := { s with
      rx := { (setByte1 mask len7 s).rx with len := .of (len7.setWidth 64) }
      dec := { s.dec with extNeed := 0#4 } }
    execLenDirect mask len7 s = .next
      (if s.cfg.pbufBytes < len7.toNat then raise .payloadTooLarge w
       else if mask then { w with dec := { w.dec with keyCnt := 0#3 }, seq := .dKey }
       else if 0#7 < len7 then { w with seq := .dPay } else { w with seq := .dChk }) := by
  have hlen : (len7.setWidth 64).toNat = len7.toNat := BitVec.toNat_setWidth_of_le (by decide)
  have hpos : 0#64 < len7.setWidth 64 ↔ 0#7 < len7 := by simp only [BitVec.lt_def, hlen, BitVec.toNat_zero]
  rw [execLenDirect, inPhase_pos _ hq, afterLength_eq (masked := mask) _ rfl]
  simp only [hlen, hpos]
  rfl

/-- Settles O12: LEN7 selects one of the three length rows, and each has its whole next state. -/
theorem headerByte1Step : Obligations.HeaderByte1Step := by
  intro s u hmoves hq
  refine ⟨fun b bs hrx => ?_, step_of_eos hmoves (codecTurn_dB1 hq)⟩
  have hstep := step_of_byte hmoves (codecTurn_dB1 hq) hrx
  rw [exec_decodeByte1] at hstep
  refine ⟨fun (hdirect : b.extractLsb' 0 7 ≤ 125#7) => ?_, fun (hext16 : b.extractLsb' 0 7 = 126#7) => ?_,
    fun (hext64 : b.extractLsb' 0 7 = 127#7) => ?_⟩
  · rw [hstep, if_pos hdirect, execLenDirect_eq (s := withRx bs u) _ _ hq]
    rfl
  · rw [hstep, hext16, if_neg (by decide), if_pos rfl]
    exact inPhase_pos (s := withRx bs u) _ hq
  · rw [hstep, hext64, if_neg (by decide), if_neg (by decide)]
    exact inPhase_pos (s := withRx bs u) _ hq

/-- R136, with R134 and R135 for the last byte: the byte is counted and accumulated, and a finished length is fixed
unless bit 63 of an EXT64 length is set. -/
theorem extByte_eq (r : Byte) {masked : Bool} {s : State} (hm : s.rx.masked = .of masked) :
    let v := extTaken r s
    let w : State := { v with rx := { v.rx with len := .of v.dec.extAcc } }
    extByte r s = .next
      (if s.dec.extCnt + 1#4 ≠ s.dec.extNeed then v
       else if s.dec.extNeed ≠ 2#4 ∧ v.dec.extAcc.msb = true then raise .lengthOverflow v
       else if s.cfg.pbufBytes < v.dec.extAcc.toNat then raise .payloadTooLarge w
       else if masked then { w with dec := { w.dec with keyCnt := 0#3 }, seq := .dKey }
       else if 0#64 < v.dec.extAcc then { w with seq := .dPay } else { w with seq := .dChk }) := by
  intro v w
  rw [extByte_next]
  by_cases hmore : s.dec.extCnt + 1#4 ≠ s.dec.extNeed
  · exact .inl ⟨hmore, (if_pos hmore).symm⟩
  have hlast := not_not.1 hmore
  rw [if_neg hmore]
  by_cases hover : s.dec.extNeed ≠ 2#4 ∧ v.dec.extAcc.msb = true
  · exact .inr (.inl ⟨hlast, hover.1, hover.2, (if_pos hover).symm⟩)
  have hfits : s.dec.extNeed = 2#4 ∨ v.dec.extAcc.msb = false := by
    rwa [not_and_or, not_not, Bool.not_eq_true] at hover
  rw [if_neg hover]
  exact .inr (.inr ⟨hlast, hfits, afterLength_eq _ hm⟩)

/-- Settles O13: the invariant gives RX_MASKED and FRAME_BYTES their values, and the taken byte does the rest. -/
theorem extendedLengthStep : Obligations.ExtendedLengthStep := by
  intro s u hmoves hinv hq
  refine ⟨fun r bs hrx => ?_, step_of_eos hmoves (codecTurn_dExt hq)⟩
  have hphase := hinv.phase
  simp only [phaseInv, hq] at hphase
  obtain ⟨⟨-, hbytes⟩, -, ⟨hknown, -⟩, -⟩ := hphase
  have hcounts : u.rx.frameBytes.known = true := by rw [hbytes]
  have hm := Reg.eq_of_known hknown
  have hmasked : u.rx.masked = .of true ↔ u.rx.masked.val = true :=
    ⟨congrArg Reg.val, fun h => hm.trans (congrArg Reg.of h)⟩
  rw [step_of_byte hmoves (codecTurn_dExt hq) hrx, extByte_eq r (s := withRx bs u) hm]
  simp only [extTaken, withRx, BitVec.msb_eq_getLsbD_last, hcounts, hmasked]
  rfl

/-! ### The key -/

/-- R140: a key byte is stored inside RX_KEY, and the last one leads to the payload or the check. -/
theorem keyByteTaken_eq (r : Byte) {len : Word64} {s : State} (hcnt : s.dec.keyCnt.toNat < 4)
    (hlen : s.rx.len = .of len) :
    keyByteTaken r s = .next { keyTaken (s.rx.key.setIfInBounds s.dec.keyCnt.toNat (.of r)) s with
      seq := if s.dec.keyCnt + 1#3 = 4#3 then (if 0#64 < len then .dPay else .dChk) else s.seq } := by
  have hset : s.rx.key.setIfInBounds s.dec.keyCnt.toNat (.of r) = s.rx.key.set s.dec.keyCnt.toNat (.of r) :=
    Vector.ext fun i _ => by rw [Vector.getElem_setIfInBounds, Vector.getElem_set]
  rw [hset, keyByteTaken_next]
  by_cases hlast : s.dec.keyCnt + 1#3 = 4#3
  · exact ⟨hcnt, .inr ⟨hlast, len, hlen, by rw [if_pos hlast]⟩⟩
  · exact ⟨hcnt, .inl ⟨hlast, by rw [if_neg hlast]; rfl⟩⟩

/-- The key of a frame that is past its header, or valid: all of it where the frame is masked, none of it otherwise. -/
theorem Inv.keyIn {s : State} (h : Inv s) (hs : s.seq = .dPay ∨ s.seq = .dChk ∨ s.rx.frameValid = true) :
    Machine.keyIn s := by
  have hphase := h.phase
  rcases hs with hq | hq | hvalid
  case inr.inr =>
    obtain ⟨-, -, -, -, -, -, -, -, hkey, -⟩ := h.frame hvalid
    exact hkey
  all_goals
    simp only [phaseInv, hq] at hphase
    obtain ⟨-, -, -, -, hkey, -⟩ := hphase
    exact hkey

/-- Settles O14: the invariant keeps KEY_CNT inside RX_KEY, RX_LEN with its value, and no key without a mask. -/
theorem keyByteStep : Obligations.KeyByteStep := by
  intro s u hmoves hinv
  refine ⟨fun hq => ?_, fun hs hm => (hinv.keyIn hs).2 (congrArg Reg.val hm)⟩
  have hphase := hinv.phase
  simp only [phaseInv, hq] at hphase
  obtain ⟨⟨-, hbytes⟩, -, ⟨hknown, -⟩, ⟨hlen, -⟩, hmasked, hcnt, -⟩ := hphase
  have hcounts : u.rx.frameBytes.known = true := by rw [hbytes]
  refine ⟨(Reg.eq_of_known hknown).trans (congrArg Reg.of hmasked), fun r bs hrx => ?_,
    step_of_eos hmoves (codecTurn_dKey hq)⟩
  rw [step_of_byte hmoves (codecTurn_dKey hq) hrx,
    keyByteTaken_eq r (s := withRx bs u) (BitVec.lt_def.1 hcnt) (Reg.eq_of_known hlen)]
  simp only [keyTaken, withRx, hcounts, hq]
  rfl

/-! ### The check -/

/-- R144, R145: once FIN, opcode and length have their values, the check rejects a control frame that is fragmented or
longer than 125 bytes, and completes every other frame. -/
theorem stepChk_eq {fin : Bool} {op : BitVec 4} {len : Word64} {s : State} (hf : s.rx.fin = .of fin)
    (ho : s.rx.opcode = .of op) (hl : s.rx.len = .of len) :
    stepChk s = .next
      (if isControlOp op = true ∧ (fin = false ∨ 125#64 < len) then raise .invalidControlFrame s
       else completeDecode s) := by
  unfold stepChk
  simp only [hf, ho, hl, Reg.read_of, need_ok]
  cases isControlOp op with
  | false => simp
  | true =>
    cases fin with
    | false => simp
    | true => by_cases hlong : 125#64 < len <;> simp [hlong]

/-- Settles O16: the invariant gives the checked fields their values, and says what a frame that passes holds. -/
theorem controlFrameCheckStep : Obligations.ControlFrameCheckStep := by
  intro s u hmoves hinv hq
  have hphase := hinv.phase
  simp only [phaseInv, hq] at hphase
  obtain ⟨-, ⟨hfin, hrsv, hop, -⟩, ⟨hknown, -⟩, ⟨hlen, -⟩, ⟨hkey, hnoKey⟩, -, hpayload⟩ := hphase
  have hf := Reg.eq_of_known hfin
  have ho := Reg.eq_of_known hop
  have hl := Reg.eq_of_known hlen
  have hstep : step s = stepChk u := (codecMoves_step hmoves).1.trans (codecTurn_dChk hq)
  simp only [stepChk_eq hf ho hl, isControlOp_iff] at hstep
  refine ⟨_, _, _, hf, ho, hl, fun hbad => ?_, fun hgood =>
    ⟨?_, hrsv, hpayload, _, Reg.eq_of_known hknown, fun i => ?_⟩⟩
  · exact hstep.trans (congrArg Host.Outcome.next (if_pos hbad))
  · exact hstep.trans (congrArg Host.Outcome.next (if_neg hgood))
  · cases hmasked : u.rx.masked.val with
    | true => exact hkey hmasked i
    | false => exact hnoKey hmasked i

end Sys2Proof.Machine
end

section
/-! ENCODE (41_encode.md R171 to R182): what its acceptance answers and the header it builds, what a payload byte
emitted makes of the state, and what no turn of it touches. -/

namespace Sys2Proof.Machine

/-! ### Acceptance -/

/-- R101, R171: ENCODE is accepted, and its checks are still to come. -/
def encodeLatched (s : State) : State :=
  { latchOperands 2#3 s with enc := { s.enc with txBytes := .of 0#64 } }

theorem exec_encode {s : State} (hq : s.seq = .idle) : exec .encode s = acceptEncode (encodeLatched s) :=
  inPhase_pos _ hq

/-- R171: once FIN, opcode and length have their values, the three checks reject or the header is built. -/
theorem acceptEncode_eq {fin : Bool} {op : BitVec 4} {len : Word64} {s : State} (hf : s.latch.fin = .of fin)
    (ho : s.latch.opcode = .of op) (hl : s.latch.len = .of len) :
    acceptEncode s = .next
      (if isReservedOp op = true ∨ (isControlOp op = true ∧ (fin = false ∨ 125#64 < len)) ∨
          s.cfg.pbufBytes < len.toNat then raise .invalidFrame s
       else startEncode fin op len s) := by
  have fits : encodeFits op s = .next
      (if s.cfg.pbufBytes < len.toNat then raise .invalidFrame s else startEncode fin op len s) := by
    unfold encodeFits
    simp only [hf, hl, Reg.read_of, need_ok]
    split_ifs <;> rfl
  unfold acceptEncode
  simp only [hf, ho, hl, Reg.read_of, need_ok, fits]
  cases isReservedOp op with
  | true => simp
  | false =>
    cases isControlOp op with
    | false => simp
    | true =>
      cases fin with
      | false => simp
      | true => by_cases hlong : 125#64 < len <;> simp [hlong]

/-! ### The header -/

/-- R171, R172: the encoder's registers with header byte 0 in place, before the length form is applied. -/
def headerBegun (fin : Bool) (op : BitVec 4) (s : State) : EncRegs :=
  encByte0 fin op { s.enc with cnt := 0#4, payCnt := 0#64 }

theorem startEncode_enc_eq (fin : Bool) (op : BitVec 4) (len : Word64) (s : State) :
    (startEncode fin op len s).enc = encLenForm len (headerBegun fin op s) := rfl

theorem headerBegun_byte0 (fin : Bool) (op : BitVec 4) (s : State) :
    (headerBegun fin op s).hdr[0] = byte0Of fin 0#3 op := by
  simp [headerBegun, encByte0]

theorem headerBegun_rest (fin : Bool) (op : BitVec 4) (s : State) {i : Fin 10} (h : 0 < i.val) :
    (headerBegun fin op s).hdr[i] = s.enc.hdr[i] := by
  simp [headerBegun, encByte0, h.ne]

/-- R173 to R175: no length form touches the counters. -/
theorem encLenForm_counters (len : Word64) (e : EncRegs) :
    (encLenForm len e).cnt = e.cnt ∧ (encLenForm len e).payCnt = e.payCnt ∧
      (encLenForm len e).txBytes = e.txBytes := by
  obtain ⟨-, -, h⟩ | ⟨-, -, -, h⟩ | ⟨-, -, h⟩ := lenForm_cases len e <;> rw [h] <;> exact ⟨rfl, rfl, rfl⟩

/-- R173 to R175: every length form keeps header byte 0, and the bytes from E_HDR_LEN on. -/
theorem encLenForm_hdr (len : Word64) (e : EncRegs) :
    (encLenForm len e).hdr[0] = e.hdr[0] ∧ 0 < (encLenForm len e).hdrLen.toNat ∧
      ∀ i : Fin 10, (encLenForm len e).hdrLen.toNat ≤ i.val → (encLenForm len e).hdr[i] = e.hdr[i] := by
  obtain ⟨-, -, h⟩ | ⟨-, -, -, h⟩ | ⟨-, -, h⟩ := lenForm_cases len e <;> rw [h]
  · refine ⟨by simp [encDirect], by simp [encDirect], fun i (hi : 2 ≤ i.val) => ?_⟩
    have hother : 1 ≠ i.val := by omega
    simp [encDirect, hother]
  · refine ⟨by simp [encExt16], by simp [encExt16], fun i (hi : 4 ≤ i.val) => ?_⟩
    have hother : 1 ≠ i.val ∧ 2 ≠ i.val ∧ 3 ≠ i.val := by omega
    simp [encExt16, hother]
  · exact ⟨by simp [encExt64], by simp [encExt64], fun i (hi : 10 ≤ i.val) => absurd i.isLt (by omega)⟩

/-- R172: the fields of header byte 0, with RSV = 000. -/
theorem byte0Of_noRsv : ∀ (fin : Bool) (op : BitVec 4),
    byte0Of fin 0#3 op = ((BitVec.ofBool fin).setWidth 8 <<< 7) ||| op.setWidth 8 := by decide

/-- R176: with MASK = 0, header byte 1 is LEN7. -/
theorem byte1Of_unmasked : ∀ len7 : BitVec 7, byte1Of false len7 = len7.setWidth 8 := by decide

/-- R11, R79: the byte of weight 256^k of a length, by division and by shift. -/
theorem ofNat_div_eq_lenByte (len : Word64) (k : Nat) : BitVec.ofNat 8 (len.toNat / 256 ^ k) = lenByte len k := by
  apply BitVec.eq_of_toNat_eq
  simp [lenByte, Nat.shiftRight_eq_div_pow, Nat.pow_mul]

theorem beBytes_two (len : Word64) : beBytes 2 len.toNat = [lenByte len 1, lenByte len 0] := by
  simp only [beBytes, ofNat_div_eq_lenByte]

theorem beBytes_eight (len : Word64) :
    beBytes 8 len.toNat = [lenByte len 7, lenByte len 6, lenByte len 5, lenByte len 4, lenByte len 3, lenByte len 2,
      lenByte len 1, lenByte len 0] := by
  simp only [beBytes, ofNat_div_eq_lenByte]

/-- R7: PBUF_BYTES fits 63 bits. -/
theorem pbufBytes_le_of_wf {c : Config} (h : c.wf = true) : c.pbufBytes ≤ 2 ^ 63 - 1 := by
  simp only [Config.wf, Bool.and_eq_true, decide_eq_true_eq] at h
  obtain ⟨⟨⟨-, hcap⟩, -⟩, -⟩ := h
  exact hcap

/-- R175: a length below 2^63 leaves the top bit of its first byte 0. -/
theorem lenByte_top {len : Word64} (h : len.toNat < 2 ^ 63) : (lenByte len 7).getLsbD 7 = false := by
  have hbit : len.getLsbD 63 = false := Nat.testBit_lt_two_pow h
  simpa [lenByte] using hbit

/-- R173: the form DIRECT, its length in header byte 1. -/
theorem encLenForm_direct {len : Word64} (h : len ≤ 125#64) (e : EncRegs) :
    (encLenForm len e).hdrLen = 2 ∧ (encLenForm len e).hdr[1] = len.setWidth 8 := by
  have hform : encLenForm len e = encDirect (len.setWidth 7) e := if_pos h
  have hfits : len.toNat < 128 := Nat.lt_of_le_of_lt (BitVec.le_def.1 h) (by decide)
  have hlen7 : (len.setWidth 7).setWidth 8 = len.setWidth 8 := by
    apply BitVec.eq_of_toNat_eq
    simp only [BitVec.toNat_setWidth]
    omega
  rw [hform]
  exact ⟨rfl, by simp [encDirect, byte1Of_unmasked, hlen7]⟩

/-- R174: the form EXT16, its length in header bytes 2 and 3. -/
theorem encLenForm_ext16 {len : Word64} (h : 125#64 < len) (h' : len ≤ 65535#64) (e : EncRegs) :
    (encLenForm len e).hdrLen = 4 ∧ (encLenForm len e).hdr[1] = 126 ∧
      [(encLenForm len e).hdr[2], (encLenForm len e).hdr[3]] = beBytes 2 len.toNat := by
  rw [encLenForm, if_neg (BitVec.not_le.2 h), if_pos h', beBytes_two]
  exact ⟨rfl, by simp [encExt16, byte1Of_unmasked], by simp [encExt16]⟩

/-- R175: the form EXT64, its length in header bytes 2 to 9. -/
theorem encLenForm_ext64 {len : Word64} (h : 65535#64 < len) (e : EncRegs) :
    (encLenForm len e).hdrLen = 10 ∧ (encLenForm len e).hdr[1] = 127 ∧ (encLenForm len e).hdr[2] = lenByte len 7 ∧
      [(encLenForm len e).hdr[2], (encLenForm len e).hdr[3], (encLenForm len e).hdr[4], (encLenForm len e).hdr[5],
        (encLenForm len e).hdr[6], (encLenForm len e).hdr[7], (encLenForm len e).hdr[8], (encLenForm len e).hdr[9]] =
        beBytes 8 len.toNat := by
  have hlong : 125#64 < len := BitVec.lt_trans (by decide) h
  rw [encLenForm, if_neg (BitVec.not_le.2 hlong), if_neg (BitVec.not_le.2 h), beBytes_eight]
  exact ⟨rfl, by simp [encExt64, byte1Of_unmasked], by simp [encExt64], by simp [encExt64]⟩

/-- Settles O18: the checks have their three operands, so acceptance either rejects them or builds the header, in the
length form that the length selects. -/
theorem encodeAcceptance : Obligations.EncodeAcceptance := by
  intro s fin op len hq hcfg hf ho hl v bad
  have hexec : exec .encode s = .next (if bad then raise .invalidFrame v else startEncode fin op len v) := by
    rw [exec_encode hq, acceptEncode_eq (s := encodeLatched s) hf ho hl]
    simp only [isReservedOp_iff, isControlOp_iff]
    rfl
  refine ⟨fun hbad => by rw [hexec, if_pos hbad], fun hgood => ?_⟩
  rw [if_neg hgood] at hexec
  have hfits : len.toNat ≤ s.cfg.pbufBytes := Nat.not_lt.1 fun h => hgood (.inr (.inr h))
  have hbelow : len.toNat < 2 ^ 63 := Nat.lt_of_le_of_lt (hfits.trans (pbufBytes_le_of_wf hcfg)) (by decide)
  obtain ⟨hcnt, hpay, htx⟩ := encLenForm_counters len (headerBegun fin op v)
  obtain ⟨hfirst, hpos, hrest⟩ := encLenForm_hdr len (headerBegun fin op v)
  refine ⟨(startEncode fin op len v).enc, hexec, ?_⟩
  rw [startEncode_enc_eq]
  refine ⟨hcnt, hpay, htx, ?_, fun h => encLenForm_direct h _, fun h h' => encLenForm_ext16 h h' _, fun h => ?_,
    fun i hi => ?_⟩
  · rw [hfirst, headerBegun_byte0, byte0Of_noRsv]
  · obtain ⟨hlen, hbyte1, htop, hbytes⟩ := encLenForm_ext64 h (headerBegun fin op v)
    exact ⟨hlen, hbyte1, by rw [htop, lenByte_top hbelow], hbytes⟩
  · exact (hrest i hi).trans (headerBegun_rest fin op v (Nat.lt_of_lt_of_le hpos hi))

/-! ### Emission -/

theorem codecTurn_eHdr {s : State} (h : s.seq = .eHdr) : codecTurn s = stepHdr s := by simp only [codecTurn, h]

theorem codecTurn_ePay {s : State} (h : s.seq = .ePay) : codecTurn s = stepEncPay s := by simp only [codecTurn, h]

/-- R71: inside the buffer, only a byte with no value stops a read. -/
theorem Memory.load_none {m : Memory} {cap a : Nat} (ha : a < cap) (h : m.find a = none) :
    m.load cap a = .error .unwrittenRead := by
  simp only [Memory.load, if_pos ha, h]

/-- Settles O26: the invariant keeps the payload index inside TX_PBUF, and gives L_LEN and TX_BYTES their values. -/
theorem payloadEmissionStep : Obligations.PayloadEmissionStep := by
  intro s u hmoves hinv hq hready
  have hphase := hinv.phase
  simp only [phaseInv, hq] at hphase
  obtain ⟨hknown, hfits, hmore, hcount⟩ := hphase
  have hlen := Reg.eq_of_known hknown
  have hindex : u.enc.payCnt.toNat < u.cfg.pbufBytes := Nat.lt_of_lt_of_le hmore hfits
  have hcounts : u.enc.txBytes.known = true := by rw [hcount]
  rw [(codecMoves_step hmoves).1, codecTurn_ePay hq]
  refine ⟨fun hnone => ?_, fun b hb => ?_⟩
  · rw [stepEncPay, whenTxReady, if_pos hready, Memory.load_none hindex hnone, need_error]
  · intro v
    have hlast : u.latch.len = .of (u.enc.payCnt + 1) ↔ u.enc.payCnt + 1 = u.latch.len.val :=
      ⟨fun h => (congrArg Reg.val h).symm, fun h => hlen.trans (congrArg Reg.of h.symm)⟩
    refine stepEncPay_next.2 (.inr ⟨hready, hindex, b, _, hb, hlen, ?_⟩)
    simp only [hlast, paySent, hcounts]
    rfl

/-! ### The decoder's state -/

/-- From `s` to `t` the decoder, the buffers and the results of ACCEPT_KEY stand still. -/
structure DecoderKept (s t : State) : Prop where
  rx  : t.rx = s.rx
  dec : t.dec = s.dec
  buf : t.buf = s.buf
  acc : t.acc = s.acc
  sha : t.sha = s.sha

/-- The same state with other contents of RX_PBUF. -/
def withRxPbuf (m : Memory) (s : State) : State := { s with buf := { s.buf with rxPbuf := m } }

/-- ENCODE is running, or the CODEC is about to accept it (R182). -/
def atEncode (s : State) : Prop := (s.seq = .idle ∧ s.env.offer = some 2) ∨ s.seq = .eHdr ∨ s.seq = .ePay

/-- R101: an offered ENCODE is accepted. -/
theorem codecTurn_encode {s : State} (hq : s.seq = .idle) (ho : s.env.offer = some 2) :
    codecTurn s = acceptEncode (encodeLatched { s with env := { s.env with offer := none } }) :=
  (codecTurn_idle_offer hq ho).trans (exec_encode (s := { s with env := { s.env with offer := none } }) hq)

/-- R182: a turn of ENCODE leaves the decoder alone. -/
theorem codecTurn_decoderKept {s t : State} (hs : atEncode s) (h : codecTurn s = .next t) : DecoderKept s t := by
  obtain ⟨hq, ho⟩ | hq | hq := hs
  · rw [codecTurn_encode hq ho] at h
    obtain rfl | ⟨_, _, _, -, -, -, -, -, -, rfl⟩ := acceptEncode_next h <;> exact ⟨rfl, rfl, rfl, rfl, rfl⟩
  · rw [codecTurn_eHdr hq] at h
    obtain ⟨-, rfl⟩ | ⟨-, b, -, ⟨-, rfl⟩ | ⟨-, _, -, rfl⟩⟩ := stepHdr_next.1 h
    · exact ⟨rfl, rfl, rfl, rfl, rfl⟩
    · exact ⟨rfl, rfl, rfl, rfl, rfl⟩
    · split_ifs <;> exact ⟨rfl, rfl, rfl, rfl, rfl⟩
  · rw [codecTurn_ePay hq] at h
    obtain ⟨-, rfl⟩ | ⟨-, -, b, _, -, -, rfl⟩ := stepEncPay_next.1 h
    · exact ⟨rfl, rfl, rfl, rfl, rfl⟩
    · split_ifs <;> exact ⟨rfl, rfl, rfl, rfl, rfl⟩

/-- R182: a turn of ENCODE does not read RX_PBUF. -/
theorem codecTurn_withRxPbuf {s : State} (hs : atEncode s) (m : Memory) :
    codecTurn (withRxPbuf m s) = mapNext (withRxPbuf m) (codecTurn s) := by
  obtain ⟨hq, ho⟩ | hq | hq := hs
  · rw [codecTurn_encode (s := withRxPbuf m s) hq ho, codecTurn_encode hq ho]
    simp only [acceptEncode, encodeFits, mapNext_need, mapNext_ite, mapNext_next]
    rfl
  · rw [codecTurn_eHdr (s := withRxPbuf m s) hq, codecTurn_eHdr hq]
    simp only [stepHdr, whenTxReady, mapNext_need, mapNext_ite, mapNext_next]
    rfl
  · rw [codecTurn_ePay (s := withRxPbuf m s) hq, codecTurn_ePay hq]
    simp only [stepEncPay, whenTxReady, mapNext_need, mapNext_ite, mapNext_next]
    rfl

/-- Whose turn it is does not depend on RX_PBUF. -/
theorem codecMoves_withRxPbuf {s u : State} (h : codecMoves s u) (m : Memory) :
    codecMoves (withRxPbuf m s) (withRxPbuf m u) := by
  obtain ⟨ha, rfl⟩ | ⟨rest, ha, rfl⟩ | ⟨c, d, rest, ha, ho, rfl⟩ | ⟨rest, ha, hw, rfl⟩ := h
  · exact .inl ⟨ha, rfl⟩
  · exact .inr (.inl ⟨rest, ha, rfl⟩)
  · exact .inr (.inr (.inl ⟨c, d, rest, ha, ho, rfl⟩))
  · exact .inr (.inr (.inr ⟨rest, ha, hw, rfl⟩))

/-- Settles O28: the frame of ENCODE's turns, and that they commute with other contents of RX_PBUF. -/
theorem encodeLeavesDecoder : Obligations.EncodeLeavesDecoder := by
  intro s u t hmoves hencode hstep
  have hturn : codecTurn u = .next t := (codecMoves_step hmoves).1.symm.trans hstep
  obtain ⟨hrx, hdec, hbuf, hacc, hsha⟩ := codecTurn_decoderKept hencode hturn
  refine ⟨hrx, hdec, hbuf, hacc, hsha, fun m => ?_⟩
  calc step (withRxPbuf m s)
    _ = codecTurn (withRxPbuf m u) := (codecMoves_step (codecMoves_withRxPbuf hmoves m)).1
    _ = mapNext (withRxPbuf m) (codecTurn u) := codecTurn_withRxPbuf hencode m
    _ = .next (withRxPbuf m t) := by rw [hturn, mapNext_next]

end Sys2Proof.Machine
end

section
/-! mask_cipher (42_mask_cipher.md R190 to R194): the mask function byte by byte, and what MASK_APPLY's acceptance
answers. -/

namespace Sys2Proof.Machine

/-! ### The mask function -/

/-- R190: masking works byte by byte; the byte at offset `j` from index `i` meets the key byte of index `i + j`. -/
theorem maskBytes_eq_mapIdx (key : Vector Byte 4) (i : Nat) (p : List Byte) :
    maskBytes key i p = p.mapIdx fun j x => x ^^^ key[(i + j) % 4] := by
  induction p generalizing i with
  | nil => rfl
  | cons x xs ih => simp only [maskBytes, ih, List.mapIdx_cons, Nat.add_zero, Nat.add_assoc, Nat.add_comm 1]

@[simp] theorem length_maskBytes (key : Vector Byte 4) (i : Nat) (p : List Byte) :
    (maskBytes key i p).length = p.length := by
  rw [maskBytes_eq_mapIdx, List.length_mapIdx]

theorem getElem?_maskBytes (key : Vector Byte 4) (i j : Nat) (p : List Byte) :
    (maskBytes key i p)[j]? = p[j]?.map fun x => x ^^^ key[(i + j) % 4] := by
  rw [maskBytes_eq_mapIdx, List.getElem?_mapIdx]

/-- Settles O29: the mask function is a map over the bytes and their indexes. -/
theorem maskFunction : Obligations.MaskFunction := by
  intro p key
  refine ⟨length_maskBytes key 0 p, fun i x hx => ?_⟩
  refine ⟨key[i % 4], Vector.getElem?_eq_getElem _, ?_⟩
  simp only [getElem?_maskBytes, hx, Option.map_some, Nat.zero_add]

/-! ### Acceptance -/

/-- R101, R194: in IDLE, with L_LEN latched, the length alone decides between OperandRange and M_RUN. -/
theorem exec_maskApply {s : State} {len : Word64} (hq : s.seq = .idle) (hl : s.op.len = .of len) :
    exec .maskApply s = .next
      (if s.cfg.pbufBytes < len.toNat then raise .operandRange (latchOperands 3#3 s)
       else { latchOperands 3#3 s with seq := .mRun }) := by
  have haccept : exec .maskApply s =
      need s.op.len.read fun n =>
        if s.cfg.pbufBytes < n.toNat then .next (raise .operandRange (latchOperands 3#3 s))
        else .next { latchOperands 3#3 s with seq := .mRun } := inPhase_pos _ hq
  rw [haccept, hl, Reg.read_of, need_ok, ← apply_ite Host.Outcome.next]

/-- Settles O21: `v` is the state with CMD's code recorded and the operands latched. -/
theorem maskApplyAccepts : Obligations.MaskApplyAccepts :=
  fun _ _ hq hl => exec_maskApply hq hl

end Sys2Proof.Machine
end

section
/-! ACCEPT_KEY (43_accept_key_sha1.md R201): what its acceptance answers. -/

namespace Sys2Proof.Machine

/-- R101, R201: ACCEPT_KEY is accepted, ACCEPT_VALID is cleared, and its checks are still to come. -/
def acceptKeyLatched (s : State) : State :=
  { latchOperands 4#3 s with acc := { s.acc with valid := false } }

/-- R201: in IDLE, with L_NONCE_LEN latched, the nonce's length alone decides between InvalidInput, OperandRange and
A_RUN. -/
theorem exec_acceptKey {s : State} {n : Word64} (hq : s.seq = .idle) (hn : s.op.nonceLen = .of n) :
    exec .acceptKey s = .next
      (if n = 0 then raise .invalidInput (acceptKeyLatched s)
       else if s.cfg.nonceMax < n.toNat then raise .operandRange (acceptKeyLatched s)
       else { acceptKeyLatched s with seq := .aRun }) := by
  have haccept : exec .acceptKey s =
      need s.op.nonceLen.read fun n =>
        if n = 0 then .next (raise .invalidInput (acceptKeyLatched s))
        else if s.cfg.nonceMax < n.toNat then .next (raise .operandRange (acceptKeyLatched s))
        else .next { acceptKeyLatched s with seq := .aRun } := inPhase_pos _ hq
  simp only [haccept, hn, Reg.read_of, need_ok, apply_ite Host.Outcome.next]

/-- R201: an empty nonce is not too long, whatever NONCE_MAX is. -/
theorem not_nonceEmpty_and_tooLong (n : Word64) (nonceMax : Nat) : ¬ (n = 0 ∧ nonceMax < n.toNat) := by
  rintro ⟨rfl, hlong⟩
  exact Nat.not_lt_zero nonceMax hlong

/-- Settles O22: `v` is the state with CMD's code recorded, the operands latched and ACCEPT_VALID cleared; the two
conditions exclude each other even without R7's bound on NONCE_MAX. -/
theorem acceptKeyAccepts : Obligations.AcceptKeyAccepts :=
  fun s n hq hn => ⟨exec_acceptKey hq hn, fun _ => not_nonceEmpty_and_tooLong n s.cfg.nonceMax⟩

end Sys2Proof.Machine
end

section
/-! ERROR (60_exceptions.md R248, R249): what the turns of HOST, the RX source and the TX sink leave alone in any STATE,
and why only ABORT and reset leave ERROR. -/

namespace Sys2Proof.Machine

/-- From `s` to `t` the block stands still as its streams and its command port see it: STATE, the status, the latches
and the results are kept, no byte is taken or emitted, and an offer that waits still waits. Bytes may join the back of
the RX stream, and a command may be offered where none was. -/
structure BlockKept (s t : State) : Prop where
  seq    : t.seq = s.seq
  status : t.status = s.status
  tx     : t.env.tx = s.env.tx
  stream : ∃ added, t.env.rx = s.env.rx ++ added
  offer  : ∀ c, s.env.offer = some c → t.env.offer = some c
  latch  : t.latch = s.latch
  rx     : t.rx = s.rx
  acc    : t.acc = s.acc

theorem BlockKept.trans {s t u : State} (h : BlockKept s t) (h' : BlockKept t u) : BlockKept s u where
  seq := h'.seq.trans h.seq
  status := h'.status.trans h.status
  tx := h'.tx.trans h.tx
  stream := by
    obtain ⟨first, hfirst⟩ := h.stream
    obtain ⟨second, hsecond⟩ := h'.stream
    exact ⟨first ++ second, by rw [hsecond, hfirst, List.append_assoc]⟩
  offer c hc := h'.offer c (h.offer c hc)
  latch := h'.latch.trans h.latch
  rx := h'.rx.trans h.rx
  acc := h'.acc.trans h.acc

/-- With the RX stream untouched, no byte is added to it. -/
theorem BlockKept.of_stream_eq {s t : State} (seq : t.seq = s.seq) (status : t.status = s.status)
    (tx : t.env.tx = s.env.tx) (stream : t.env.rx = s.env.rx) (offer : t.env.offer = s.env.offer)
    (latch : t.latch = s.latch) (rx : t.rx = s.rx) (acc : t.acc = s.acc) : BlockKept s t :=
  ⟨seq, status, tx, ⟨[], by rw [stream, List.append_nil]⟩, fun _ hc => offer.trans hc, latch, rx, acc⟩

theorem BlockKept.refl (s : State) : BlockKept s s := .of_stream_eq rfl rfl rfl rfl rfl rfl rfl rfl

theorem withAgenda_blockKept (rest : List Turn) (s : State) : BlockKept s (withAgenda rest s) :=
  .of_stream_eq rfl rfl rfl rfl rfl rfl rfl rfl

/-- R34: HOST's writes reach an operand register, TX_PBUF or NONCE_BUF, nothing that `BlockKept` speaks of. -/
theorem hostWrite_blockKept {w : HostWrite} {s t : State} (h : hostWrite w s = .next t) : BlockKept s t := by
  obtain ⟨-, ⟨_, rfl⟩ | ⟨_, _, -, rfl⟩ | ⟨_, _, -, rfl⟩⟩ := hostWrite_next h <;>
    exact .of_stream_eq rfl rfl rfl rfl rfl rfl rfl rfl

theorem hostRead_blockKept {r : HostRead} {s t : State} (h : hostRead r s = .next t) : BlockKept s t := by
  obtain ⟨-, _, -, rfl⟩ := hostRead_next.1 h
  exact .of_stream_eq rfl rfl rfl rfl rfl rfl rfl rfl

/-- R106: COPY is a read, which leaves the state, and a write. -/
theorem hostCopy_blockKept {a b : Nat} {s t : State} (h : hostCopy a b s = .next t) : BlockKept s t := by
  obtain ⟨_, -, -, hwrite⟩ := hostCopy_next h
  exact hostWrite_blockKept hwrite

/-- R75: the RX source appends behind the bytes that wait, and nothing once it has closed. -/
theorem rxAppend_blockKept (bytes : List Byte) (s : State) : BlockKept s (rxAppend bytes s) := by
  unfold rxAppend
  split_ifs
  · exact .refl s
  · exact ⟨rfl, rfl, rfl, ⟨bytes, rfl⟩, fun _ => id, rfl, rfl, rfl⟩

/-- R24, R101: HOST offers a command only where none waits. -/
theorem offer_blockKept {s : State} (c : Cmd) (rest : List Turn) (hfree : s.env.offer = none) :
    BlockKept s { s with env := { s.env with offer := some c, agenda := rest } } :=
  ⟨rfl, rfl, rfl, ⟨[], (List.append_nil _).symm⟩, fun _ hd => absurd (hfree.symm.trans hd) (by simp), rfl, rfl, rfl⟩

/-- R248: in ERROR the CODEC takes no step. -/
theorem codecTurn_error {s : State} (h : s.seq = .error) : codecTurn s = .next s := by simp only [codecTurn, h]

/-- R248, R249: a step that begins in ERROR is ABORT's, or reset's, or leaves the block standing still. -/
theorem step_error_cases {s t : State} (hs : s.seq = .error) (h : step s = .next t) :
    (∃ rest, s.env.agenda = .abort :: rest ∧ t = abort (withAgenda rest s)) ∨
      (∃ rest, s.env.agenda = .reset :: rest ∧ t = blockReset (withAgenda rest s)) ∨ BlockKept s t := by
  have after {rest : List Turn} (hkept : BlockKept (withAgenda rest s) t) : BlockKept s t :=
    (withAgenda_blockKept rest s).trans hkept
  cases step_next h with
  | abort rest agenda result => exact .inl ⟨rest, agenda, result⟩
  | reset rest agenda result => exact .inr (.inl ⟨rest, agenda, result⟩)
  | codec u agenda turn =>
    obtain ⟨hu, hkept⟩ : u.seq = .error ∧ BlockKept s u := by
      obtain rfl | ⟨rest, -, rfl⟩ := agenda
      · exact ⟨hs, .refl _⟩
      · exact ⟨hs, withAgenda_blockKept rest s⟩
    obtain rfl := Host.Outcome.next.inj ((codecTurn_error hu).symm.trans turn)
    exact .inr (.inr hkept)
  | offer c rest _ free result => exact .inr (.inr (result ▸ offer_blockKept c rest free))
  | write w rest _ result => exact .inr (.inr (after (hostWrite_blockKept result)))
  | read r rest _ result => exact .inr (.inr (after (hostRead_blockKept result)))
  | copyByte a b rest _ result => exact .inr (.inr (after (hostCopy_blockKept result)))
  | wait rest _ _ result => exact .inr (.inr (result ▸ withAgenda_blockKept rest s))
  | rxAppend bytes rest _ result => exact .inr (.inr (after (result ▸ rxAppend_blockKept bytes _)))
  | rxClose rest _ result =>
    subst result
    exact .inr (.inr (.of_stream_eq rfl rfl rfl rfl rfl rfl rfl rfl))
  | txSink ready rest _ result =>
    subst result
    exact .inr (.inr (.of_stream_eq rfl rfl rfl rfl rfl rfl rfl rfl))

/-- Settles O40: ABORT and reset end in IDLE, and every other step from ERROR leaves the block standing still. -/
theorem errorLeftOnlyByAbortOrReset : Obligations.ErrorLeftOnlyByAbortOrReset := by
  intro s t hs h
  rcases step_error_cases hs h with ⟨rest, agenda, rfl⟩ | ⟨rest, agenda, rfl⟩ | hkept
  · exact .inl ⟨rest, agenda, rfl⟩
  · exact .inr (.inl ⟨rest, agenda, rfl⟩)
  · exact .inr (.inr ⟨hkept.seq.trans hs, hkept.status, hkept.tx, hkept.stream, hkept.offer, hkept.latch, hkept.rx,
      hkept.acc⟩)

end Sys2Proof.Machine
end

section
/-! The opcode table's encodings (30_encoding.md sections 1 to 3): decoding and encoding undo each other at each port. -/

namespace Sys2Proof

/-! ### The row of a byte's fields -/

/-- R91, R92: with RSV = 000 the opcode alone selects the row. -/
theorem decodeByte0_noRsv : ∀ (fin : Bool) (op : BitVec 4), decodeByte0 (byte0Of fin 0#3 op) = decodeOpcode fin op := by
  decide

/-- R124: with bit 6 set the row is RSV_BIT6_SET. -/
theorem decodeByte0_rsvBit6 : ∀ (fin : Bool) (rsv54 : BitVec 2) (op : BitVec 4),
    decodeByte0 (byte0Of fin (rsvOfBit6 rsv54) op) = .rsvBit6Set fin rsv54 op := by decide

/-- R124: with bit 6 clear and bit 5 set the row is RSV_BIT5_SET. -/
theorem decodeByte0_rsvBit5 : ∀ (fin rsv4 : Bool) (op : BitVec 4),
    decodeByte0 (byte0Of fin (rsvOfBit5 rsv4) op) = .rsvBit5Set fin rsv4 op := by decide

/-- R124: with only bit 4 set the row is RSV_BIT4_SET. -/
theorem decodeByte0_rsvBit4 : ∀ (fin : Bool) (op : BitVec 4),
    decodeByte0 (byte0Of fin 1#3 op) = .rsvBit4Set fin op := by decide

/-- R125: the reserved opcodes 0x4 to 0x7. -/
theorem decodeOpcode_4To7 : ∀ (fin : Bool) (low : BitVec 2),
    decodeOpcode fin (opOf4To7 low) = .reservedOp4To7 fin low := by decide

/-- R125: the reserved opcodes 0xC to 0xF. -/
theorem decodeOpcode_CToF : ∀ (fin : Bool) (low : BitVec 2),
    decodeOpcode fin (opOfCToF low) = .reservedOpCToF fin low := by decide

/-- R94, R133: LEN7 selects the row, and MASK is the row's free bit. -/
theorem decodeByte1_byte1Of : ∀ (mask : Bool) (len7 : BitVec 7), decodeByte1 (byte1Of mask len7) =
    if len7 ≤ 125#7 then .lenDirect mask len7 else if len7 = 126#7 then .lenExt16 mask else .lenExt64 mask := by
  decide

/-- R173, R176: a length up to 125 reads back as the DIRECT form. -/
theorem decodeEncByte1_direct : ∀ len7 : BitVec 7, len7 ≤ 125#7 →
    decodeEncByte1 (byte1Of false len7) = .ok (.encLenDirect len7) := by decide

/-! ### Decoding what was encoded -/

/-- The byte of a header byte 0 row reads back as that row. -/
theorem decode_rxByte0 {i : Instr} {b : Byte} (h : decodeByte0 b = i) : decode .rxByte0 b = .ok i :=
  congrArg Except.ok h

/-- Settles O1: the fields of each row's byte select that row again. -/
theorem decodeOfEncode : Obligations.DecodeOfEncode := by
  intro i hwf
  cases i with
  | continuation fin => exact decode_rxByte0 (decodeByte0_noRsv fin 0x0)
  | text fin => exact decode_rxByte0 (decodeByte0_noRsv fin 0x1)
  | binary fin => exact decode_rxByte0 (decodeByte0_noRsv fin 0x2)
  | close fin => exact decode_rxByte0 (decodeByte0_noRsv fin 0x8)
  | ping fin => exact decode_rxByte0 (decodeByte0_noRsv fin 0x9)
  | pong fin => exact decode_rxByte0 (decodeByte0_noRsv fin 0xA)
  | rsvBit6Set fin rsv54 op => exact decode_rxByte0 (decodeByte0_rsvBit6 fin rsv54 op)
  | rsvBit5Set fin rsv4 op => exact decode_rxByte0 (decodeByte0_rsvBit5 fin rsv4 op)
  | rsvBit4Set fin op => exact decode_rxByte0 (decodeByte0_rsvBit4 fin op)
  | reservedOp3 fin => exact decode_rxByte0 (decodeByte0_noRsv fin 0x3)
  | reservedOp4To7 fin low =>
    exact decode_rxByte0 ((decodeByte0_noRsv fin _).trans (decodeOpcode_4To7 fin low))
  | reservedOpB fin => exact decode_rxByte0 (decodeByte0_noRsv fin 0xB)
  | reservedOpCToF fin low =>
    exact decode_rxByte0 ((decodeByte0_noRsv fin _).trans (decodeOpcode_CToF fin low))
  | lenDirect mask len7 =>
    have hshort : len7 ≤ 125#7 := of_decide_eq_true hwf
    exact congrArg Except.ok ((decodeByte1_byte1Of mask len7).trans (if_pos hshort))
  | lenExt16 mask => exact congrArg Except.ok (decodeByte1_byte1Of mask 126#7)
  | lenExt64 mask => exact congrArg Except.ok (decodeByte1_byte1Of mask 127#7)
  | encLenDirect len7 => exact decodeEncByte1_direct len7 (of_decide_eq_true hwf)
  | encLenExt16 | encLenExt64 | decode | encode | maskApply | acceptKey => rfl
  | reservedCmd000 | reservedCmd101 | reservedCmd110 | reservedCmd111 => rfl

/-! ### Encoding what was decoded -/

/-- R100: a command code is its row's byte. -/
theorem decodeCmd_encodes : ∀ b : Byte, b.toNat < 8 →
    (decodeCmd (b.extractLsb' 0 3)).wellFormed = true ∧ encode (decodeCmd (b.extractLsb' 0 3)) = (.cmd, b) := by
  decide

/-- R91, R123 to R125: header byte 0 is its row's byte. -/
theorem decodeByte0_encodes : ∀ b : Byte,
    (decodeByte0 b).wellFormed = true ∧ encode (decodeByte0 b) = (.rxByte0, b) := by decide

/-- R94, R133: header byte 1 is its row's byte. -/
theorem decodeByte1_encodes : ∀ b : Byte,
    (decodeByte1 b).wellFormed = true ∧ encode (decodeByte1 b) = (.rxByte1, b) := by decide

/-- R173: without the MASK bit, a byte that marks no extended length is a DIRECT length. -/
theorem encLenDirect_encodes : ∀ b : Byte, b.getLsbD 7 = false → b ≠ 126#8 → b ≠ 127#8 →
    (Instr.encLenDirect (b.extractLsb' 0 7)).wellFormed = true ∧
      encode (.encLenDirect (b.extractLsb' 0 7)) = (.encByte1, b) := by decide

/-- R173 to R176: the encoder's header byte 1 is its row's byte. -/
theorem decodeEncByte1_encodes {b : Byte} {i : Instr} (h : decodeEncByte1 b = .ok i) :
    i.wellFormed = true ∧ encode i = (.encByte1, b) := by
  unfold decodeEncByte1 at h
  split_ifs at h with hmask h126 h127
  · obtain rfl := Except.ok.inj h
    exact ⟨rfl, by rw [h126]; rfl⟩
  · obtain rfl := Except.ok.inj h
    exact ⟨rfl, by rw [h127]; rfl⟩
  · obtain rfl := Except.ok.inj h
    exact encLenDirect_encodes b (Bool.eq_false_iff.2 hmask) h126 h127

/-- Settles O2: at each port, the row that a byte selects has that byte. -/
theorem decodedRowEncodesBack : Obligations.DecodedRowEncodesBack := by
  intro p b i h
  cases p with
  | cmd =>
    unfold decode at h
    split_ifs at h with hcode
    obtain rfl := Except.ok.inj h
    exact decodeCmd_encodes b hcode
  | rxByte0 =>
    obtain rfl := Except.ok.inj h
    exact decodeByte0_encodes b
  | rxByte1 =>
    obtain rfl := Except.ok.inj h
    exact decodeByte1_encodes b
  | encByte1 => exact decodeEncByte1_encodes h

/-! ### Words from the spec -/

/-- Settles O3: each of the words is decoded. -/
theorem sampleWordsDecode : Obligations.SampleWordsDecode := by
  unfold Obligations.SampleWordsDecode
  decide

end Sys2Proof
end

section
/-! What no step of DECODE touches (40_decode.md R121 to R145): the operands, the encoder, the results of ACCEPT_KEY,
HOST's two buffers and the TX stream. -/

namespace Sys2Proof.Machine

/-- From `s` to `t` only DECODE's own state has changed: STATE, the status, RX_*, the decoder's working registers,
RX_PBUF and the RX stream; and FRAME_BYTES, if it had a value, still has one. -/
structure DecodeFrame (s t : State) : Prop where
  cfg      : t.cfg = s.cfg
  op       : t.op = s.op
  latch    : t.latch = s.latch
  enc      : t.enc = s.enc
  acc      : t.acc = s.acc
  sha      : t.sha = s.sha
  txPbuf   : t.buf.txPbuf = s.buf.txPbuf
  nonceBuf : t.buf.nonceBuf = s.buf.nonceBuf
  tx       : t.env.tx = s.env.tx
  counted  : s.rx.frameBytes.known = true → t.rx.frameBytes.known = true

theorem DecodeFrame.refl (s : State) : DecodeFrame s s := ⟨rfl, rfl, rfl, rfl, rfl, rfl, rfl, rfl, rfl, id⟩

theorem DecodeFrame.trans {s t u : State} (h : DecodeFrame s t) (h' : DecodeFrame t u) : DecodeFrame s u where
  cfg := h'.cfg.trans h.cfg
  op := h'.op.trans h.op
  latch := h'.latch.trans h.latch
  enc := h'.enc.trans h.enc
  acc := h'.acc.trans h.acc
  sha := h'.sha.trans h.sha
  txPbuf := h'.txPbuf.trans h.txPbuf
  nonceBuf := h'.nonceBuf.trans h.nonceBuf
  tx := h'.tx.trans h.tx
  counted hs := h'.counted (h.counted hs)

theorem withRx_decodeFrame (rx : List Byte) (s : State) : DecodeFrame s (withRx rx s) :=
  ⟨rfl, rfl, rfl, rfl, rfl, rfl, rfl, rfl, rfl, id⟩

theorem raise_decodeFrame (e : ErrCode) (s : State) : DecodeFrame s (raise e s) :=
  ⟨rfl, rfl, rfl, rfl, rfl, rfl, rfl, rfl, rfl, id⟩

/-- R138, R139: the length decoder. -/
theorem afterLength_decodeFrame {len : Word64} {s t : State} (h : afterLength len s = .next t) : DecodeFrame s t := by
  obtain ⟨-, rfl⟩ | ⟨-, -, rfl⟩ | ⟨-, -, rfl⟩ := afterLength_next.1 h <;>
    exact ⟨rfl, rfl, rfl, rfl, rfl, rfl, rfl, rfl, rfl, id⟩

/-- R122 to R125: what a taken header byte 0 can do. -/
theorem execByte0_next {b : Byte} {s t : State} (hq : s.seq = .dB0) (h : exec (decodeByte0 b) s = .next t) :
    let u := setByte0 (b.getLsbD 7) (b.extractLsb' 4 3) (b.extractLsb' 0 4) (countRxByte s)
    (b.extractLsb' 4 3 ≠ 0#3 ∧ t = raise .reservedBitsSet u) ∨
      (b.extractLsb' 4 3 = 0#3 ∧ isReservedOp (b.extractLsb' 0 4) = true ∧ t = raise .invalidOpcode u) ∨
      (b.extractLsb' 4 3 = 0#3 ∧ isReservedOp (b.extractLsb' 0 4) = false ∧ t = { u with seq := .dB1 }) := by
  rw [exec_decodeByte0, inPhase_pos _ hq, headerByte0_eq] at h
  obtain rfl := Host.Outcome.next.inj h
  split_ifs with hrsv hop
  · exact .inl ⟨hrsv, rfl⟩
  · exact .inr (.inl ⟨not_not.1 hrsv, hop, rfl⟩)
  · exact .inr (.inr ⟨not_not.1 hrsv, Bool.eq_false_iff.2 hop, rfl⟩)

theorem execByte0_decodeFrame (b : Byte) {s t : State} (hq : s.seq = .dB0) (h : exec (decodeByte0 b) s = .next t) :
    DecodeFrame s t := by
  obtain ⟨-, rfl⟩ | ⟨-, -, rfl⟩ | ⟨-, -, rfl⟩ := execByte0_next hq h <;>
    exact ⟨rfl, rfl, rfl, rfl, rfl, rfl, rfl, rfl, rfl, id⟩

/-- R132, R133, DIRECT: header byte 1 is counted and its fields extracted, and no more length bytes are needed. -/
def directTaken (mask : Bool) (len7 : BitVec 7) (s : State) : State :=
  { setByte1 mask len7 s with dec := { s.dec with extNeed := 0#4 } }

/-- R132, R133: what a taken header byte 1 can do. -/
theorem execByte1_next {b : Byte} {s t : State} (hq : s.seq = .dB1) (h : exec (decodeByte1 b) s = .next t) :
    (b.extractLsb' 0 7 ≤ 125#7 ∧ afterLength ((b.extractLsb' 0 7).setWidth 64)
      (directTaken (b.getLsbD 7) (b.extractLsb' 0 7) s) = .next t) ∨
      t = expectExt 2#4 (setByte1 (b.getLsbD 7) 126#7 s) ∨ t = expectExt 8#4 (setByte1 (b.getLsbD 7) 127#7 s) := by
  rw [exec_decodeByte1] at h
  split_ifs at h with hdirect
  · rw [execLenDirect, inPhase_pos _ hq] at h
    exact .inl ⟨hdirect, h⟩
  · rw [execLenExt16, inPhase_pos _ hq] at h
    exact .inr (.inl (Host.Outcome.next.inj h).symm)
  · rw [execLenExt64, inPhase_pos _ hq] at h
    exact .inr (.inr (Host.Outcome.next.inj h).symm)

theorem execByte1_decodeFrame (b : Byte) {s t : State} (hq : s.seq = .dB1) (h : exec (decodeByte1 b) s = .next t) :
    DecodeFrame s t := by
  obtain ⟨-, h⟩ | rfl | rfl := execByte1_next hq h
  · have taken : DecodeFrame s (directTaken (b.getLsbD 7) (b.extractLsb' 0 7) s) :=
      ⟨rfl, rfl, rfl, rfl, rfl, rfl, rfl, rfl, rfl, id⟩
    exact taken.trans (afterLength_decodeFrame h)
  · exact ⟨rfl, rfl, rfl, rfl, rfl, rfl, rfl, rfl, rfl, id⟩
  · exact ⟨rfl, rfl, rfl, rfl, rfl, rfl, rfl, rfl, rfl, id⟩

/-- R136. -/
theorem extByte_decodeFrame (b : Byte) {s t : State} (h : extByte b s = .next t) : DecodeFrame s t := by
  have taken : DecodeFrame s (extTaken b s) := ⟨rfl, rfl, rfl, rfl, rfl, rfl, rfl, rfl, rfl, id⟩
  obtain ⟨-, rfl⟩ | ⟨-, -, -, rfl⟩ | ⟨-, -, h⟩ := extByte_next.1 h
  · exact taken
  · exact taken.trans (raise_decodeFrame _ _)
  · exact taken.trans (afterLength_decodeFrame h)

/-- R140. -/
theorem keyByteTaken_decodeFrame (b : Byte) {s t : State} (h : keyByteTaken b s = .next t) : DecodeFrame s t := by
  obtain ⟨_, ⟨-, rfl⟩ | ⟨-, _, -, rfl⟩⟩ := keyByteTaken_next.1 h <;>
    exact ⟨rfl, rfl, rfl, rfl, rfl, rfl, rfl, rfl, rfl, id⟩

/-- R141. -/
theorem payByte_decodeFrame (b : Byte) {s t : State} (h : payByte b s = .next t) : DecodeFrame s t := by
  obtain ⟨_, _, -, -, -, rfl⟩ := payByte_next.1 h
  exact ⟨rfl, rfl, rfl, rfl, rfl, rfl, rfl, rfl, rfl, id⟩

/-- R144, R145: the frame passes the check, or does not. -/
theorem stepChk_result {s t : State} (h : stepChk s = .next t) :
    t = raise .invalidControlFrame s ∨ t = completeDecode s := by
  obtain ⟨_, -, ⟨-, rfl⟩ | ⟨-, -, rfl⟩ | ⟨-, -, _, -, ⟨-, rfl⟩ | ⟨-, rfl⟩⟩⟩ := stepChk_next h
  · exact .inr rfl
  · exact .inl rfl
  · exact .inl rfl
  · exact .inr rfl

/-- R76: a step that takes a byte keeps what the byte's meaning keeps. -/
theorem rxTake_decodeFrame {s t : State} {e : ErrCode} {k : Byte → State → Result}
    (hk : ∀ b v, v.seq = s.seq → k b v = .next t → DecodeFrame v t) (h : rxTake s (.next (raise e s)) k = .next t) :
    DecodeFrame s t := by
  obtain ⟨b, bs, -, hb⟩ | ⟨-, -, heos⟩ | ⟨-, -, hhold⟩ := rxTake_cases s (.next (raise e s)) k
  · exact (withRx_decodeFrame bs s).trans (hk b _ rfl (hb.symm.trans h))
  · obtain rfl := Host.Outcome.next.inj (heos.symm.trans h)
    exact raise_decodeFrame e s
  · obtain rfl := Host.Outcome.next.inj (hhold.symm.trans h)
    exact .refl s

theorem codecTurn_dPay {s : State} (h : s.seq = .dPay) : codecTurn s = stepPay s := by simp only [codecTurn, h]

theorem codecTurn_mRun {s : State} (h : s.seq = .mRun) : codecTurn s = stepMask s := by simp only [codecTurn, h]

theorem codecTurn_aRun {s : State} (h : s.seq = .aRun) : codecTurn s = stepAccept s := by simp only [codecTurn, h]

/-- Every turn of DECODE touches only DECODE's own state. -/
theorem codecTurn_decodeFrame {s t : State} (hq : s.seq.decoding = true) (h : codecTurn s = .next t) :
    DecodeFrame s t := by
  unfold codecTurn at h
  cases hs : s.seq <;> simp only [hs, Seq.decoding, Bool.false_eq_true] at h hq
  case dB0 => exact rxTake_decodeFrame (fun b _ hv => execByte0_decodeFrame b (hv.trans hs)) h
  case dB1 => exact rxTake_decodeFrame (fun b _ hv => execByte1_decodeFrame b (hv.trans hs)) h
  case dExt => exact rxTake_decodeFrame (fun b _ _ => extByte_decodeFrame b) h
  case dKey => exact rxTake_decodeFrame (fun b _ _ => keyByteTaken_decodeFrame b) h
  case dPay => exact rxTake_decodeFrame (fun b _ _ => payByte_decodeFrame b) h
  case dChk =>
    obtain rfl | rfl := stepChk_result h
    · exact raise_decodeFrame _ s
    · exact ⟨rfl, rfl, rfl, rfl, rfl, rfl, rfl, rfl, rfl, id⟩

end Sys2Proof.Machine
end

section
/-! The invariant (10_state.md R21 to R30, 60_exceptions.md R246 to R251): every turn of every agent keeps it, and none
takes the value of an operand register, a latch or a counter away. -/

namespace Sys2Proof.Machine

/-! ### The status registers -/

/-- R246 to R251: outside ERROR no error is recorded. -/
theorem statusInv.clear {s : State} (h : statusInv s) (hs : s.seq ≠ .error) :
    s.status.err = false ∧ s.status.errCode = .none ∧ s.status.errState = .idle := by
  obtain ⟨herr, hcode, hstate, -⟩ := h
  have hclear : s.status.err = false := Bool.eq_false_iff.2 fun h => hs (herr.1 h)
  exact ⟨hclear, not_not.1 fun h => by simp [hcode.2 h] at hclear, hstate hclear⟩

/-- With no error recorded, DONE may be 1 in IDLE only. -/
theorem statusInv_of_clear {t : State} (ht : t.seq ≠ .error)
    (h : t.status.err = false ∧ t.status.errCode = .none ∧ t.status.errState = .idle)
    (hdone : t.status.done = true → t.seq = .idle) : statusInv t := by
  obtain ⟨herr, hcode, hstate⟩ := h
  exact ⟨by simp [herr, ht], by simp [herr, hcode], fun _ => hstate, hdone⟩

/-- R22, R23: no command is done while one is running. -/
theorem statusInv.notDone {s : State} (h : statusInv s) (hs : s.seq ≠ .idle) : s.status.done = false := by
  obtain ⟨-, -, -, hdone⟩ := h
  exact Bool.eq_false_iff.2 fun h => hs (hdone h)

/-- A running command goes on. -/
theorem statusInv.goOn {s t : State} (h : statusInv s) (hs : s.seq.busy = true) (ht : t.seq.busy = true)
    (hst : t.status = s.status) : statusInv t := by
  have hdone : s.status.done = false := h.notDone fun hq => by simp [hq, Seq.busy] at hs
  refine statusInv_of_clear (fun hq => by simp [hq, Seq.busy] at ht) ?_ fun hd => by simp [hst, hdone] at hd
  rw [hst]
  exact h.clear fun hq => by simp [hq, Seq.busy] at hs

/-- R179, R195, R216: a running command completes. -/
theorem statusInv.complete {s t : State} (h : statusInv s) (hs : s.seq.busy = true) (ht : t.seq = .idle)
    (hst : t.status = { s.status with done := true }) : statusInv t := by
  refine statusInv_of_clear (by simp [ht]) ?_ fun _ => ht
  rw [hst]
  exact h.clear fun hq => by simp [hq, Seq.busy] at hs

/-- R101: a command is accepted and begins. -/
theorem statusInv.accepted {s t : State} {c : Cmd} (h : statusInv s) (hs : s.seq = .idle) (ht : t.seq.busy = true)
    (hst : t.status = { s.status with lastCmd := c, done := false }) : statusInv t := by
  refine statusInv_of_clear (fun hq => by simp [hq, Seq.busy] at ht) ?_ fun hd => by simp [hst] at hd
  rw [hst]
  exact h.clear (by simp [hs])

theorem Seq.busy_of_decoding {q : Seq} (h : q.decoding = true) : q.busy = true := by
  cases q <;> first | rfl | cases h

/-! ### Parts that a turn leaves alone -/

/-- A frame that is not valid need not be whole. -/
theorem frameInv_of_invalid {s : State} (h : s.rx.frameValid = false) : frameInv s :=
  fun hv => absurd hv (by simp [h])

/-- Results that are not valid may be anything. -/
theorem acceptInv_of_invalid {s : State} (h : s.acc.valid = false) : acceptInv s :=
  fun hv => absurd hv (by simp [h])

/-- R121, R143: while DECODE is running no frame is valid. -/
theorem frameValid_of_decoding {s : State} (hq : s.seq.decoding = true) (h : phaseInv s) : s.rx.frameValid = false := by
  unfold phaseInv at h
  cases hs : s.seq <;> simp only [hs, Seq.decoding, Bool.false_eq_true] at h hq <;> exact h.1.1

/-- R246: the shared error entry keeps all but the status, which it makes consistent. -/
theorem raise_inv {e : ErrCode} {s : State} (he : e ≠ .none) (hcfg : s.cfg.wf = true) (hbuf : bufferInv s)
    (hframe : frameInv s) (hacc : acceptInv s) : Inv (raise e s) :=
  ⟨hcfg, ⟨by simp, by simp [he], by simp, by simp⟩, hbuf, trivial, hframe, hacc⟩

theorem DecodeFrame.acceptInv {s t : State} (h : DecodeFrame s t) (hs : Machine.acceptInv s) : Machine.acceptInv t := by
  unfold Machine.acceptInv
  rw [h.acc, h.sha]
  exact hs

theorem DecodeFrame.bufferInv {s t : State} (h : DecodeFrame s t) (hs : Machine.bufferInv s)
    (hrx : t.buf.rxPbuf.wf = true ∧ t.buf.rxPbuf.within s.cfg.pbufBytes = true) : Machine.bufferInv t := by
  obtain ⟨-, htx, hnonce⟩ := hs
  unfold Machine.bufferInv
  rw [h.cfg, h.txPbuf, h.nonceBuf]
  exact ⟨hrx, htx, hnonce⟩

/-- A step of DECODE that leads on keeps the invariant if it meets what the next STATE asks for. -/
theorem Inv.decodeOn {s t : State} (h : Inv s) (hq : s.seq.decoding = true) (ht : t.seq.decoding = true)
    (hframe : DecodeFrame s t) (hst : t.status = s.status)
    (hrx : t.buf.rxPbuf.wf = true ∧ t.buf.rxPbuf.within s.cfg.pbufBytes = true) (hphase : phaseInv t) : Inv t where
  config := hframe.cfg ▸ h.config
  status := h.status.goOn (Seq.busy_of_decoding hq) (Seq.busy_of_decoding ht) hst
  buffers := hframe.bufferInv h.buffers hrx
  phase := hphase
  frame := frameInv_of_invalid (frameValid_of_decoding ht hphase)
  accept := hframe.acceptInv h.accept

/-- A step of DECODE that raises keeps the invariant. -/
theorem Inv.decodeRaise {s t : State} {e : ErrCode} (h : Inv s) (he : e ≠ .none) (hframe : DecodeFrame s t)
    (hrx : t.buf.rxPbuf = s.buf.rxPbuf) (hvalid : t.rx.frameValid = false) : Inv (raise e t) :=
  raise_inv he (hframe.cfg ▸ h.config) (hframe.bufferInv h.buffers (hrx ▸ h.buffers.1)) (frameInv_of_invalid hvalid)
    (hframe.acceptInv h.accept)

/-! ### The decoder -/

/-- R27: what `taking` says depends on two fields of RX_* only. -/
theorem taking.of_eq {n m : Nat} {s t : State} (h : taking n s) (hvalid : t.rx.frameValid = s.rx.frameValid)
    (hbytes : t.rx.frameBytes = s.rx.frameBytes) (hn : n = m) : taking m t := by
  unfold taking
  rw [hvalid, hbytes, ← hn]
  exact h

/-- R27: one more byte of the frame. -/
theorem taking.count {n m : Nat} {s t : State} (h : taking n s) (hvalid : t.rx.frameValid = s.rx.frameValid)
    (hbytes : t.rx.frameBytes = ⟨s.rx.frameBytes.val + 1#64, s.rx.frameBytes.known⟩) (hm : n + 1 = m) : taking m t := by
  obtain ⟨hs, hn⟩ := h
  exact ⟨hvalid.trans hs, by rw [hbytes, hn, ← hm, BitVec.ofNat_add]⟩

/-- What holds once header byte 1 and any extended length are in, before the length is checked (R138). -/
structure LengthReady (s : State) : Prop where
  count  : taking (2 + extBytes s.rx.len7.val) s
  byte0  : byte0In s
  byte1  : byte1In s
  noKey  : noKey s
  payCnt : s.dec.payCnt = 0

/-- R139, R140: the header is in, and its length leads to the payload or, where it is 0, to the check. -/
theorem phaseInv_of_header {t : State} (hseq : t.seq = if 0#64 < t.rx.len.val then .dPay else .dChk)
    (hcount : taking (headerLen t.rx.len7.val t.rx.masked.val) t) (hbyte0 : byte0In t) (hbyte1 : byte1In t)
    (hlength : lengthIn t) (hkey : keyIn t) (hpay : t.dec.payCnt = 0) : t.seq.decoding = true ∧ phaseInv t := by
  have hstored : payloadIn 0 t := fun a ha => absurd ha (Nat.not_lt_zero a)
  by_cases hpos : 0#64 < t.rx.len.val
  · rw [if_pos hpos] at hseq
    simp only [phaseInv, hseq, hpay]
    exact ⟨rfl, hcount, hbyte0, hbyte1, hlength, hkey, hpos, hstored⟩
  · have hzero : t.rx.len.val = 0 := by bv_omega
    rw [if_neg hpos] at hseq
    simp only [phaseInv, hseq, hpay, hzero]
    exact ⟨rfl, hcount, hbyte0, hbyte1, hlength, hkey, trivial, hstored⟩

/-- R138, R139: the length decoder keeps the invariant; `s` is the state before the byte, `u` the one with the byte in. -/
theorem afterLength_inv {len : Word64} {s u t : State} (h : Inv s) (hq : s.seq.decoding = true)
    (hframe : DecodeFrame s u) (hst : u.status = s.status) (hbuf : u.buf.rxPbuf = s.buf.rxPbuf) (hready : LengthReady u)
    (ht : afterLength len u = .next t) : Inv t := by
  obtain ⟨hcount, hbyte0, hbyte1, hkey, hpay⟩ := hready
  have hframe' := hframe.trans (afterLength_decodeFrame ht)
  have hrx := h.buffers.1
  rw [← hbuf] at hrx
  obtain ⟨-, rfl⟩ | ⟨hfits, hmasked, rfl⟩ | ⟨hfits, hmasked, rfl⟩ := afterLength_next.1 ht
  · exact h.decodeRaise (by decide) (hframe.trans ⟨rfl, rfl, rfl, rfl, rfl, rfl, rfl, rfl, rfl, id⟩) hbuf hcount.1
  · refine h.decodeOn hq rfl hframe' hst hrx
      ⟨hcount.of_eq rfl rfl (by simp), hbyte0, hbyte1, ⟨rfl, hfits⟩, by simp [hmasked], by simp, fun i hi => by simp at hi,
        hpay⟩
  · obtain ⟨hdecoding, hphase⟩ := phaseInv_of_header (t := { u with
        rx := { u.rx with len := .of len }, seq := if 0#64 < len then .dPay else .dChk }) rfl
      (hcount.of_eq rfl rfl (by simp [headerLen, hmasked])) hbyte0 hbyte1 ⟨rfl, hfits⟩
      ⟨by simp [hmasked], fun _ => hkey⟩ hpay
    exact h.decodeOn hq hdecoding hframe' hst hrx hphase

/-- R122 to R125. -/
theorem execByte0_inv {b : Byte} {s t : State} (h : Inv s) (hq : s.seq = .dB0)
    (ht : exec (decodeByte0 b) s = .next t) : Inv t := by
  have hphase := h.phase
  simp only [phaseInv, hq] at hphase
  obtain ⟨hcount, hkey, hcnt, hacc, hpay⟩ := hphase
  have hframe := execByte0_decodeFrame b hq ht
  obtain ⟨-, rfl⟩ | ⟨-, -, rfl⟩ | ⟨hrsv, hop, rfl⟩ := execByte0_next hq ht
  · exact h.decodeRaise (by decide) ⟨rfl, rfl, rfl, rfl, rfl, rfl, rfl, rfl, rfl, id⟩ rfl hcount.1
  · exact h.decodeRaise (by decide) ⟨rfl, rfl, rfl, rfl, rfl, rfl, rfl, rfl, rfl, id⟩ rfl hcount.1
  · exact h.decodeOn (by rw [hq]; rfl) rfl hframe rfl h.buffers.1
      ⟨hcount.count rfl rfl rfl, ⟨rfl, congrArg Reg.of hrsv, rfl, hop⟩, hkey, hcnt, hacc, hpay⟩

/-- R132, R133. -/
theorem execByte1_inv {b : Byte} {s t : State} (h : Inv s) (hq : s.seq = .dB1)
    (ht : exec (decodeByte1 b) s = .next t) : Inv t := by
  have hphase := h.phase
  simp only [phaseInv, hq] at hphase
  obtain ⟨hcount, hbyte0, hkey, hcnt, hacc, hpay⟩ := hphase
  have hdecoding : s.seq.decoding = true := by rw [hq]; rfl
  have hframe := execByte1_decodeFrame b hq ht
  obtain ⟨hdirect, ht⟩ | rfl | rfl := execByte1_next hq ht
  · have hext : extBytes (b.extractLsb' 0 7) = 0 := by
      rw [extBytes, if_neg (fun he => by rw [he] at hdirect; revert hdirect; decide),
        if_neg (fun he => by rw [he] at hdirect; revert hdirect; decide)]
    have hready : LengthReady (directTaken (b.getLsbD 7) (b.extractLsb' 0 7) s) :=
      ⟨hcount.count rfl rfl (congrArg (2 + ·) hext).symm, hbyte0, ⟨rfl, rfl, hext.symm⟩, hkey, hpay⟩
    exact afterLength_inv (u := directTaken (b.getLsbD 7) (b.extractLsb' 0 7) s) h hdecoding
      ⟨rfl, rfl, rfl, rfl, rfl, rfl, rfl, rfl, rfl, id⟩ rfl rfl hready ht
  · exact h.decodeOn hdecoding rfl hframe rfl h.buffers.1
      ⟨hcount.count rfl rfl (by simp [hcnt]), hbyte0, ⟨rfl, rfl, rfl⟩, hkey, by simp [hcnt],
        by simp [hacc], hpay⟩
  · exact h.decodeOn hdecoding rfl hframe rfl h.buffers.1
      ⟨hcount.count rfl rfl (by simp [hcnt]), hbyte0, ⟨rfl, rfl, rfl⟩, hkey, by simp [hcnt],
        by simp [hacc], hpay⟩

/-- R95: at most 8 extended-length bytes. -/
theorem extBytes_le (len7 : BitVec 7) : extBytes len7 ≤ 8 := by
  unfold extBytes
  split_ifs <;> omega

/-- R134, R135: `n + 1` bytes of a length fit `8 (n + 1)` bits. -/
theorem extAcc_lt {acc : Word64} {r : Byte} {n : Nat} (h : acc.toNat < 2 ^ (8 * n)) :
    ((acc <<< 8) ||| r.setWidth 64).toNat < 2 ^ (8 * (n + 1)) := by
  have hpow : 2 ^ (8 * (n + 1)) = 2 ^ (8 * n) * 256 := by rw [Nat.mul_add, pow_add]; rfl
  rw [BitVec.toNat_or]
  refine Nat.or_lt_two_pow ?_ ?_
  · rw [BitVec.toNat_shiftLeft, Nat.shiftLeft_eq, hpow]
    exact (Nat.mod_le _ _).trans_lt (by omega)
  · rw [BitVec.toNat_setWidth, hpow]
    have hpos : 0 < 2 ^ (8 * n) := by positivity
    exact (Nat.mod_le _ _).trans_lt (by omega)

/-- R134 to R136. -/
theorem extByte_inv {r : Byte} {s t : State} (h : Inv s) (hq : s.seq = .dExt) (ht : extByte r s = .next t) : Inv t := by
  have hphase := h.phase
  simp only [phaseInv, hq] at hphase
  obtain ⟨hcount, hbyte0, hbyte1, hkey, hlt, hacc, hpay⟩ := hphase
  obtain ⟨hmasked, hlen7, hneed⟩ := hbyte1
  have hdecoding : s.seq.decoding = true := by rw [hq]; rfl
  have hbound : s.dec.extCnt.toNat < s.dec.extNeed.toNat ∧ s.dec.extNeed.toNat ≤ 8 :=
    ⟨BitVec.lt_def.1 hlt, hneed ▸ extBytes_le _⟩
  have hsucc : (s.dec.extCnt + 1#4).toNat = s.dec.extCnt.toNat + 1 := by
    rw [BitVec.toNat_add]
    exact Nat.mod_eq_of_lt (by simp; omega)
  have hframe : DecodeFrame s (extTaken r s) := ⟨rfl, rfl, rfl, rfl, rfl, rfl, rfl, rfl, rfl, id⟩
  obtain ⟨hmore, rfl⟩ | ⟨-, -, -, rfl⟩ | ⟨hlast, -, ht⟩ := extByte_next.1 ht
  · have hnext : s.dec.extCnt + 1#4 < s.dec.extNeed := by
      have hne : (s.dec.extCnt + 1#4).toNat ≠ s.dec.extNeed.toNat := fun he => hmore (BitVec.eq_of_toNat_eq he)
      rw [BitVec.lt_def]
      omega
    refine h.decodeOn hdecoding (by rw [← hdecoding]; rfl) hframe rfl h.buffers.1 ?_
    have hseq : (extTaken r s).seq = .dExt := hq
    simp only [phaseInv, hseq]
    refine ⟨hcount.count rfl rfl (congrArg (2 + ·) hsucc.symm), hbyte0, ⟨hmasked, hlen7, hneed⟩, hkey,
      hnext, ?_, hpay⟩
    show _ < 2 ^ (8 * (s.dec.extCnt + 1#4).toNat)
    rw [hsucc]
    exact extAcc_lt hacc
  · exact h.decodeRaise (by decide) hframe rfl hcount.1
  · have hall : s.dec.extCnt.toNat + 1 = extBytes s.rx.len7.val := by rw [← hneed, ← hlast, hsucc]
    exact afterLength_inv h hdecoding hframe rfl rfl
      ⟨hcount.count rfl rfl (congrArg (2 + ·) hall), hbyte0, ⟨hmasked, hlen7, hneed⟩, hkey, hpay⟩ ht

/-- R140. -/
theorem keyByteTaken_inv {r : Byte} {s t : State} (h : Inv s) (hq : s.seq = .dKey) (ht : keyByteTaken r s = .next t) :
    Inv t := by
  have hphase := h.phase
  simp only [phaseInv, hq] at hphase
  obtain ⟨hcount, hbyte0, hbyte1, hlength, hmasked, hlt, hknown, hpay⟩ := hphase
  have hdecoding : s.seq.decoding = true := by rw [hq]; rfl
  have hframe := keyByteTaken_decodeFrame r ht
  obtain ⟨hin, hresult⟩ := keyByteTaken_next.1 ht
  have hsucc : (s.dec.keyCnt + 1#3).toNat = s.dec.keyCnt.toNat + 1 := by
    rw [BitVec.toNat_add]
    exact Nat.mod_eq_of_lt (by simp; omega)
  have hset : ∀ i : Fin 4, i.val < s.dec.keyCnt.toNat + 1 →
      (s.rx.key.set s.dec.keyCnt.toNat (.of r))[i].known = true := by
    intro i hi
    rw [Fin.getElem_fin, Vector.getElem_set]
    split_ifs with heq
    · rfl
    · exact hknown i (by omega)
  obtain ⟨hmore, rfl⟩ | ⟨hlast, len, hlen, rfl⟩ := hresult
  · have hnext : s.dec.keyCnt + 1#3 < 4 := by
      have hne : (s.dec.keyCnt + 1#3).toNat ≠ 4 := fun he => hmore (BitVec.eq_of_toNat_eq he)
      rw [BitVec.lt_def, hsucc]
      rw [hsucc] at hne
      show _ < 4
      omega
    refine h.decodeOn hdecoding (by rw [← hdecoding]; rfl) hframe rfl h.buffers.1 ?_
    have hseq : (keyTaken (s.rx.key.set s.dec.keyCnt.toNat (.of r)) s).seq = .dKey := hq
    simp only [phaseInv, hseq]
    exact ⟨hcount.count rfl rfl (congrArg (2 + extBytes _ + ·) hsucc.symm), hbyte0, hbyte1, hlength, hmasked, hnext,
      fun i hi => hset i (hsucc ▸ hi), hpay⟩
  · have hfour : s.dec.keyCnt.toNat + 1 = 4 := by rw [← hsucc, hlast]; rfl
    have hheader : 2 + extBytes s.rx.len7.val + s.dec.keyCnt.toNat + 1 =
        headerLen s.rx.len7.val s.rx.masked.val := by
      simp only [headerLen, hmasked, if_true]
      omega
    have hkey : ∀ i : Fin 4, (s.rx.key.set s.dec.keyCnt.toNat (.of r))[i].known = true :=
      fun i => hset i (by omega)
    have hnext : (if 0#64 < len then Seq.dPay else .dChk) = if 0#64 < s.rx.len.val then .dPay else .dChk := by
      rw [hlen]
    obtain ⟨hdecoding', hphase⟩ := phaseInv_of_header (t := { keyTaken (s.rx.key.set s.dec.keyCnt.toNat (.of r)) s with
        seq := if 0#64 < len then .dPay else .dChk }) hnext
      (hcount.count rfl rfl hheader) hbyte0 hbyte1 hlength
      ⟨fun _ => hkey, fun hm => absurd (hmasked.symm.trans hm) (by simp)⟩ hpay
    exact h.decodeOn hdecoding hdecoding' hframe rfl h.buffers.1 hphase

/-- R141. -/
theorem payByte_inv {r : Byte} {s t : State} (h : Inv s) (hq : s.seq = .dPay) (ht : payByte r s = .next t) : Inv t := by
  have hphase := h.phase
  simp only [phaseInv, hq] at hphase
  obtain ⟨hcount, hbyte0, hbyte1, hlength, hkey, hlt, hpayload⟩ := hphase
  have hdecoding : s.seq.decoding = true := by rw [hq]; rfl
  have hframe := payByte_decodeFrame r ht
  obtain ⟨v, len, -, hin, hlen, rfl⟩ := payByte_next.1 ht
  have hsucc : (s.dec.payCnt + 1#64).toNat = s.dec.payCnt.toNat + 1 := by
    rw [BitVec.toNat_add]
    exact Nat.mod_eq_of_lt (by have := BitVec.lt_def.1 hlt; have := s.rx.len.val.isLt; simp; omega)
  have hbuf : (s.buf.rxPbuf.put s.dec.payCnt.toNat v).wf = true ∧
      (s.buf.rxPbuf.put s.dec.payCnt.toNat v).within s.cfg.pbufBytes = true :=
    ⟨Memory.wf_put _ _ h.buffers.1.1, Memory.within_put _ hin h.buffers.1.2⟩
  have hstored : ∀ a, a < s.dec.payCnt.toNat + 1 → ((s.buf.rxPbuf.put s.dec.payCnt.toNat v).find a).isSome = true := by
    intro a ha
    rw [Memory.find_put]
    split_ifs with heq
    · rfl
    · exact hpayload a (by omega)
  by_cases hlast : s.dec.payCnt + 1#64 = len
  · simp only [hlast, if_true] at hframe ⊢
    have hend : s.dec.payCnt.toNat + 1 = s.rx.len.val.toNat := by rw [← hsucc, hlast, hlen]
    exact h.decodeOn hdecoding rfl hframe rfl hbuf
      ⟨hcount.count rfl rfl (congrArg (headerLen _ _ + ·) hend), hbyte0, hbyte1, hlength, hkey,
        hlast.trans (congrArg Reg.val hlen).symm, fun a ha => hstored a (hend ▸ ha)⟩
  · simp only [hlast, if_false, hq] at hframe ⊢
    have hnext : s.dec.payCnt + 1#64 < s.rx.len.val := by
      have hne : (s.dec.payCnt + 1#64).toNat ≠ s.rx.len.val.toNat :=
        fun he => hlast ((BitVec.eq_of_toNat_eq he).trans (by rw [hlen]))
      have := BitVec.lt_def.1 hlt
      rw [BitVec.lt_def]
      omega
    exact h.decodeOn hdecoding rfl hframe rfl hbuf
      ⟨hcount.count rfl rfl (congrArg (headerLen _ _ + ·) hsucc.symm), hbyte0, hbyte1, hlength, hkey, hnext,
        fun a ha => hstored a (hsucc ▸ ha)⟩

/-- R144, R145. -/
theorem stepChk_inv {s t : State} (h : Inv s) (hq : s.seq = .dChk) (ht : stepChk s = .next t) : Inv t := by
  have hphase := h.phase
  simp only [phaseInv, hq] at hphase
  obtain ⟨hcount, ⟨hfin, hrsv, hop, hlegal⟩, ⟨hmasked, hlen7, -⟩, hlength, hkey, -, hpayload⟩ := hphase
  rw [stepChk_eq (Reg.eq_of_known hfin) (Reg.eq_of_known hop) (Reg.eq_of_known hlength.1)] at ht
  obtain rfl := Host.Outcome.next.inj ht
  split_ifs with hbad
  · exact h.decodeRaise (by decide) (.refl s) rfl hcount.1
  · refine ⟨h.config, h.status.complete (by rw [hq]; rfl) rfl rfl, h.buffers, trivial, fun _ => ?_, h.accept⟩
    refine ⟨hfin, hrsv, hop, hlegal, fun hcontrol => ?_, hmasked, hlen7, hlength, hkey, hpayload, hcount.2⟩
    have hgood : s.rx.fin.val ≠ false ∧ ¬ 125#64 < s.rx.len.val := not_or.1 fun hor => hbad ⟨hcontrol, hor⟩
    exact ⟨Bool.ne_false_iff.1 hgood.1, Nat.not_lt.1 hgood.2⟩

/-- The surroundings are no part of the invariant. -/
theorem Inv.withEnv {s : State} (h : Inv s) (env : Env) : Inv { s with env := env } :=
  ⟨h.config, h.status, h.buffers, h.phase, h.frame, h.accept⟩

/-- R76: a step that takes a byte keeps the invariant if the byte's meaning does. -/
theorem rxTake_inv {s t : State} {e : ErrCode} {k : Byte → State → Result} (h : Inv s) (hq : s.seq.decoding = true)
    (he : e ≠ .none) (hk : ∀ b v, Inv v → v.seq = s.seq → k b v = .next t → Inv t)
    (ht : rxTake s (.next (raise e s)) k = .next t) : Inv t := by
  obtain ⟨b, bs, -, hb⟩ | ⟨-, -, heos⟩ | ⟨-, -, hhold⟩ := rxTake_cases s (.next (raise e s)) k
  · exact hk b (withRx bs s) (h.withEnv _) rfl (hb.symm.trans ht)
  · obtain rfl := Host.Outcome.next.inj (heos.symm.trans ht)
    exact h.decodeRaise he (.refl s) rfl (frameValid_of_decoding hq h.phase)
  · obtain rfl := Host.Outcome.next.inj (hhold.symm.trans ht)
    exact h

/-! ### The encoder and the atomic bodies -/

/-- R29, R177: E_CNT stays inside E_HDR. -/
theorem hdrCnt_lt {e : EncRegs} (hform : e.hdrLen = 2 ∨ e.hdrLen = 4 ∨ e.hdrLen = 10) (hlt : e.cnt < e.hdrLen) :
    e.cnt.toNat < 10 := by
  have hcnt := BitVec.lt_def.1 hlt
  obtain hl | hl | hl := hform <;> rw [hl] at hcnt <;> simp at hcnt <;> omega

/-- R177, R179. -/
theorem stepHdr_inv {s t : State} (h : Inv s) (hq : s.seq = .eHdr) (ht : stepHdr s = .next t) : Inv t := by
  have hphase := h.phase
  simp only [phaseInv, hq] at hphase
  obtain ⟨hknown, hfits, hform, hlt, hpay, hcount⟩ := hphase
  have hbusy : s.seq.busy = true := by rw [hq]; rfl
  have hcounted : (⟨s.enc.txBytes.val + 1#64, s.enc.txBytes.known⟩ : Reg Word64) =
      .of ((s.enc.cnt + 1#4).setWidth 64) := by
    have hsmall := hdrCnt_lt hform hlt
    rw [hcount]
    congr 1
    apply BitVec.eq_of_toNat_eq
    simp
    omega
  obtain ⟨-, rfl⟩ | ⟨-, b, -, ⟨hmore, rfl⟩ | ⟨hlast, len, hlen, rfl⟩⟩ := stepHdr_next.1 ht
  · exact h
  · have hnext : s.enc.cnt + 1#4 < s.enc.hdrLen := by
      have hne : (s.enc.cnt + 1#4).toNat ≠ s.enc.hdrLen.toNat := fun he => hmore (BitVec.eq_of_toNat_eq he)
      have := BitVec.lt_def.1 hlt
      rw [BitVec.toNat_add] at hne
      rw [BitVec.lt_def, BitVec.toNat_add]
      simp at hne ⊢
      omega
    have hseq : (hdrSent b s).seq = .eHdr := hq
    refine ⟨h.config, h.status.goOn hbusy hbusy rfl, h.buffers, ?_, h.frame, h.accept⟩
    simp only [phaseInv, hseq]
    exact ⟨hknown, hfits, hform, hnext, hpay, hcounted⟩
  · by_cases hpos : 0#64 < len
    · rw [if_pos hpos]
      refine ⟨h.config, h.status.goOn hbusy rfl rfl, h.buffers, ⟨hknown, hfits, ?_, ?_⟩, h.frame, h.accept⟩
      · show s.enc.payCnt < s.latch.len.val
        rw [hpay, hlen]
        exact hpos
      · refine hcounted.trans (congrArg Reg.of ?_)
        show _ = s.enc.hdrLen.setWidth 64 + s.enc.payCnt
        simp [hlast, hpay]
    · rw [if_neg hpos]
      exact ⟨h.config, h.status.complete hbusy rfl rfl, h.buffers, trivial, h.frame, h.accept⟩

/-- R178, R179. -/
theorem stepEncPay_inv {s t : State} (h : Inv s) (hq : s.seq = .ePay) (ht : stepEncPay s = .next t) : Inv t := by
  have hphase := h.phase
  simp only [phaseInv, hq] at hphase
  obtain ⟨hknown, hfits, hlt, hcount⟩ := hphase
  have hbusy : s.seq.busy = true := by rw [hq]; rfl
  obtain ⟨-, rfl⟩ | ⟨-, -, b, len, -, hlen, rfl⟩ := stepEncPay_next.1 ht
  · exact h
  · by_cases hlast : s.enc.payCnt + 1#64 = len
    · rw [if_pos hlast]
      exact ⟨h.config, h.status.complete hbusy rfl rfl, h.buffers, trivial, h.frame, h.accept⟩
    · rw [if_neg hlast]
      have hnext : s.enc.payCnt + 1#64 < s.latch.len.val := by
        rw [hlen] at hlt ⊢
        bv_omega
      have hseq : (paySent b s).seq = .ePay := hq
      refine ⟨h.config, h.status.goOn hbusy hbusy rfl, h.buffers, ?_, h.frame, h.accept⟩
      simp only [phaseInv, hseq]
      exact ⟨hknown, hfits, hnext, by simp [paySent, hcount, BitVec.add_assoc]⟩

/-- R195. -/
theorem stepMask_inv {s t : State} (h : Inv s) (hq : s.seq = .mRun) (ht : stepMask s = .next t) : Inv t := by
  obtain ⟨len, m, -, hm, rfl⟩ := stepMask_next.1 ht
  obtain ⟨hrx, htx, hnonce⟩ := h.buffers
  exact ⟨h.config, h.status.complete (by rw [hq]; rfl) rfl rfl, ⟨hrx, maskBuffer_keeps hm htx, hnonce⟩, trivial,
    h.frame, h.accept⟩

/-- R216. -/
theorem stepAccept_inv {s t : State} (h : Inv s) (hq : s.seq = .aRun) (ht : stepAccept s = .next t) : Inv t := by
  obtain ⟨n, nonce, -, -, rfl⟩ := stepAccept_next.1 ht
  exact ⟨h.config, h.status.complete (by rw [hq]; rfl) rfl rfl, h.buffers, trivial, h.frame, fun _ => ⟨rfl, rfl⟩⟩

/-! ### Acceptance -/

/-- R171: what the header that ENCODE builds looks like to the counters. -/
theorem encLenForm_hdrLen (len : Word64) (e : EncRegs) :
    (encLenForm len e).hdrLen = 2 ∨ (encLenForm len e).hdrLen = 4 ∨ (encLenForm len e).hdrLen = 10 := by
  obtain ⟨-, -, h⟩ | ⟨-, -, -, h⟩ | ⟨-, -, h⟩ := lenForm_cases len e <;> rw [h]
  · exact .inl rfl
  · exact .inr (.inl rfl)
  · exact .inr (.inr rfl)

/-- R171: ENCODE's checks, from the state in which the command is latched. -/
theorem encode_inv {s t : State} (h : Inv s) (hq : s.seq = .idle) (ht : acceptEncode (encodeLatched s) = .next t) :
    Inv t := by
  obtain rfl | ⟨fin, op, len, -, -, hlen, -, -, hfits, rfl⟩ := acceptEncode_next ht
  · exact raise_inv (by decide) h.config h.buffers h.frame h.accept
  · obtain ⟨hcnt, hpay, htx⟩ := encLenForm_counters len (headerBegun fin op (encodeLatched s))
    have hform := encLenForm_hdrLen len (headerBegun fin op (encodeLatched s))
    have hlen' : s.op.len = .of len := hlen
    refine ⟨h.config, h.status.accepted hq rfl rfl, h.buffers, ?_, h.frame, h.accept⟩
    refine ⟨by rw [startEncode_latch, hlen], by rw [startEncode_latch, hlen]; exact hfits, hform, ?_, hpay, ?_⟩
    · show (startEncode fin op len (encodeLatched s)).enc.cnt < (startEncode fin op len (encodeLatched s)).enc.hdrLen
      rw [startEncode_enc_eq, hcnt, show (headerBegun fin op (encodeLatched s)).cnt = 0#4 from rfl]
      obtain hl | hl | hl := hform <;> rw [hl] <;> decide
    · rw [startEncode_enc_eq, htx, hcnt]
      rfl

/-- R101: a command offered to an idle block, accepted or refused. -/
theorem accept_inv {c : Cmd} {s t : State} (h : Inv s) (hq : s.seq = .idle) (ht : exec (decodeCmd c) s = .next t) :
    Inv t := by
  obtain ⟨-, rfl⟩ | ⟨-, ht⟩ | ⟨-, len, hlen, rfl⟩ | ⟨-, n, hn, rfl⟩ | ⟨-, rfl⟩ := accept_next hq ht
  · refine ⟨h.config, h.status.accepted hq rfl rfl, h.buffers, ?_, frameInv_of_invalid rfl, h.accept⟩
    exact ⟨⟨rfl, rfl⟩, fun i => by simp [startDecode], rfl, rfl, rfl⟩
  · exact encode_inv h hq ht
  · split_ifs with hlong
    · exact raise_inv (by decide) h.config h.buffers h.frame h.accept
    · exact ⟨h.config, h.status.accepted hq rfl rfl, h.buffers,
        ⟨by simp [hlen], by simpa [hlen] using hlong⟩, h.frame, h.accept⟩
  · dsimp only
    split_ifs with hzero hlong
    · exact raise_inv (by decide) h.config h.buffers h.frame (acceptInv_of_invalid rfl)
    · exact raise_inv (by decide) h.config h.buffers h.frame (acceptInv_of_invalid rfl)
    · exact ⟨h.config, h.status.accepted hq rfl rfl, h.buffers,
        ⟨by simp [hn], by simpa [hn] using hzero, by simpa [hn] using hlong, rfl⟩, h.frame, acceptInv_of_invalid rfl⟩
  · exact raise_inv (by decide) h.config h.buffers h.frame h.accept

/-! ### Turns -/

/-- R21: the CODEC's turn keeps the invariant. -/
theorem codecTurn_inv {s t : State} (h : Inv s) (ht : codecTurn s = .next t) : Inv t := by
  cases hq : s.seq with
  | idle =>
    cases ho : s.env.offer with
    | none =>
      obtain rfl : s = t := by simpa [codecTurn, hq, stepIdle, ho] using ht
      exact h
    | some c =>
      rw [codecTurn_idle_offer hq ho] at ht
      exact accept_inv (s := { s with env := { s.env with offer := none } }) (h.withEnv _) hq ht
  | dB0 =>
    rw [codecTurn_dB0 hq] at ht
    exact rxTake_inv h (by rw [hq]; rfl) (by decide) (fun _ _ hv hvq => execByte0_inv hv (hvq.trans hq)) ht
  | dB1 =>
    rw [codecTurn_dB1 hq] at ht
    exact rxTake_inv h (by rw [hq]; rfl) (by decide) (fun _ _ hv hvq => execByte1_inv hv (hvq.trans hq)) ht
  | dExt =>
    rw [codecTurn_dExt hq] at ht
    exact rxTake_inv h (by rw [hq]; rfl) (by decide) (fun _ _ hv hvq => extByte_inv hv (hvq.trans hq)) ht
  | dKey =>
    rw [codecTurn_dKey hq] at ht
    exact rxTake_inv h (by rw [hq]; rfl) (by decide) (fun _ _ hv hvq => keyByteTaken_inv hv (hvq.trans hq)) ht
  | dPay =>
    rw [codecTurn_dPay hq] at ht
    exact rxTake_inv h (by rw [hq]; rfl) (by decide) (fun _ _ hv hvq => payByte_inv hv (hvq.trans hq)) ht
  | dChk => exact stepChk_inv h hq (codecTurn_dChk hq ▸ ht)
  | eHdr => exact stepHdr_inv h hq (codecTurn_eHdr hq ▸ ht)
  | ePay => exact stepEncPay_inv h hq (codecTurn_ePay hq ▸ ht)
  | mRun => exact stepMask_inv h hq (codecTurn_mRun hq ▸ ht)
  | aRun => exact stepAccept_inv h hq (codecTurn_aRun hq ▸ ht)
  | error =>
    obtain rfl := Host.Outcome.next.inj ((codecTurn_error hq).symm.trans ht)
    exact h

/-- R34: HOST's writes keep the invariant: no STATE asks anything of the operands, TX_PBUF or NONCE_BUF but their
bounds. -/
theorem hostWrite_inv {w : HostWrite} {s t : State} (h : Inv s) (ht : hostWrite w s = .next t) : Inv t := by
  obtain ⟨hrx, htx, hnonce⟩ := h.buffers
  obtain ⟨-, ⟨op, rfl⟩ | ⟨a, v, ha, rfl⟩ | ⟨a, v, ha, rfl⟩⟩ := hostWrite_next ht
  · exact ⟨h.config, h.status, h.buffers, h.phase, h.frame, h.accept⟩
  · exact ⟨h.config, h.status, ⟨hrx, ⟨Memory.wf_put a v htx.1, Memory.within_put v ha htx.2⟩, hnonce⟩, h.phase, h.frame,
      h.accept⟩
  · exact ⟨h.config, h.status, ⟨hrx, htx, Memory.wf_put a v hnonce.1, Memory.within_put v ha hnonce.2⟩, h.phase, h.frame,
      h.accept⟩

/-- R250. -/
theorem abort_inv {s : State} (h : Inv s) : Inv (abort s) :=
  ⟨h.config, statusInv_of_clear (by simp) ⟨rfl, rfl, rfl⟩ (by simp), h.buffers, trivial, frameInv_of_invalid rfl,
    acceptInv_of_invalid rfl⟩

/-- R270. -/
theorem resetWith_inv {cfg : Config} (h : cfg.wf = true) (env : Env) : Inv (State.resetWith cfg env) :=
  ⟨h, statusInv_of_clear (by simp [State.resetWith]) ⟨rfl, rfl, rfl⟩ (fun _ => rfl),
    ⟨⟨rfl, rfl⟩, ⟨rfl, rfl⟩, ⟨rfl, rfl⟩⟩, trivial, frameInv_of_invalid rfl, acceptInv_of_invalid rfl⟩

theorem step_inv {s t : State} (h : Inv s) (hstep : step s = .next t) : Inv t := by
  cases step_next hstep with
  | codec u agenda turn =>
    refine codecTurn_inv ?_ turn
    obtain rfl | ⟨rest, -, rfl⟩ := agenda
    · exact h
    · exact h.withEnv _
  | offer c rest _ _ result => exact result ▸ h.withEnv _
  | write w rest _ result => exact hostWrite_inv (h.withEnv _) result
  | read r rest _ result =>
    obtain ⟨-, _, -, rfl⟩ := hostRead_next.1 result
    exact h.withEnv _
  | copyByte a b rest _ result =>
    obtain ⟨_, -, -, hwrite⟩ := hostCopy_next result
    exact hostWrite_inv (h.withEnv _) hwrite
  | wait rest _ _ result => exact result ▸ h.withEnv _
  | abort rest _ result => exact result ▸ abort_inv (h.withEnv _)
  | reset rest _ result => exact result ▸ resetWith_inv h.config _
  | rxAppend bytes rest _ result =>
    subst result
    unfold rxAppend
    split_ifs <;> exact h.withEnv _
  | rxClose rest _ result => exact result ▸ h.withEnv _
  | txSink ready rest _ result => exact result ▸ h.withEnv _

/-! ### Registers that hold values -/

/-- Every register of one set of operands holds a value (log 3). -/
def Operands.held (o : Operands) : Prop :=
  o.fin.known = true ∧ o.opcode.known = true ∧ o.masked.known = true ∧ o.len.known = true ∧
    (∀ i : Fin 4, o.key[i].known = true) ∧ o.nonceLen.known = true

theorem registersHoldValues_iff {s : State} :
    registersHoldValues s ↔
      s.op.held ∧ s.latch.held ∧ s.rx.frameBytes.known = true ∧ s.enc.txBytes.known = true := by
  simp [registersHoldValues, Operands.held, and_assoc]

/-- R101, R121, R171: acceptance latches operands, and clears a counter or leaves it alone. -/
theorem accept_registers {c : Cmd} {s t : State} (h : registersHoldValues s) (hq : s.seq = .idle)
    (ht : exec (decodeCmd c) s = .next t) : registersHoldValues t := by
  rw [registersHoldValues_iff] at h ⊢
  obtain ⟨hop, -, hrx, htx⟩ := h
  obtain ⟨-, rfl⟩ | ⟨-, ht⟩ | ⟨-, len, -, rfl⟩ | ⟨-, n, -, rfl⟩ | ⟨-, rfl⟩ := accept_next hq ht
  · exact ⟨hop, hop, rfl, htx⟩
  · obtain rfl | ⟨fin, op, len, -, -, -, -, -, -, rfl⟩ := acceptEncode_next ht
    · exact ⟨hop, hop, hrx, rfl⟩
    · obtain ⟨-, -, hcount⟩ := encLenForm_counters len (headerBegun fin op (encodeLatched s))
      exact ⟨hop, hop, hrx, congrArg Reg.known hcount⟩
  · split_ifs <;> exact ⟨hop, hop, hrx, htx⟩
  · dsimp only
    split_ifs <;> exact ⟨hop, hop, hrx, htx⟩
  · exact ⟨hop, hop, hrx, htx⟩

/-- Log 25: the counters keep their marks when they count, and no other step of the CODEC touches a register's mark. -/
theorem codecTurn_registers {s t : State} (h : registersHoldValues s) (ht : codecTurn s = .next t) :
    registersHoldValues t := by
  by_cases hdecoding : s.seq.decoding = true
  · obtain ⟨-, hop, hlatch, henc, -, -, -, -, -, hcounted⟩ := codecTurn_decodeFrame hdecoding ht
    rw [registersHoldValues_iff] at h ⊢
    rw [hop, hlatch, henc]
    exact ⟨h.1, h.2.1, hcounted h.2.2.1, h.2.2.2⟩
  cases hq : s.seq with
  | idle =>
    cases ho : s.env.offer with
    | none =>
      obtain rfl : s = t := by simpa [codecTurn, hq, stepIdle, ho] using ht
      exact h
    | some c =>
      rw [codecTurn_idle_offer hq ho] at ht
      exact accept_registers (s := { s with env := { s.env with offer := none } }) h hq ht
  | dB0 | dB1 | dExt | dKey | dPay | dChk => exact absurd (by rw [hq]; rfl) hdecoding
  | eHdr =>
    rw [codecTurn_eHdr hq] at ht
    obtain ⟨-, rfl⟩ | ⟨-, b, -, ⟨-, rfl⟩ | ⟨-, _, -, rfl⟩⟩ := stepHdr_next.1 ht
    · exact h
    · exact h
    · split_ifs <;> exact h
  | ePay =>
    rw [codecTurn_ePay hq] at ht
    obtain ⟨-, rfl⟩ | ⟨-, -, b, _, -, -, rfl⟩ := stepEncPay_next.1 ht
    · exact h
    · split_ifs <;> exact h
  | mRun =>
    rw [codecTurn_mRun hq] at ht
    obtain ⟨_, _, -, -, rfl⟩ := stepMask_next.1 ht
    exact h
  | aRun =>
    rw [codecTurn_aRun hq] at ht
    obtain ⟨_, _, -, -, rfl⟩ := stepAccept_next.1 ht
    exact h
  | error =>
    obtain rfl := Host.Outcome.next.inj ((codecTurn_error hq).symm.trans ht)
    exact h

/-- R34: HOST's writes to the operands give them values. -/
theorem hostWrite_registers {w : HostWrite} {s t : State} (h : registersHoldValues s) (ht : hostWrite w s = .next t) :
    registersHoldValues t := by
  rw [registersHoldValues_iff] at h ⊢
  obtain ⟨⟨hfin, hopcode, hmasked, hlen, hkey, hnonce⟩, hrest⟩ := h
  unfold hostWrite at ht
  split_ifs at ht
  cases w with
  | opFin v => exact Host.Outcome.next.inj ht ▸ ⟨⟨rfl, hopcode, hmasked, hlen, hkey, hnonce⟩, hrest⟩
  | opOpcode v => exact Host.Outcome.next.inj ht ▸ ⟨⟨hfin, rfl, hmasked, hlen, hkey, hnonce⟩, hrest⟩
  | opMasked v => exact Host.Outcome.next.inj ht ▸ ⟨⟨hfin, hopcode, rfl, hlen, hkey, hnonce⟩, hrest⟩
  | opLen v => exact Host.Outcome.next.inj ht ▸ ⟨⟨hfin, hopcode, hmasked, rfl, hkey, hnonce⟩, hrest⟩
  | opNonceLen v => exact Host.Outcome.next.inj ht ▸ ⟨⟨hfin, hopcode, hmasked, hlen, hkey, rfl⟩, hrest⟩
  | opKey i v =>
    refine Host.Outcome.next.inj ht ▸ ⟨⟨hfin, hopcode, hmasked, hlen, fun j => ?_, hnonce⟩, hrest⟩
    simp only [Fin.getElem_fin, Vector.getElem_set]
    split_ifs
    · rfl
    · exact hkey j
  | txPbuf a v =>
    obtain ⟨m, -, ht⟩ := need_next.1 ht
    exact Host.Outcome.next.inj ht ▸ ⟨⟨hfin, hopcode, hmasked, hlen, hkey, hnonce⟩, hrest⟩
  | nonceBuf a v =>
    obtain ⟨m, -, ht⟩ := need_next.1 ht
    exact Host.Outcome.next.inj ht ▸ ⟨⟨hfin, hopcode, hmasked, hlen, hkey, hnonce⟩, hrest⟩

/-- Log 3: reset gives every register a value. -/
theorem resetWith_registers (cfg : Config) (env : Env) : registersHoldValues (State.resetWith cfg env) := by
  have hheld : Operands.atReset.held := by
    unfold Operands.held
    decide
  exact registersHoldValues_iff.2 ⟨hheld, hheld, rfl, rfl⟩

theorem step_registers {s t : State} (h : registersHoldValues s) (hstep : step s = .next t) : registersHoldValues t := by
  cases step_next hstep with
  | codec u agenda turn =>
    refine codecTurn_registers ?_ turn
    obtain rfl | ⟨rest, -, rfl⟩ := agenda <;> exact h
  | offer c rest _ _ result => exact result ▸ h
  | write w rest _ result => exact hostWrite_registers (s := withAgenda rest s) h result
  | read r rest _ result =>
    obtain ⟨-, _, -, rfl⟩ := hostRead_next.1 result
    exact h
  | copyByte a b rest _ result =>
    obtain ⟨_, -, -, hwrite⟩ := hostCopy_next result
    exact hostWrite_registers (s := withAgenda rest s) h hwrite
  | wait rest _ _ result => exact result ▸ h
  | abort rest _ result => exact result ▸ h
  | reset rest _ result => exact result ▸ resetWith_registers _ _
  | rxAppend bytes rest _ result =>
    subst result
    unfold rxAppend
    split_ifs <;> exact h
  | rxClose rest _ result => exact result ▸ h
  | txSink ready rest _ result => exact result ▸ h

/-! ### The statements -/

/-- Settles O57: each agent's turn keeps the invariant, and the marks of the registers. -/
theorem stepKeepsInv : Obligations.StepKeepsInv :=
  fun _ _ hstep => ⟨fun h => step_inv h hstep, fun h => step_registers h hstep⟩

/-- Settles O58: the reset state is the block at its reset values, with the parameters of the test vectors. -/
theorem resetMeetsInv : Obligations.ResetMeetsInv :=
  ⟨resetWith_inv (by decide) _, resetWith_registers _ _⟩

end Sys2Proof.Machine
end

section
/-! One turn of the CODEC: the rows outside their STATE, the holds, the payload byte, the emitted header byte, and where
the CODEC stops (log 2, 8, 18; 40_decode.md R141; 41_encode.md R177; 10_state.md R35). -/

namespace Sys2Proof.Machine

/-! ### Holds -/

/-- Settles O6: every arm of `exec` acts in its row's phase only. -/
theorem rowOutsideItsStateHolds : Obligations.RowOutsideItsStateHolds := by
  intro i s h
  cases i <;> exact inPhase_neg _ h

/-- R76: where the stream is open and has no byte, a STATE that takes one holds. -/
theorem codecTurn_hold_rx {u : State} (hq : u.seq ∈ [.dB0, .dB1, .dExt, .dKey, .dPay]) (hrx : u.env.rx = [])
    (hopen : u.env.rxClosed = false) : codecTurn u = .next u := by
  simp only [List.mem_cons, List.not_mem_nil, or_false] at hq
  obtain hq | hq | hq | hq | hq := hq
  · exact (codecTurn_dB0 hq).trans (rxTake_hold hrx hopen _ _)
  · exact (codecTurn_dB1 hq).trans (rxTake_hold hrx hopen _ _)
  · exact (codecTurn_dExt hq).trans (rxTake_hold hrx hopen _ _)
  · exact (codecTurn_dKey hq).trans (rxTake_hold hrx hopen _ _)
  · exact (codecTurn_dPay hq).trans (rxTake_hold hrx hopen _ _)

/-- R78: while the sink is not ready, emission holds. -/
theorem codecTurn_hold_tx {u : State} (hq : u.seq ∈ [.eHdr, .ePay]) (hsink : u.env.txReady = false) :
    codecTurn u = .next u := by
  simp only [List.mem_cons, List.not_mem_nil, or_false] at hq
  obtain hq | hq := hq
  · exact (codecTurn_eHdr hq).trans (stepHdr_next.2 (.inl ⟨hsink, rfl⟩))
  · exact (codecTurn_ePay hq).trans (stepEncPay_next.2 (.inl ⟨hsink, rfl⟩))

/-- R101: with nothing offered, an idle CODEC holds. -/
theorem codecTurn_hold_idle {u : State} (hq : u.seq = .idle) (hoffer : u.env.offer = none) :
    codecTurn u = .next u := by
  simp [codecTurn, hq, stepIdle, hoffer]

/-- Settles O27: the four holds. -/
theorem holdsChangeNothing : Obligations.HoldsChangeNothing := by
  intro s u hmoves hhold
  rw [(codecMoves_step hmoves).1]
  obtain ⟨hq, hrx, hopen⟩ | ⟨hq, hsink⟩ | ⟨hq, hoffer⟩ | hq := hhold
  · exact codecTurn_hold_rx hq hrx hopen
  · exact codecTurn_hold_tx hq hsink
  · exact codecTurn_hold_idle hq hoffer
  · exact codecTurn_error hq

/-! ### The payload byte -/

/-- R141: where the masked frame's key is complete, every payload byte can be unmasked. -/
theorem unmasked_exists (r : Byte) {s : State} (hmasked : s.rx.masked.known = true) (hkey : keyIn s) :
    ∃ v, unmasked r s = .ok v := by
  have hm := Reg.eq_of_known hmasked
  cases hval : s.rx.masked.val with
  | false => exact ⟨r, unmasked_ok.2 (.inl ⟨hm.trans (congrArg Reg.of hval), rfl⟩)⟩
  | true =>
    have hknown : (keyByte s.rx.key s.dec.payCnt.toNat).known = true :=
      hkey.1 hval ⟨s.dec.payCnt.toNat % 4, Nat.mod_lt _ (by decide)⟩
    exact ⟨_, unmasked_ok.2 (.inr ⟨hm.trans (congrArg Reg.of hval), _, Reg.eq_of_known hknown, rfl⟩)⟩

/-- Settles O15: the invariant keeps PAY_CNT below RX_LEN, inside RX_PBUF, and gives the fields their values. -/
theorem payloadByteStep : Obligations.PayloadByteStep := by
  intro s u hmoves hinv hq
  have hphase := hinv.phase
  simp only [phaseInv, hq] at hphase
  obtain ⟨⟨-, hbytes⟩, -, ⟨hmasked, -⟩, ⟨hlen, hfits⟩, hkey, hlt, -⟩ := hphase
  have hcounts : u.rx.frameBytes.known = true := by rw [hbytes]
  refine ⟨hlt, hfits, fun r bs hrx => ?_, step_of_eos hmoves (codecTurn_dPay hq)⟩
  obtain ⟨v, hv⟩ := unmasked_exists r (s := u) hmasked hkey
  refine ⟨v, fun hplain => ?_, fun hmask => ?_, ?_⟩
  · obtain ⟨-, hr⟩ | ⟨hm, -⟩ := unmasked_ok.1 hv
    · exact hr.symm
    · exact absurd (hplain.symm.trans hm) (by simp)
  · obtain ⟨hm, -⟩ | ⟨-, k, hk, hr⟩ := unmasked_ok.1 hv
    · exact absurd (hmask.symm.trans hm) (by simp)
    · exact ⟨k, (Vector.getElem?_eq_getElem _).trans (congrArg some hk), hr.symm⟩
  · rw [step_of_byte hmoves (codecTurn_dPay hq) hrx]
    refine payByte_next.2 ⟨v, _, hv, Nat.lt_of_lt_of_le (BitVec.lt_def.1 hlt) hfits, Reg.eq_of_known hlen, ?_⟩
    simp only [payTaken, withRx, hcounts, hq]
    rfl

/-! ### The emitted header byte -/

/-- Settles O25: the invariant keeps E_CNT inside E_HDR, and gives L_LEN and TX_BYTES their values. -/
theorem headerEmissionStep : Obligations.HeaderEmissionStep := by
  intro s u hmoves hinv hq hready
  have hphase := hinv.phase
  simp only [phaseInv, hq] at hphase
  obtain ⟨hknown, -, hform, hlt, -, hcount⟩ := hphase
  have hlen := Reg.eq_of_known hknown
  have hcounts : u.enc.txBytes.known = true := by rw [hcount]
  have hin := hdrCnt_lt hform hlt
  refine ⟨u.enc.hdr[u.enc.cnt.toNat], u.latch.len.val, Vector.getElem?_eq_getElem hin, hlen, ?_⟩
  intro v
  have hv : hdrSent u.enc.hdr[u.enc.cnt.toNat] u = v := by
    simp only [hdrSent, hcounts]
    rfl
  rw [(codecMoves_step hmoves).1, codecTurn_eHdr hq]
  refine stepHdr_next.2 (.inr ⟨hready, _, Vector.getElem?_eq_getElem hin, ?_⟩)
  rw [hv]
  by_cases hmore : u.enc.cnt + 1 ≠ u.enc.hdrLen
  · exact .inl ⟨hmore, (if_pos hmore).symm⟩
  · exact .inr ⟨not_not.1 hmore, _, hlen, (if_neg hmore).symm⟩

/-! ### Operands without a value -/

/-- R35: reading a register goes on with its value, or faults. -/
theorem need_read_unknown {α : Type} {r : Reg α} (h : r.known = false) (k : α → Result) :
    need r.read k = .fault .unwrittenRead := by
  simp [Reg.read, h]

theorem need_read_known {α : Type} {r : Reg α} (h : r.known = true) (k : α → Result) : need r.read k = k r.val := by
  simp [Reg.read, h]

/-- R171, log 16: an operand that ENCODE's checks need has no value. -/
def encodeLacks (cap : Nat) (o : Operands) : Prop :=
  o.opcode.known = false ∨
    (isReservedOp o.opcode.val = false ∧
      ((isControlOp o.opcode.val = true ∧ o.fin.known = false) ∨
        ((isControlOp o.opcode.val = true → o.fin.val = true) ∧ o.len.known = false) ∨
        (isControlOp o.opcode.val = false ∧ o.fin.known = false ∧ o.len.val.toNat ≤ cap)))

/-- R171: the length check and the header, each operand with a value or without. -/
theorem encodeFits_eq (op : BitVec 4) (s : State) :
    encodeFits op s =
      if s.latch.len.known = false ∨ (s.latch.len.val.toNat ≤ s.cfg.pbufBytes ∧ s.latch.fin.known = false) then
        .fault .unwrittenRead
      else if s.cfg.pbufBytes < s.latch.len.val.toNat then .next (raise .invalidFrame s)
      else .next (startEncode s.latch.fin.val op s.latch.len.val s) := by
  unfold encodeFits
  cases hl : s.latch.len.known with
  | false => rw [need_read_unknown hl]; simp
  | true =>
    rw [need_read_known hl]
    by_cases hlong : s.cfg.pbufBytes < s.latch.len.val.toNat
    · simp [hlong, Nat.not_le.2 hlong]
    · cases hf : s.latch.fin.known with
      | false => rw [need_read_unknown hf]; simp [hlong, Nat.not_lt.1 hlong]
      | true => rw [need_read_known hf]; simp [hlong]

/-- R171, R35: ENCODE's checks fault exactly where one of them needs an operand that has no value. -/
theorem acceptEncode_lacks (s : State) :
    (encodeLacks s.cfg.pbufBytes s.latch → acceptEncode s = .fault .unwrittenRead) ∧
      (¬ encodeLacks s.cfg.pbufBytes s.latch → ∃ t, acceptEncode s = .next t) := by
  unfold acceptEncode encodeLacks
  cases ho : s.latch.opcode.known with
  | false => rw [need_read_unknown ho]; simp
  | true =>
    rw [need_read_known ho]
    cases hres : isReservedOp s.latch.opcode.val with
    | true => simp
    | false =>
      cases hctl : isControlOp s.latch.opcode.val with
      | false =>
        simp only [encodeFits_eq]
        by_cases hstop : s.latch.len.known = false ∨
            (s.latch.len.val.toNat ≤ s.cfg.pbufBytes ∧ s.latch.fin.known = false)
        · rw [if_pos hstop]
          exact ⟨fun _ => rfl, fun h => absurd (by simp; tauto) h⟩
        · rw [if_neg hstop]
          refine ⟨fun h => absurd h (by simp; tauto), fun _ => ?_⟩
          split_ifs <;> exact ⟨_, rfl⟩
      | true =>
        cases hf : s.latch.fin.known with
        | false => simp [need_read_unknown hf]
        | true =>
          simp only [if_true, need_read_known hf]
          cases hfin : s.latch.fin.val with
          | false => simp
          | true =>
            cases hl : s.latch.len.known with
            | false => simp [need_read_unknown hl]
            | true =>
              simp only [if_true, need_read_known hl, encodeFits_eq, hl, hf]
              refine ⟨fun h => absurd h (by simp), fun _ => ?_⟩
              simp only [Bool.true_eq_false, and_false, or_false, if_false]
              split_ifs <;> exact ⟨_, rfl⟩

/-- R35, R194: MASK_APPLY's acceptance needs L_LEN only. -/
theorem exec_maskApply_lacks {s : State} (hq : s.seq = .idle) :
    (s.op.len.known = false → exec .maskApply s = .fault .unwrittenRead) ∧
      (s.op.len.known = true → ∃ t, exec .maskApply s = .next t) :=
  ⟨fun hl => (inPhase_pos _ hq).trans (need_read_unknown (r := s.op.len) hl _),
    fun hl => ⟨_, exec_maskApply hq (Reg.eq_of_known hl)⟩⟩

/-- R35, R201: ACCEPT_KEY's acceptance needs L_NONCE_LEN only. -/
theorem exec_acceptKey_lacks {s : State} (hq : s.seq = .idle) :
    (s.op.nonceLen.known = false → exec .acceptKey s = .fault .unwrittenRead) ∧
      (s.op.nonceLen.known = true → ∃ t, exec .acceptKey s = .next t) :=
  ⟨fun hn => (inPhase_pos _ hq).trans (need_read_unknown (r := s.op.nonceLen) hn _),
    fun hn => ⟨_, exec_acceptKey hq (Reg.eq_of_known hn)⟩⟩

/-- R121: DECODE's acceptance needs no operand. -/
theorem exec_decode {s : State} (hq : s.seq = .idle) : exec .decode s = .next (startDecode (latchOperands 1#3 s)) :=
  inPhase_pos _ hq

/-- Settles O24: ENCODE's checks read opcode, FIN and length where `encodeLacks` says, and the other commands at most one
operand. -/
theorem unwrittenOperandsFault : Obligations.UnwrittenOperandsFault := by
  intro s hq reserved control stops
  have hstops : stops ↔ encodeLacks s.cfg.pbufBytes s.op := by
    have hres : reserved ↔ isReservedOp s.op.opcode.val = true := (isReservedOp_iff _).symm
    have hctl : control ↔ isControlOp s.op.opcode.val = true := (isControlOp_iff _).symm
    simp only [stops, encodeLacks, hres, hctl, Bool.not_eq_true]
  obtain ⟨hfault, hnext⟩ := acceptEncode_lacks (encodeLatched s)
  rw [exec_encode hq, hstops]
  refine ⟨hfault, hnext, fun hknown hres => ?_, (exec_maskApply_lacks hq).1, (exec_maskApply_lacks hq).2,
    (exec_acceptKey_lacks hq).1, (exec_acceptKey_lacks hq).2, _, exec_decode hq⟩
  have hres' : isReservedOp s.op.opcode.val = true := (isReservedOp_iff _).2 hres
  refine ⟨raise .invalidFrame (encodeLatched s), ?_, rfl⟩
  unfold acceptEncode
  exact (need_read_known (r := s.op.opcode) hknown _).trans (if_pos hres')

/-! ### Where the CODEC stops -/

/-- R35, R71: a read of HOST's bytes stops only as UnwrittenRead, where one of them has no value. -/
theorem Memory.loadBytes_total {m : Memory} {cap a n : Nat} (h : a + n ≤ cap) :
    (∃ l, m.loadBytes cap a n = .ok l) ∨
      (m.loadBytes cap a n = .error .unwrittenRead ∧ ∃ x, a ≤ x ∧ x < a + n ∧ m.find x = none) := by
  induction n generalizing a with
  | zero => exact .inl ⟨[], rfl⟩
  | succ n ih =>
    simp only [Memory.loadBytes]
    cases hfind : m.find a with
    | none => exact .inr ⟨by rw [Memory.load_none (by omega) hfind], a, le_rfl, by omega, hfind⟩
    | some v =>
      rw [Memory.load_ok.2 ⟨by omega, hfind⟩]
      obtain ⟨l, hl⟩ | ⟨hl, x, hx, hx', hnone⟩ := ih (a := a + 1) (by omega)
      · exact .inl ⟨v :: l, by rw [hl]⟩
      · exact .inr ⟨by rw [hl], x, by omega, by omega, hnone⟩

/-- R193, R195: the mask loop stops only as UnwrittenRead, where a byte of its range or a key byte has no value. -/
theorem maskBuffer_total {key : Vector (Reg Byte) 4} {cap : Nat} {m : Memory} {i n : Nat} (h : i + n ≤ cap) :
    (∃ m', maskBuffer key cap m i n = .ok m') ∨
      (maskBuffer key cap m i n = .error .unwrittenRead ∧ ∃ x, i ≤ x ∧ x < i + n ∧
        (m.find x = none ∨ (keyByte key x).known = false)) := by
  induction n generalizing m i with
  | zero => exact .inl ⟨m, rfl⟩
  | succ n ih =>
    simp only [maskBuffer]
    cases hfind : m.find i with
    | none => exact .inr ⟨by rw [Memory.load_none (by omega) hfind], i, le_rfl, by omega, .inl hfind⟩
    | some v =>
      rw [Memory.load_ok.2 ⟨by omega, hfind⟩]
      cases hk : (keyByte key i).known with
      | false => exact .inr ⟨by simp [Reg.read, hk], i, le_rfl, by omega, .inr hk⟩
      | true =>
        simp only [Reg.read, hk, if_true]
        obtain hok | ⟨hstop, x, hx, hx', hnone⟩ := ih (m := m.put i (v ^^^ (keyByte key i).val)) (i := i + 1) (by omega)
        · exact .inl hok
        · rw [Memory.find_put_other _ _ (by omega)] at hnone
          exact .inr ⟨hstop, x, by omega, by omega, hnone⟩

/-- R35: what may stop the CODEC in a good state: an operand or a byte that HOST should have written. -/
def hostValueMissing (u : State) : Prop :=
  (u.seq = .idle ∧ u.env.offer ∈ [some 2, some 3, some 4] ∧ ¬ u.op.held) ∨
    (u.seq = .ePay ∧ u.buf.txPbuf.find u.enc.payCnt.toNat = none) ∨
    (u.seq = .mRun ∧ ∃ a, a < u.latch.len.val.toNat ∧
      (u.buf.txPbuf.find a = none ∨ (keyByte u.latch.key a).known = false)) ∨
    (u.seq = .aRun ∧ ∃ a, a < u.latch.nonceLen.val.toNat ∧ u.buf.nonceBuf.find a = none)

theorem not_encodeLacks_of_held {cap : Nat} {o : Operands} (h : o.held) : ¬ encodeLacks cap o := by
  obtain ⟨hfin, hopcode, -, hlen, -, -⟩ := h
  simp [encodeLacks, hfin, hopcode, hlen]

/-- R101: acceptance answers a next state, or faults for want of an operand. -/
theorem accept_stops {c : Cmd} {s : State} (hq : s.seq = .idle) :
    (∃ t, exec (decodeCmd c) s = .next t) ∨
      (exec (decodeCmd c) s = .fault .unwrittenRead ∧ some c ∈ [some 2, some 3, some (4 : Cmd)] ∧ ¬ s.op.held) := by
  have all : ∀ c : Cmd, c = 1 ∨ c = 2 ∨ c = 3 ∨ c = 4 ∨ c ∈ [0, 5, 6, 7] := by decide
  obtain rfl | rfl | rfl | rfl | hc := all c
  · exact .inl ⟨_, exec_decode hq⟩
  · have hencode : exec (decodeCmd 2) s = acceptEncode (encodeLatched s) := exec_encode hq
    obtain ⟨hfault, hnext⟩ := acceptEncode_lacks (encodeLatched s)
    rw [hencode]
    by_cases hlacks : encodeLacks s.cfg.pbufBytes s.op
    · exact .inr ⟨hfault hlacks, by simp, fun hheld => not_encodeLacks_of_held hheld hlacks⟩
    · exact .inl (hnext hlacks)
  · obtain ⟨hfault, hnext⟩ := exec_maskApply_lacks hq
    cases hl : s.op.len.known with
    | false => exact .inr ⟨hfault hl, by simp, fun ⟨_, _, _, hlen, _⟩ => by simp [hl] at hlen⟩
    | true => exact .inl (hnext hl)
  · obtain ⟨hfault, hnext⟩ := exec_acceptKey_lacks hq
    cases hn : s.op.nonceLen.known with
    | false => exact .inr ⟨hfault hn, by simp, fun ⟨_, _, _, _, _, hnonce⟩ => by simp [hn] at hnonce⟩
    | true => exact .inl (hnext hn)
  · exact .inl ⟨_, exec_reservedCmd hc hq⟩

/-- R76: a step that takes a byte answers a next state if the byte's meaning does. -/
theorem rxTake_total {s : State} {e : ErrCode} {k : Byte → State → Result}
    (hk : ∀ b bs, ∃ t, k b (withRx bs s) = .next t) : ∃ t, rxTake s (.next (raise e s)) k = .next t := by
  obtain ⟨b, bs, -, hb⟩ | ⟨-, -, heos⟩ | ⟨-, -, hhold⟩ := rxTake_cases s (.next (raise e s)) k
  · obtain ⟨t, ht⟩ := hk b bs
    exact ⟨t, hb.trans ht⟩
  · exact ⟨_, heos⟩
  · exact ⟨_, hhold⟩

/-- R141: DECODE never stops. -/
theorem codecTurn_decoding_total {u : State} (h : Inv u) (hdecoding : u.seq.decoding = true) :
    ∃ t, codecTurn u = .next t := by
  have hphase := h.phase
  cases hq : u.seq <;> simp only [hq, Seq.decoding, Bool.false_eq_true] at hdecoding <;>
    simp only [phaseInv, hq] at hphase
  case dB0 =>
    rw [codecTurn_dB0 hq]
    exact rxTake_total fun b bs => ⟨_, (exec_decodeByte0 b _).trans
      ((inPhase_pos (s := withRx bs u) _ hq).trans (headerByte0_eq _ _ _ _))⟩
  case dB1 =>
    rw [codecTurn_dB1 hq]
    refine rxTake_total fun b bs => ?_
    have hq' : (withRx bs u).seq = .dB1 := hq
    rw [exec_decodeByte1]
    split_ifs
    · exact ⟨_, execLenDirect_eq _ _ hq'⟩
    · exact ⟨_, inPhase_pos _ hq'⟩
    · exact ⟨_, inPhase_pos _ hq'⟩
  case dExt =>
    obtain ⟨-, -, ⟨hmasked, -⟩, -⟩ := hphase
    rw [codecTurn_dExt hq]
    exact rxTake_total fun b bs => ⟨_, extByte_eq b (s := withRx bs u) (Reg.eq_of_known hmasked)⟩
  case dKey =>
    obtain ⟨-, -, -, ⟨hlen, -⟩, -, hcnt, -⟩ := hphase
    rw [codecTurn_dKey hq]
    exact rxTake_total fun b bs =>
      ⟨_, keyByteTaken_eq b (s := withRx bs u) (BitVec.lt_def.1 hcnt) (Reg.eq_of_known hlen)⟩
  case dPay =>
    obtain ⟨-, -, ⟨hmasked, -⟩, ⟨hlen, hfits⟩, hkey, hlt, -⟩ := hphase
    rw [codecTurn_dPay hq]
    refine rxTake_total fun b bs => ?_
    obtain ⟨v, hv⟩ := unmasked_exists b (s := withRx bs u) hmasked hkey
    exact ⟨_, payByte_next.2 ⟨v, _, hv, Nat.lt_of_lt_of_le (BitVec.lt_def.1 hlt) hfits, Reg.eq_of_known hlen, rfl⟩⟩
  case dChk =>
    obtain ⟨-, ⟨hfin, -, hop, -⟩, -, ⟨hlen, -⟩, -⟩ := hphase
    rw [codecTurn_dChk hq]
    exact ⟨_, stepChk_eq (Reg.eq_of_known hfin) (Reg.eq_of_known hop) (Reg.eq_of_known hlen)⟩

/-- R35, R71, R141: in a good state the CODEC stops only for want of a value that HOST should have written. -/
theorem codecTurn_stops {u : State} (h : Inv u) :
    (∃ t, codecTurn u = .next t) ∨ (codecTurn u = .fault .unwrittenRead ∧ hostValueMissing u) := by
  have hphase := h.phase
  cases hq : u.seq with
  | idle =>
    cases ho : u.env.offer with
    | none => exact .inl ⟨u, codecTurn_hold_idle hq ho⟩
    | some c =>
      rw [codecTurn_idle_offer hq ho]
      obtain hnext | ⟨hfault, hc, hheld⟩ := accept_stops (c := c) (s := { u with env := { u.env with offer := none } }) hq
      · exact .inl hnext
      · exact .inr ⟨hfault, .inl ⟨hq, ho ▸ hc, hheld⟩⟩
  | dB0 | dB1 | dExt | dKey | dPay | dChk => exact .inl (codecTurn_decoding_total h (by rw [hq]; rfl))
  | eHdr =>
    simp only [phaseInv, hq] at hphase
    obtain ⟨hknown, -, hform, hlt, -⟩ := hphase
    have hin := hdrCnt_lt hform hlt
    left
    rw [codecTurn_eHdr hq]
    cases hready : u.env.txReady with
    | false => exact ⟨u, stepHdr_next.2 (.inl ⟨hready, rfl⟩)⟩
    | true =>
      by_cases hlast : u.enc.cnt + 1#4 = u.enc.hdrLen
      · exact ⟨_, stepHdr_next.2 (.inr ⟨hready, _, Vector.getElem?_eq_getElem hin,
          .inr ⟨hlast, _, Reg.eq_of_known hknown, rfl⟩⟩)⟩
      · exact ⟨_, stepHdr_next.2 (.inr ⟨hready, _, Vector.getElem?_eq_getElem hin, .inl ⟨hlast, rfl⟩⟩)⟩
  | ePay =>
    simp only [phaseInv, hq] at hphase
    obtain ⟨hknown, hfits, hlt, -⟩ := hphase
    have hin : u.enc.payCnt.toNat < u.cfg.pbufBytes := Nat.lt_of_lt_of_le (BitVec.lt_def.1 hlt) hfits
    rw [codecTurn_ePay hq]
    cases hready : u.env.txReady with
    | false => exact .inl ⟨u, stepEncPay_next.2 (.inl ⟨hready, rfl⟩)⟩
    | true =>
      cases hfind : u.buf.txPbuf.find u.enc.payCnt.toNat with
      | none =>
        refine .inr ⟨?_, .inr (.inl ⟨hq, hfind⟩)⟩
        rw [stepEncPay, whenTxReady, if_pos hready, Memory.load_none hin hfind, need_error]
      | some b => exact .inl ⟨_, stepEncPay_next.2 (.inr ⟨hready, hin, b, _, hfind, Reg.eq_of_known hknown, rfl⟩)⟩
  | mRun =>
    simp only [phaseInv, hq] at hphase
    obtain ⟨hknown, hfits⟩ := hphase
    rw [codecTurn_mRun hq]
    obtain ⟨m, hm⟩ | ⟨hstop, a, -, ha, hnone⟩ := maskBuffer_total (key := u.latch.key) (m := u.buf.txPbuf) (i := 0)
      (n := u.latch.len.val.toNat) (cap := u.cfg.pbufBytes) (by omega)
    · exact .inl ⟨_, stepMask_next.2 ⟨_, m, Reg.eq_of_known hknown, hm, rfl⟩⟩
    · refine .inr ⟨?_, .inr (.inr (.inl ⟨hq, a, by omega, hnone⟩))⟩
      rw [stepMask, need_read_known hknown, hstop, need_error]
  | aRun =>
    simp only [phaseInv, hq] at hphase
    obtain ⟨hknown, -, hfits, -⟩ := hphase
    rw [codecTurn_aRun hq]
    obtain ⟨l, hl⟩ | ⟨hstop, a, -, ha, hnone⟩ := Memory.loadBytes_total (m := u.buf.nonceBuf) (a := 0)
      (n := u.latch.nonceLen.val.toNat) (cap := u.cfg.nonceMax) (by omega)
    · exact .inl ⟨_, stepAccept_next.2 ⟨_, l, Reg.eq_of_known hknown, hl, rfl⟩⟩
    · refine .inr ⟨?_, .inr (.inr (.inr ⟨hq, a, by omega, hnone⟩))⟩
      rw [stepAccept, need_read_known hknown, hstop, need_error]
  | error => exact .inl ⟨u, codecTurn_error hq⟩

/-- Settles O59: a value of HOST's that is missing is an operand or a key byte, which registers that hold values rule out,
or a buffer byte. -/
theorem codecStopsOnlyOnHostsValues : Obligations.CodecStopsOnlyOnHostsValues := by
  intro s u hmoves hinv
  rw [(codecMoves_step hmoves).1]
  refine ⟨(codecTurn_stops hinv).imp_right fun ⟨hfault, hmissing⟩ => ⟨hfault, ?_⟩, fun hregs =>
    (codecTurn_stops hinv).imp_right fun ⟨hfault, hmissing⟩ => ⟨hfault, ?_⟩⟩
  · obtain ⟨hq, ho, -⟩ | ⟨hq, -⟩ | ⟨hq, -⟩ | ⟨hq, -⟩ := hmissing
    · exact ⟨by simp [hq], fun _ => ho⟩
    all_goals exact ⟨by simp [hq], fun hidle => by simp [hq] at hidle⟩
  · obtain ⟨hop, ⟨-, -, -, -, hkey, -⟩, -⟩ := registersHoldValues_iff.1 hregs
    obtain ⟨-, -, hheld⟩ | hpay | ⟨hq, a, ha, hnone | hunknown⟩ | haccept := hmissing
    · exact absurd hop hheld
    · exact .inl hpay
    · exact .inr (.inl ⟨hq, a, ha, hnone⟩)
    · exact absurd (hkey ⟨a % 4, Nat.mod_lt a (by decide)⟩) (Bool.eq_false_iff.1 hunknown)
    · exact .inr (.inr haccept)

end Sys2Proof.Machine
end

section
/-! Each row's whole next state: header bytes, length forms, commands (30_encoding.md R101; 40_decode.md R121 to R133;
41_encode.md R171 to R176), and the row that a step runs. -/

namespace Sys2Proof.Machine

/-! ### Header byte 0 -/

/-- R126 to R131: RSV = 000 and a defined opcode lead to D_B1. -/
theorem headerByte0_accepts (fin : Bool) {op : BitVec 4} (hop : isReservedOp op = false) (s : State) :
    headerByte0 fin 0#3 op s = .next { setByte0 fin 0#3 op (countRxByte s) with seq := .dB1 } := by
  rw [headerByte0_eq, if_neg (by simp), if_neg (by simp [hop])]

/-- R124: a reserved bit raises ReservedBitsSet, whatever the opcode. -/
theorem headerByte0_reservedBits (fin : Bool) {rsv : BitVec 3} (hrsv : rsv ≠ 0#3) (op : BitVec 4) (s : State) :
    headerByte0 fin rsv op s = .next (raise .reservedBitsSet (setByte0 fin rsv op (countRxByte s))) := by
  rw [headerByte0_eq, if_pos hrsv]

/-- R125: a reserved opcode raises InvalidOpcode. -/
theorem headerByte0_reservedOp (fin : Bool) {op : BitVec 4} (hop : isReservedOp op = true) (s : State) :
    headerByte0 fin 0#3 op s = .next (raise .invalidOpcode (setByte0 fin 0#3 op (countRxByte s))) := by
  rw [headerByte0_eq, if_neg (by simp), if_pos hop]

/-- Settles O8: none of the six opcodes is reserved. -/
theorem opcodeRowsComplete : Obligations.OpcodeRowsComplete := by
  intro fin s hq reached
  have row (op : BitVec 4) (hop : isReservedOp op = false) :
      inPhase .dB0 s (headerByte0 fin 0#3 op s) = .next (reached op) :=
    (inPhase_pos _ hq).trans (headerByte0_accepts fin hop s)
  exact ⟨row 0x0 rfl, row 0x1 rfl, row 0x2 rfl, row 0x8 rfl, row 0x9 rfl, row 0xA rfl⟩

/-- The reserved-bit rows have a bit set, and the opcodes of the reserved rows are reserved. -/
theorem rsvOfBit6_ne_zero : ∀ rsv54 : BitVec 2, rsvOfBit6 rsv54 ≠ 0#3 := by decide

theorem rsvOfBit5_ne_zero : ∀ rsv4 : Bool, rsvOfBit5 rsv4 ≠ 0#3 := by decide

theorem isReservedOp_4To7 : ∀ low : BitVec 2, isReservedOp (opOf4To7 low) = true := by decide

theorem isReservedOp_CToF : ∀ low : BitVec 2, isReservedOp (opOfCToF low) = true := by decide

/-- Settles O9: RSV decides for the first three rows, the opcode for the other four. -/
theorem illegalByte0RowsRaise : Obligations.IllegalByte0RowsRaise := by
  intro fin rsv4 rsv54 low op s hq raised
  have hraised (e : ErrCode) (rsv : BitVec 3) (op : BitVec 4) :
      raise e (setByte0 fin rsv op (countRxByte s)) = raised e rsv op := by
    simp only [raise, setByte0_seq, countRxByte_seq, hq]
    rfl
  have bits (rsv : BitVec 3) (hrsv : rsv ≠ 0#3) :
      inPhase .dB0 s (headerByte0 fin rsv op s) = .next (raised .reservedBitsSet rsv op) := by
    rw [inPhase_pos _ hq, headerByte0_reservedBits fin hrsv, hraised]
  have opcode (op : BitVec 4) (hop : isReservedOp op = true) :
      inPhase .dB0 s (headerByte0 fin 0#3 op s) = .next (raised .invalidOpcode 0 op) := by
    rw [inPhase_pos _ hq, headerByte0_reservedOp fin hop, hraised]
    rfl
  exact ⟨bits _ (rsvOfBit6_ne_zero rsv54), bits _ (rsvOfBit5_ne_zero rsv4), bits _ (by decide), opcode _ rfl,
    opcode _ (isReservedOp_4To7 low), opcode _ rfl, opcode _ (isReservedOp_CToF low)⟩

/-! ### Header byte 1 -/

/-- Settles O11: R7's bound on PBUF_BYTES keeps a DIRECT length below the ceiling. -/
theorem lengthRowsComplete : Obligations.LengthRowsComplete := by
  intro mask len7 s hq seen
  refine ⟨fun hcfg hdirect => ?_, inPhase_pos _ hq, inPhase_pos _ hq⟩
  have hcap : ¬ s.cfg.pbufBytes < len7.toNat := by
    have hlen : len7.toNat ≤ 125 := hdirect
    simp only [Config.wf, Bool.and_eq_true, decide_eq_true_eq] at hcfg
    omega
  refine (execLenDirect_eq mask len7 hq).trans ?_
  rw [if_neg hcap]
  cases mask with
  | true => rfl
  | false =>
    by_cases hzero : len7 = 0
    · subst hzero
      rfl
    · have hpos : 0#7 < len7 := (BitVec.pos_iff_ne_zero _).2 hzero
      simp only [Bool.false_eq_true, if_false, if_pos hpos, if_neg hzero]
      rfl

/-! ### Length forms -/

/-- R173 to R175: a length-form row acts where the latched length selects it. -/
theorem applyForm_eq {row : Instr} {f : Word64 → EncRegs → EncRegs} {s : State} {len : Word64} (hq : s.seq = .idle)
    (hl : s.latch.len = .of len) :
    applyForm row f s = .next (if lenForm len = row then { s with enc := f len s.enc } else s) := by
  rw [applyForm, inPhase_pos _ hq, hl, Reg.read_of, need_ok]
  split_ifs <;> rfl

theorem lenForm_eq_direct_iff {len : Word64} {len7 : BitVec 7} :
    lenForm len = .encLenDirect len7 ↔ len ≤ 125#64 ∧ len.setWidth 7 = len7 := by
  unfold lenForm
  split_ifs <;> simp_all

theorem lenForm_eq_ext16_iff {len : Word64} : lenForm len = .encLenExt16 ↔ 125#64 < len ∧ len ≤ 65535#64 := by
  unfold lenForm
  split_ifs <;> simp_all

theorem lenForm_eq_ext64_iff {len : Word64} : lenForm len = .encLenExt64 ↔ 65535#64 < len := by
  unfold lenForm
  split_ifs with h₁ h₂
  · simp only [false_iff, BitVec.not_lt]
    exact BitVec.le_trans h₁ (by decide)
  · simp [h₂]
  · simp [BitVec.not_le.1 h₂]

/-- Settles O19: the length selects one row, and the row writes its own header bytes. -/
theorem encoderFormRowsComplete : Obligations.EncoderFormRowsComplete := by
  intro s len hq hl
  have acts {row : Instr} (f : Word64 → EncRegs → EncRegs) (h : lenForm len = row) :
      applyForm row f s = .next { s with enc := f len s.enc } := by rw [applyForm_eq hq hl, if_pos h]
  have holds {row : Instr} (f : Word64 → EncRegs → EncRegs) (h : lenForm len ≠ row) :
      applyForm row f s = .next s := by rw [applyForm_eq hq hl, if_neg h]
  refine ⟨fun len7 hshort hlen7 => ?_, fun len7 hother => holds _ ?_, fun hlong hfits => ?_, fun hother => holds _ ?_,
    fun hlong => ?_, fun hother => holds _ ?_⟩
  · rw [← byte1Of_unmasked]
    exact acts _ (lenForm_eq_direct_iff.2 ⟨hshort, hlen7⟩)
  · rw [Ne, lenForm_eq_direct_iff, not_and_or, BitVec.not_le]
    exact hother
  · refine ⟨_, acts _ (lenForm_eq_ext16_iff.2 ⟨hlong, hfits⟩), rfl, by simp [encExt16],
      by simp [encExt16, byte1Of_unmasked], by simp [encExt16, beBytes_two], fun i hi => ?_⟩
    have hne : 1 ≠ i.val ∧ 2 ≠ i.val ∧ 3 ≠ i.val := by omega
    simp [encExt16, hne]
  · rw [Ne, lenForm_eq_ext16_iff, not_and_or, BitVec.not_le, BitVec.not_lt]
    exact hother
  · exact ⟨_, acts _ (lenForm_eq_ext64_iff.2 hlong), rfl, by simp [encExt64], by simp [encExt64, byte1Of_unmasked],
      by simp [encExt64, beBytes_eight]⟩
  · rw [Ne, lenForm_eq_ext64_iff, BitVec.not_lt]
    exact hother

/-- R173 to R176: the header byte 1 of a length reads as the row of that length. -/
theorem decodeEncByte1_encLenForm (len : Word64) (e : EncRegs) :
    decodeEncByte1 (encLenForm len e).hdr[1] = .ok (lenForm len) := by
  obtain ⟨hlen, hrow, h⟩ | ⟨-, -, hrow, h⟩ | ⟨-, hrow, h⟩ := lenForm_cases len e
  · have hshort : len.setWidth 7 ≤ 125#7 := by
      have : len.toNat ≤ 125 := BitVec.le_def.1 hlen
      rw [BitVec.le_def, BitVec.toNat_setWidth]
      exact (Nat.mod_le _ _).trans this
    have hbyte : (encDirect (len.setWidth 7) e).hdr[1] = byte1Of false (len.setWidth 7) := by simp [encDirect]
    rw [h, hrow, hbyte]
    exact decodeEncByte1_direct _ hshort
  · have hbyte : (encExt16 len e).hdr[1] = byte1Of false 126#7 := by simp [encExt16]
    rw [h, hrow, hbyte]
    rfl
  · have hbyte : (encExt64 len e).hdr[1] = byte1Of false 127#7 := by simp [encExt64]
    rw [h, hrow, hbyte]
    rfl

/-- R171: building the same header again changes nothing. -/
theorem encLenForm_idem (len : Word64) (e : EncRegs) : encLenForm len (encLenForm len e) = encLenForm len e := by
  unfold encLenForm encDirect encExt16 encExt64
  split_ifs
  all_goals
    simp only [EncRegs.mk.injEq, and_true]
    refine Vector.ext fun i hi => ?_
    simp only [Vector.getElem_set]
    split_ifs <;> rfl

/-- R171, log 12: the row of the latched length does what ENCODE's acceptance does. -/
theorem exec_lenForm {s : State} {len : Word64} (hq : s.seq = .idle) (hl : s.latch.len = .of len) :
    exec (lenForm len) s = .next { s with enc := encLenForm len s.enc } := by
  obtain ⟨-, hrow, h⟩ | ⟨-, -, hrow, h⟩ | ⟨-, hrow, h⟩ := lenForm_cases len s.enc
  all_goals
    rw [hrow, h]
    exact (applyForm_eq hq hl).trans (by rw [if_pos hrow])

/-- Settles O20: the row is that of the latched length. -/
theorem encodeWritesALengthRow : Obligations.EncodeWritesALengthRow := by
  intro s t hexec hq ht
  rw [exec_encode hq] at hexec
  obtain rfl | ⟨fin, op, len, -, -, hlen, -, -, -, rfl⟩ := acceptEncode_next hexec
  · simp at ht
  · have hop : s.op.len = .of len := hlen
    refine ⟨lenForm len, decodeEncByte1_encLenForm len _, ?_, fun len' hlen' => ?_⟩
    · refine (exec_lenForm (s := { startEncode fin op len (encodeLatched s) with seq := .idle }) rfl hlen).trans ?_
      simp only [startEncode_enc_eq, encLenForm_idem]
    · obtain rfl : len = len' := congrArg Reg.val (hop.symm.trans hlen')
      exact ⟨fun h => lenForm_eq_direct_iff.2 ⟨h, rfl⟩,
        fun h h' => lenForm_eq_ext16_iff.2 ⟨by bv_omega, h'⟩,
        fun h => lenForm_eq_ext64_iff.2 (by bv_omega)⟩

/-! ### Commands -/

/-- Settles O17: R121's clearing after R101's latching. -/
theorem decodeAccepts : Obligations.DecodeAccepts := fun _ hq => exec_decode hq

/-- Settles O23: each reserved code is refused in IDLE. -/
theorem reservedCommandsRaise : Obligations.ReservedCommandsRaise := by
  intro s hq raised
  have refused (c : Cmd) : refuseCommand c s = .next (raised c) := by
    rw [refuseCommand, inPhase_pos _ hq]
    simp only [raise, latchOperands_seq, hq]
    rfl
  exact ⟨refused 0, refused 5, refused 6, refused 7⟩

/-! ### The row that a step runs -/

/-- R100: every command code is a row at the command port. -/
theorem decode_cmd : ∀ c : Cmd, decode .cmd (c.setWidth 8) = .ok (decodeCmd c) := by decide

/-- Settles O4: each reading port hands its row to `exec`. -/
theorem stepRunsDecodedRow : Obligations.StepRunsDecodedRow := by
  intro s u hmoves
  refine ⟨fun c i hq ho hi => ?_, fun b bs i hq hrx hi => ?_, fun b bs i hq hrx hi => ?_⟩
  · obtain rfl := Except.ok.inj ((decode_cmd c).symm.trans hi)
    exact (codecMoves_step hmoves).1.trans (codecTurn_idle_offer hq ho)
  · obtain rfl := Except.ok.inj hi
    exact step_of_byte hmoves (codecTurn_dB0 hq) hrx
  · obtain rfl := Except.ok.inj hi
    exact step_of_byte hmoves (codecTurn_dB1 hq) hrx

end Sys2Proof.Machine
end

section
/-! Errors, ABORT, reset, the latches and the two streams (60_exceptions.md R240 to R250; 70_reset_and_hazards.md R270;
10_state.md R25; 20_memory.md R75, R78). -/

namespace Sys2Proof.Machine

/-! ### Turns of the other agents -/

/-- R20: the step is the turn at the head of the agenda. -/
theorem step_turn {s : State} {turn : Turn} {rest : List Turn} (h : s.env.agenda = turn :: rest) :
    step s = takeTurn turn rest s := by
  simp only [step, nextTurn, h]

/-- Settles O5: each of the five turns is one action. -/
theorem otherAgentsTakeTheirTurn : Obligations.OtherAgentsTakeTheirTurn := by
  intro s rest
  refine ⟨fun c h hfree => ?_, fun bytes h hopen => ?_, fun bytes h hclosed => ?_, step_turn, fun ready => step_turn,
    fun h hfree hover => ?_⟩
  · rw [step_turn h, takeTurn, hfree]
    rfl
  · have happend : rxAppend bytes (withAgenda rest s) =
        { s with env := { s.env with rx := s.env.rx ++ bytes, agenda := rest } } :=
      if_neg (Bool.eq_false_iff.1 hopen)
    rw [step_turn h, takeTurn, happend]
  · have hsame : rxAppend bytes (withAgenda rest s) = withAgenda rest s := if_pos hclosed
    rw [step_turn h, takeTurn, hsame]
    rfl
  · have hwait : waitOver s = true := by
      obtain hdone | herr := hover
      · simp [waitOver, hfree, hdone]
      · simp [waitOver, hfree, herr]
    rw [step_turn h, takeTurn, if_pos hwait]
    rfl

/-- Settles O41: `abort`, written out. -/
theorem abortStep : Obligations.AbortStep := fun _ _ h => step_turn h

/-- R36: the block at its reset values, whatever the parameters and the surroundings. -/
theorem resetWith_atReset (cfg : Config) (env : Env) : AtReset (State.resetWith cfg env) where
  seq := rfl
  done := rfl
  err := rfl
  errCode := rfl
  errState := rfl
  lastCmd := rfl
  opFin := ⟨rfl, rfl⟩
  opOpcode := ⟨rfl, rfl⟩
  opMasked := ⟨rfl, rfl⟩
  opLen := ⟨rfl, rfl⟩
  opKey i := ⟨Vector.getElem_replicate i.isLt, Vector.getElem_replicate i.isLt⟩
  opNonceLen := ⟨rfl, rfl⟩
  rxFields := ⟨rfl, rfl, rfl, rfl, rfl, rfl⟩
  rxKey i := Vector.getElem_replicate i.isLt
  frameValid := rfl
  counters := ⟨rfl, rfl⟩
  accept := rfl
  buffers _ := ⟨rfl, rfl, rfl⟩

/-- Settles O42: reset keeps the parameters and the streams only. -/
theorem resetStep : Obligations.ResetStep :=
  fun _ _ h => ⟨_, step_turn h, resetWith_atReset _ _, rfl, rfl, rfl, rfl⟩

/-- Settles O43: the reset state is such a block. -/
theorem resetStateIsAtReset : Obligations.ResetStateIsAtReset := ⟨resetWith_atReset _ _, by decide⟩

/-! ### Entry into ERROR -/

/-- R240: the codes that each STATE can raise. -/
def raisedIn : List (Seq × ErrCode) :=
  [(.dB0, .reservedBitsSet), (.dB0, .invalidOpcode), (.dExt, .lengthOverflow), (.dB1, .truncatedStream),
    (.dExt, .truncatedStream), (.dKey, .truncatedStream), (.dPay, .truncatedStream), (.dChk, .invalidControlFrame),
    (.dB0, .connectionClosed), (.dB1, .payloadTooLarge), (.dExt, .payloadTooLarge), (.idle, .invalidInput),
    (.idle, .invalidFrame), (.idle, .operandRange), (.idle, .illegalCommand)]

/-- R246, R247: the CODEC has entered ERROR from `s`, with an error of the STATE of `s`, no byte emitted and no buffer or
valid frame changed. -/
structure Raised (s t : State) : Prop where
  err        : t.status.err = true
  done       : t.status.done = false
  errState   : t.status.errState = s.seq
  listed     : (s.seq, t.status.errCode) ∈ raisedIn
  tx         : t.env.tx = s.env.tx
  buf        : t.buf = s.buf
  frameValid : t.rx.frameValid = s.rx.frameValid

/-- R246: `raise` enters ERROR; `u` is the state in which it is applied, `s` the one the step began in. -/
theorem raise_raised {e : ErrCode} {s u : State} {q : Seq} (hs : s.seq = q) (hu : u.seq = q) (hlisted : (q, e) ∈ raisedIn)
    (htx : u.env.tx = s.env.tx) (hbuf : u.buf = s.buf) (hvalid : u.rx.frameValid = s.rx.frameValid) :
    Raised s (raise e u) :=
  ⟨rfl, rfl, hu.trans hs.symm, hs ▸ hlisted, htx, hbuf, hvalid⟩

/-- R76: a step that takes a byte enters ERROR at the end of the stream, or by the byte's meaning. -/
theorem rxTake_raised {s t : State} {e : ErrCode} {k : Byte → State → Result} {q : Seq} (hq : s.seq = q)
    (hbusy : q ≠ .error) (he : (q, e) ∈ raisedIn) (herr : t.seq = .error)
    (hk : ∀ b v, v.seq = q → k b v = .next t → Raised v t) (h : rxTake s (.next (raise e s)) k = .next t) :
    Raised s t := by
  obtain ⟨b, bs, -, hb⟩ | ⟨-, -, heos⟩ | ⟨-, -, hhold⟩ := rxTake_cases s (.next (raise e s)) k
  · obtain ⟨h₁, h₂, h₃, h₄, h₅, h₆, h₇⟩ := hk b (withRx bs s) hq (hb.symm.trans h)
    exact ⟨h₁, h₂, h₃, h₄, h₅, h₆, h₇⟩
  · obtain rfl := Host.Outcome.next.inj (heos.symm.trans h)
    exact raise_raised hq hq he rfl rfl rfl
  · obtain rfl := Host.Outcome.next.inj (hhold.symm.trans h)
    exact absurd (hq.symm.trans herr) hbusy

/-- R138: the length decoder raises PayloadTooLarge only. -/
theorem afterLength_raised {len : Word64} {s u t : State} {q : Seq} (hs : s.seq = q) (hu : u.seq = q)
    (hlisted : (q, .payloadTooLarge) ∈ raisedIn) (htx : u.env.tx = s.env.tx) (hbuf : u.buf = s.buf)
    (hvalid : u.rx.frameValid = s.rx.frameValid) (herr : t.seq = .error) (h : afterLength len u = .next t) :
    Raised s t := by
  obtain ⟨-, rfl⟩ | ⟨-, -, rfl⟩ | ⟨-, -, rfl⟩ := afterLength_next.1 h
  · exact raise_raised hs hu hlisted htx hbuf hvalid
  · cases herr
  · dsimp only at herr
    split_ifs at herr

/-- R101: acceptance raises in IDLE. -/
theorem accept_raised {c : Cmd} {s t : State} (hq : s.seq = .idle) (herr : t.seq = .error)
    (h : exec (decodeCmd c) s = .next t) : Raised s t := by
  obtain ⟨-, rfl⟩ | ⟨-, h⟩ | ⟨-, len, -, rfl⟩ | ⟨-, n, -, rfl⟩ | ⟨-, rfl⟩ := accept_next hq h
  · cases herr
  · obtain rfl | ⟨_, _, _, -, -, -, -, -, -, rfl⟩ := acceptEncode_next h
    · exact raise_raised hq hq (by decide) rfl rfl rfl
    · cases herr
  · split_ifs at herr ⊢
    exact raise_raised hq hq (by decide) rfl rfl rfl
  · dsimp only at herr ⊢
    split_ifs at herr ⊢
    · exact raise_raised hq hq (by decide) rfl rfl rfl
    · exact raise_raised hq hq (by decide) rfl rfl rfl
  · exact raise_raised hq hq (by decide) rfl rfl rfl

/-- R240, R246, R247: whenever the CODEC enters ERROR, it raises an error of its STATE. -/
theorem codecTurn_raised {s t : State} (hs : s.seq ≠ .error) (herr : t.seq = .error) (h : codecTurn s = .next t) :
    Raised s t := by
  cases hq : s.seq with
  | idle =>
    cases ho : s.env.offer with
    | none =>
      obtain rfl := Host.Outcome.next.inj ((codecTurn_hold_idle hq ho).symm.trans h)
      exact absurd herr hs
    | some c =>
      rw [codecTurn_idle_offer hq ho] at h
      obtain ⟨h₁, h₂, h₃, h₄, h₅, h₆, h₇⟩ := accept_raised (s := { s with env := { s.env with offer := none } }) hq herr h
      exact ⟨h₁, h₂, h₃, h₄, h₅, h₆, h₇⟩
  | dB0 =>
    rw [codecTurn_dB0 hq] at h
    refine rxTake_raised hq (by decide) (by decide) herr (fun b v hv h => ?_) h
    obtain ⟨-, rfl⟩ | ⟨-, -, rfl⟩ | ⟨-, -, rfl⟩ := execByte0_next hv h
    · exact raise_raised hv hv (by decide) rfl rfl rfl
    · exact raise_raised hv hv (by decide) rfl rfl rfl
    · cases herr
  | dB1 =>
    rw [codecTurn_dB1 hq] at h
    refine rxTake_raised hq (by decide) (by decide) herr (fun b v hv h => ?_) h
    obtain ⟨-, h⟩ | rfl | rfl := execByte1_next hv h
    · exact afterLength_raised (u := directTaken (b.getLsbD 7) (b.extractLsb' 0 7) v) hv hv (by decide) rfl rfl rfl herr h
    · cases herr
    · cases herr
  | dExt =>
    rw [codecTurn_dExt hq] at h
    refine rxTake_raised hq (by decide) (by decide) herr (fun b v hv h => ?_) h
    obtain ⟨-, rfl⟩ | ⟨-, -, -, rfl⟩ | ⟨-, -, h⟩ := extByte_next.1 h
    · exact absurd (hv.symm.trans herr) (by decide)
    · exact raise_raised (u := extTaken b v) hv hv (by decide) rfl rfl rfl
    · exact afterLength_raised (u := extTaken b v) hv hv (by decide) rfl rfl rfl herr h
  | dKey =>
    rw [codecTurn_dKey hq] at h
    refine rxTake_raised hq (by decide) (by decide) herr (fun b v hv h => ?_) h
    obtain ⟨_, ⟨-, rfl⟩ | ⟨-, _, -, rfl⟩⟩ := keyByteTaken_next.1 h
    · exact absurd (hv.symm.trans herr) (by decide)
    · dsimp only at herr
      split_ifs at herr
  | dPay =>
    rw [codecTurn_dPay hq] at h
    refine rxTake_raised hq (by decide) (by decide) herr (fun b v hv h => ?_) h
    obtain ⟨_, _, -, -, -, rfl⟩ := payByte_next.1 h
    dsimp only at herr
    split_ifs at herr
    exact absurd (hv.symm.trans herr) (by decide)
  | dChk =>
    rw [codecTurn_dChk hq] at h
    obtain rfl | rfl := stepChk_result h
    · exact raise_raised hq hq (by decide) rfl rfl rfl
    · cases herr
  | eHdr =>
    rw [codecTurn_eHdr hq] at h
    obtain ⟨-, rfl⟩ | ⟨-, b, -, ⟨-, rfl⟩ | ⟨-, _, -, rfl⟩⟩ := stepHdr_next.1 h
    · exact absurd herr hs
    · exact absurd herr hs
    · split_ifs at herr; cases herr
  | ePay =>
    rw [codecTurn_ePay hq] at h
    obtain ⟨-, rfl⟩ | ⟨-, -, b, _, -, -, rfl⟩ := stepEncPay_next.1 h
    · exact absurd herr hs
    · split_ifs at herr
      · cases herr
      · exact absurd herr hs
  | mRun =>
    rw [codecTurn_mRun hq] at h
    obtain ⟨_, _, -, -, rfl⟩ := stepMask_next.1 h
    cases herr
  | aRun =>
    rw [codecTurn_aRun hq] at h
    obtain ⟨_, _, -, -, rfl⟩ := stepAccept_next.1 h
    cases herr
  | error => exact absurd hq hs

/-- Settles O38: `Raised` says so. -/
theorem errorEntry : Obligations.ErrorEntry := by
  intro s u t hmoves hs hstep herr
  obtain ⟨h₁, h₂, h₃, h₄, -, -, -⟩ := codecTurn_raised hs herr ((codecMoves_step hmoves).1.symm.trans hstep)
  exact ⟨h₁, h₂, h₃, h₄⟩

/-- R171, R201: acceptance clears what the refused command would have given. -/
theorem accept_clears {c : Cmd} {s t : State} (hq : s.seq = .idle) (herr : t.seq = .error)
    (h : exec (decodeCmd c) s = .next t) :
    (c = 4 → t.acc.valid = false) ∧ (c = 2 → t.enc.txBytes = .of 0) := by
  obtain ⟨rfl, -⟩ | ⟨rfl, hencode⟩ | ⟨rfl, -⟩ | ⟨rfl, n, -, rfl⟩ | ⟨hc, -⟩ := accept_next hq h
  · exact ⟨by simp, by simp⟩
  · obtain rfl | ⟨_, _, _, -, -, -, -, -, -, rfl⟩ := acceptEncode_next hencode
    · exact ⟨by simp, fun _ => rfl⟩
    · cases herr
  · exact ⟨by simp, by simp⟩
  · refine ⟨fun _ => ?_, by simp⟩
    dsimp only
    split_ifs <;> rfl
  · obtain rfl | rfl | rfl | rfl := hc <;> exact ⟨by simp, by simp⟩

/-- Settles O39: a running DECODE has no valid frame, and acceptance clears the other two results before its checks. -/
theorem errorsLeaveNoResult : Obligations.ErrorsLeaveNoResult := by
  intro s u t hmoves hinv hs hstep herr
  have hturn : codecTurn u = .next t := (codecMoves_step hmoves).1.symm.trans hstep
  obtain ⟨-, -, -, hlisted, htx, hbuf, hvalid⟩ := codecTurn_raised hs herr hturn
  have cleared (c : Cmd) (hq : u.seq = .idle) (ho : u.env.offer = some c) :=
    accept_clears (s := { u with env := { u.env with offer := none } }) hq herr
      ((codecTurn_idle_offer hq ho).symm.trans hturn)
  refine ⟨htx, hbuf, fun hq => ?_, fun hq ho => (cleared 4 hq ho).1 rfl, fun hq ho => (cleared 2 hq ho).2 rfl⟩
  have hdecoding : u.seq.decoding = true := by
    have all : ∀ p ∈ raisedIn, p.1 ≠ .idle → p.1.decoding = true := by decide
    exact all _ hlisted hq
  rw [hvalid, frameValid_of_decoding hdecoding hinv.phase]

/-! ### The latches -/

/-- R25: the CODEC changes the latches only where it accepts a command. -/
theorem codecTurn_latch {s t : State} (h : codecTurn s = .next t) :
    t.latch = s.latch ∨ (s.seq = .idle ∧ t.latch = s.op ∧ s.env.offer.isSome = true ∧ t.env.offer = none) := by
  by_cases hq : s.seq = .idle
  · cases ho : s.env.offer with
    | none =>
      obtain rfl := Host.Outcome.next.inj ((codecTurn_hold_idle hq ho).symm.trans h)
      exact .inl rfl
    | some c =>
      rw [codecTurn_idle_offer hq ho] at h
      obtain ⟨hoffer, -, -, hlatch, -⟩ := accepted_of_exec h hq
      exact .inr ⟨hq, hlatch, rfl, hoffer⟩
  · exact .inl (codecTurn_portKept hq h).latch

/-- Settles O44: HOST, the RX source and the TX sink leave the latches alone, and so does ABORT. -/
theorem latchesChangeOnlyAtAcceptance : Obligations.LatchesChangeOnlyAtAcceptance := by
  intro s t h
  cases step_next h with
  | codec u agenda turn =>
    have hturn := codecTurn_latch turn
    obtain rfl | ⟨rest, -, rfl⟩ := agenda
    · exact hturn.imp_right .inl
    · exact hturn.imp_right .inl
  | reset rest agenda _ => exact .inr (.inr ⟨rest, agenda⟩)
  | offer c rest _ free result => exact .inl (result ▸ rfl)
  | write w rest _ result => exact .inl (hostWrite_blockKept result).latch
  | read r rest _ result => exact .inl (hostRead_blockKept result).latch
  | copyByte a b rest _ result => exact .inl (hostCopy_blockKept result).latch
  | wait rest _ _ result => exact .inl (result ▸ rfl)
  | abort rest _ result => exact .inl (result ▸ rfl)
  | rxAppend bytes rest _ result => exact .inl (result ▸ (rxAppend_blockKept bytes _).latch)
  | rxClose rest _ result => exact .inl (result ▸ rfl)
  | txSink ready rest _ result => exact .inl (result ▸ rfl)

/-! ### The TX stream -/

/-- R101: acceptance emits nothing. -/
theorem accept_tx {c : Cmd} {s t : State} (hq : s.seq = .idle) (h : exec (decodeCmd c) s = .next t) :
    t.env.tx = s.env.tx := by
  obtain ⟨-, rfl⟩ | ⟨-, h⟩ | ⟨-, len, -, rfl⟩ | ⟨-, n, -, rfl⟩ | ⟨-, rfl⟩ := accept_next hq h
  · rfl
  · obtain rfl | ⟨_, _, _, -, -, -, -, -, -, rfl⟩ := acceptEncode_next h <;> rfl
  · split_ifs <;> rfl
  · dsimp only
    split_ifs <;> rfl
  · rfl

/-- R78: the CODEC emits at most one byte, in E_HDR or E_PAY, while the sink is ready. -/
theorem codecTurn_tx {s t : State} (h : codecTurn s = .next t) :
    t.env.tx = s.env.tx ∨
      ∃ b, t.env.tx = s.env.tx ++ [b] ∧ s.env.txReady = true ∧ (s.seq = .eHdr ∨ s.seq = .ePay) := by
  by_cases hdecoding : s.seq.decoding = true
  · exact .inl (codecTurn_decodeFrame hdecoding h).tx
  cases hq : s.seq with
  | idle =>
    left
    cases ho : s.env.offer with
    | none =>
      obtain rfl := Host.Outcome.next.inj ((codecTurn_hold_idle hq ho).symm.trans h)
      rfl
    | some c =>
      rw [codecTurn_idle_offer hq ho] at h
      exact accept_tx (s := { s with env := { s.env with offer := none } }) hq h
  | dB0 | dB1 | dExt | dKey | dPay | dChk => exact absurd (by rw [hq]; rfl) hdecoding
  | eHdr =>
    rw [codecTurn_eHdr hq] at h
    obtain ⟨-, rfl⟩ | ⟨hready, b, -, ⟨-, rfl⟩ | ⟨-, _, -, rfl⟩⟩ := stepHdr_next.1 h
    · exact .inl rfl
    · exact .inr ⟨b, rfl, hready, .inl rfl⟩
    · exact .inr ⟨b, by split_ifs <;> rfl, hready, .inl rfl⟩
  | ePay =>
    rw [codecTurn_ePay hq] at h
    obtain ⟨-, rfl⟩ | ⟨hready, -, b, _, -, -, rfl⟩ := stepEncPay_next.1 h
    · exact .inl rfl
    · exact .inr ⟨b, by split_ifs <;> rfl, hready, .inr rfl⟩
  | mRun =>
    rw [codecTurn_mRun hq] at h
    obtain ⟨_, _, -, -, rfl⟩ := stepMask_next.1 h
    exact .inl rfl
  | aRun =>
    rw [codecTurn_aRun hq] at h
    obtain ⟨_, _, -, -, rfl⟩ := stepAccept_next.1 h
    exact .inl rfl
  | error =>
    obtain rfl := Host.Outcome.next.inj ((codecTurn_error hq).symm.trans h)
    exact .inl rfl

/-- Settles O46: only the CODEC emits. -/
theorem txStreamInOrder : Obligations.TxStreamInOrder := by
  intro s t h
  cases step_next h with
  | codec u agenda turn =>
    have hturn := codecTurn_tx turn
    obtain rfl | ⟨rest, -, rfl⟩ := agenda <;> exact hturn
  | offer c rest _ free result => exact .inl (result ▸ rfl)
  | write w rest _ result => exact .inl (hostWrite_blockKept result).tx
  | read r rest _ result => exact .inl (hostRead_blockKept result).tx
  | copyByte a b rest _ result => exact .inl (hostCopy_blockKept result).tx
  | wait rest _ _ result => exact .inl (result ▸ rfl)
  | abort rest _ result => exact .inl (result ▸ rfl)
  | reset rest _ result => exact .inl (result ▸ rfl)
  | rxAppend bytes rest _ result => exact .inl (result ▸ (rxAppend_blockKept bytes _).tx)
  | rxClose rest _ result => exact .inl (result ▸ rfl)
  | txSink ready rest _ result => exact .inl (result ▸ rfl)

/-! ### The RX stream -/

/-- R34: HOST's accesses leave the RX stream alone. -/
theorem hostWrite_env {w : HostWrite} {s t : State} (h : hostWrite w s = .next t) : t.env = s.env := by
  obtain ⟨-, ⟨_, rfl⟩ | ⟨_, _, -, rfl⟩ | ⟨_, _, -, rfl⟩⟩ := hostWrite_next h <;> rfl

/-- R75: what a step may have done to the RX stream. -/
structure RxStep (s t : State) : Prop where
  bytes : t.env.rx = s.env.rx ∨
    (∃ u b, codecMoves s u ∧ s.seq ∈ [.dB0, .dB1, .dExt, .dKey, .dPay] ∧ s.env.rx = b :: t.env.rx) ∨
    (∃ bytes rest, s.env.agenda = .rxAppend bytes :: rest ∧ s.env.rxClosed = false ∧ t.env.rx = s.env.rx ++ bytes)
  closed : t.env.rxClosed = s.env.rxClosed ∨ (t.env.rxClosed = true ∧ ∃ rest, s.env.agenda = .rxClose :: rest)

theorem RxStep.of_eq {s t : State} (hrx : t.env.rx = s.env.rx) (hclosed : t.env.rxClosed = s.env.rxClosed) :
    RxStep s t := ⟨.inl hrx, .inl hclosed⟩

theorem Seq.taking_iff (q : Seq) : q.taking = true ↔ q ∈ [.dB0, .dB1, .dExt, .dKey, .dPay] := by
  cases q <;> decide

/-- R75: a turn of the CODEC in a STATE that takes no byte leaves the RX stream alone. -/
theorem codecTurn_rx_kept {s t : State} (hq : s.seq.taking = false) (h : codecTurn s = .next t) :
    t.env.rx = s.env.rx ∧ t.env.rxClosed = s.env.rxClosed := by
  have hrx := codecTurn_withRx hq s.env.rx
  have hlater := codecTurn_later (s := s) (more := []) (closed := s.env.rxClosed) (ready := s.env.txReady)
    (agenda := s.env.agenda) (fun hq' => by simp [hq] at hq') (fun _ => rfl)
  have hself : later [] s.env.rxClosed s.env.txReady s.env.agenda s = s := by simp [later, surround]
  rw [show withRx s.env.rx s = s from rfl, h, mapNext_next, Host.Outcome.next.injEq] at hrx
  rw [hself, h, mapNext_next, Host.Outcome.next.injEq] at hlater
  exact ⟨by rw [hrx]; rfl, by rw [hlater]; rfl⟩

/-- R75, R76: a turn of the CODEC takes the front byte, or none. -/
theorem codecMoves_rxStep {s u t : State} (hmoves : codecMoves s u) (h : step s = .next t) : RxStep s t := by
  obtain ⟨hstep, hseq, hrx, hclosed, -⟩ := codecMoves_step hmoves
  rw [hstep] at h
  cases htaking : u.seq.taking with
  | false =>
    obtain ⟨htrx, htclosed⟩ := codecTurn_rx_kept htaking h
    exact .of_eq (htrx.trans hrx.symm) (htclosed.trans hclosed.symm)
  | true =>
    cases hu : u.env.rx with
    | nil =>
      obtain ⟨htrx, htclosed⟩ := codecTurn_empty htaking hu h
      exact .of_eq (htrx.trans hrx.symm) (htclosed.trans hclosed.symm)
    | cons b bs =>
      obtain ⟨htrx, htclosed, -⟩ := codecTurn_takes htaking hu h []
      refine ⟨.inr (.inl ⟨u, b, hmoves, hseq ▸ (Seq.taking_iff _).1 htaking, ?_⟩), .inl (htclosed.trans hclosed.symm)⟩
      rw [hrx, hu, htrx]

/-- R75: every step. -/
theorem step_rxStep {s t : State} (h : step s = .next t) : RxStep s t := by
  cases ha : s.env.agenda with
  | nil => exact codecMoves_rxStep (.inl ⟨ha, rfl⟩) h
  | cons turn rest =>
    have hturn : takeTurn turn rest s = .next t := (step_turn ha).symm.trans h
    cases turn with
    | codec => exact codecMoves_rxStep (.inr (.inl ⟨rest, ha, rfl⟩)) h
    | offer c =>
      cases ho : s.env.offer with
      | some d => exact codecMoves_rxStep (.inr (.inr (.inl ⟨c, d, rest, ha, ho, rfl⟩))) h
      | none =>
        simp only [takeTurn, ho, Host.Outcome.next.injEq] at hturn
        subst hturn
        exact .of_eq rfl rfl
    | wait =>
      cases hw : waitOver s with
      | false => exact codecMoves_rxStep (.inr (.inr (.inr ⟨rest, ha, hw, rfl⟩))) h
      | true =>
        simp only [takeTurn, hw, if_true, Host.Outcome.next.injEq] at hturn
        subst hturn
        exact .of_eq rfl rfl
    | write w =>
      have henv := hostWrite_env hturn
      exact .of_eq (by rw [henv]; rfl) (by rw [henv]; rfl)
    | read r =>
      obtain ⟨-, _, -, rfl⟩ := hostRead_next.1 hturn
      exact .of_eq rfl rfl
    | copyByte a b =>
      obtain ⟨_, -, -, hwrite⟩ := hostCopy_next hturn
      have henv := hostWrite_env hwrite
      exact .of_eq (by rw [henv]; rfl) (by rw [henv]; rfl)
    | abort =>
      obtain rfl := Host.Outcome.next.inj hturn
      exact .of_eq rfl rfl
    | reset =>
      obtain rfl := Host.Outcome.next.inj hturn
      exact .of_eq rfl rfl
    | txSink ready =>
      obtain rfl := Host.Outcome.next.inj hturn
      exact .of_eq rfl rfl
    | rxClose =>
      obtain rfl := Host.Outcome.next.inj hturn
      exact ⟨.inl rfl, .inr ⟨rfl, rest, ha⟩⟩
    | rxAppend bytes =>
      obtain rfl := Host.Outcome.next.inj hturn
      cases hc : s.env.rxClosed with
      | true =>
        have hsame : rxAppend bytes (withAgenda rest s) = withAgenda rest s := if_pos hc
        rw [hsame]
        exact .of_eq rfl rfl
      | false =>
        have happend : rxAppend bytes (withAgenda rest s) = withRx (s.env.rx ++ bytes) (withAgenda rest s) :=
          if_neg (Bool.eq_false_iff.1 hc)
        rw [happend]
        exact ⟨.inr (.inr ⟨bytes, rest, ha, hc, rfl⟩), .inl rfl⟩

/-- Settles O45: every step's effect on the stream, and that the CODEC's turn has nothing to do with the bytes it does
not take. -/
theorem rxStreamInOrder : Obligations.RxStreamInOrder := by
  refine ⟨fun s t h => ⟨(step_rxStep h).bytes, (step_rxStep h).closed⟩, fun s u t others hmoves h => ?_⟩
  obtain ⟨hstep, -, -, -, hother⟩ := codecMoves_step hmoves
  have hturn : codecTurn u = .next t := hstep.symm.trans h
  refine ⟨fun b bs hq hu => ?_, fun hq => ?_⟩
  · obtain ⟨htrx, -, htakes⟩ := codecTurn_takes ((Seq.taking_iff _).2 hq) hu hturn others
    exact ⟨htrx, (hother (b :: others)).trans htakes⟩
  · have htaking : u.seq.taking = false := Bool.eq_false_iff.2 fun hq' => hq ((Seq.taking_iff _).1 hq')
    refine (hother others).trans ((codecTurn_withRx htaking others).trans ?_)
    rw [hturn, mapNext_next]
    rfl

end Sys2Proof.Machine
end

section
/-! HOST's accesses (10_state.md R34, R35; 20_memory.md R70 to R74; 70_reset_and_hazards.md R276; 30_encoding.md R106):
which are hazards, which stop, what a read returns, and what a write and a COPY change. -/

namespace Sys2Proof.Machine

/-! ### One access, one step -/

/-- What HOST sees does not depend on the agenda. -/
theorem readValue_withAgenda (r : HostRead) (rest : List Turn) (s : State) :
    readValue r (withAgenda rest s) = readValue r s := by cases r <;> rfl

theorem step_read_hazard {s : State} {r : HostRead} {rest : List Turn} (h : s.env.agenda = .read r :: rest)
    (hz : readHazard r s.seq = true) : step s = .fault .bufferHazard :=
  (step_turn h).trans (if_pos hz)

theorem step_read {s : State} {r : HostRead} {rest : List Turn} (h : s.env.agenda = .read r :: rest)
    (hz : readHazard r s.seq = false) :
    step s = need (readValue r s) fun n => .next { s with env := { s.env with hostSaw := some n, agenda := rest } } := by
  rw [step_turn h, takeTurn, hostRead, readValue_withAgenda]
  exact if_neg (Bool.eq_false_iff.1 hz)

theorem step_read_ok {s : State} {r : HostRead} {rest : List Turn} {n : Nat} (h : s.env.agenda = .read r :: rest)
    (hz : readHazard r s.seq = false) (hv : readValue r s = .ok n) :
    step s = .next { s with env := { s.env with hostSaw := some n, agenda := rest } } := by
  rw [step_read h hz, hv, need_ok]

theorem step_read_error {s : State} {r : HostRead} {rest : List Turn} {f : Fault} (h : s.env.agenda = .read r :: rest)
    (hz : readHazard r s.seq = false) (hv : readValue r s = .error f) : step s = .fault f := by
  rw [step_read h hz, hv, need_error]

theorem step_write_hazard {s : State} {w : HostWrite} {rest : List Turn} (h : s.env.agenda = .write w :: rest)
    (hz : writeHazard w s.seq = true) : step s = .fault .bufferHazard :=
  (step_turn h).trans (if_pos hz)

theorem step_write {s : State} {w : HostWrite} {rest : List Turn} (h : s.env.agenda = .write w :: rest)
    (hz : writeHazard w s.seq = false) : step s = writeValue w (withAgenda rest s) :=
  (step_turn h).trans (if_neg (Bool.eq_false_iff.1 hz))

/-- R106: COPY reads first, as HOST reads RX_PBUF. -/
theorem step_copy {s : State} {a b : Nat} {rest : List Turn} (h : s.env.agenda = .copyByte a b :: rest)
    (hz : s.seq.decoding = false) :
    step s = need (readRxPbuf s a) fun n => hostWrite (.txPbuf b (BitVec.ofNat 8 n)) (withAgenda rest s) :=
  (step_turn h).trans (if_neg (Bool.eq_false_iff.1 hz))

theorem step_copy_hazard {s : State} {a b : Nat} {rest : List Turn} (h : s.env.agenda = .copyByte a b :: rest)
    (hz : s.seq.decoding = true) : step s = .fault .bufferHazard :=
  (step_turn h).trans (if_pos hz)

/-! ### The STATE values of a hazard -/

theorem Seq.decoding_iff (q : Seq) : q.decoding = true ↔ q ∈ [.dB0, .dB1, .dExt, .dKey, .dPay, .dChk] := by
  cases q <;> decide

theorem Seq.decoding_false_iff (q : Seq) : q.decoding = false ↔ q ∉ [.dB0, .dB1, .dExt, .dKey, .dPay, .dChk] := by
  rw [← Seq.decoding_iff, Bool.not_eq_true]

theorem Seq.encoding_iff (q : Seq) : q.encoding = true ↔ q ∈ [.eHdr, .ePay] := by
  cases q <;> decide

theorem Seq.encoding_false_iff (q : Seq) : q.encoding = false ↔ q ∉ [.eHdr, .ePay] := by
  rw [← Seq.encoding_iff, Bool.not_eq_true]

theorem writeHazard_txPbuf_iff (a : Nat) (v : Byte) (q : Seq) :
    writeHazard (.txPbuf a v) q = true ↔ q ∈ [.eHdr, .ePay, .mRun] := by
  show (q.encoding || decide (q = .mRun)) = true ↔ _
  cases q <;> decide

theorem writeHazard_txPbuf_false_iff (a : Nat) (v : Byte) (q : Seq) :
    writeHazard (.txPbuf a v) q = false ↔ q ∉ [.eHdr, .ePay, .mRun] := by
  rw [← writeHazard_txPbuf_iff a v, Bool.not_eq_true]

theorem writeHazard_nonceBuf_false {a : Nat} {v : Byte} {q : Seq} (h : q ≠ .aRun) :
    writeHazard (.nonceBuf a v) q = false := decide_eq_false h

/-- Where COPY is no hazard, DECODE is not running, and neither ENCODE nor MASK_APPLY. -/
theorem copy_free {q : Seq} (h : q ∈ [.idle, .aRun, .error]) : q.decoding = false ∧ q ∉ [.eHdr, .ePay, .mRun] := by
  revert h
  cases q <;> decide

/-! ### The value of a register or a byte -/

theorem readReg_known {n : Nat} {r : Reg (BitVec n)} (h : r.known = true) : readReg r = .ok r.val.toNat := by
  simp [readReg, Reg.read, h, Except.map]

theorem readBit_known {r : Reg Bool} (h : r.known = true) : readBit r = .ok r.val.toNat := by
  simp [readBit, Reg.read, h, Except.map]

theorem readReg_unknown {n : Nat} {r : Reg (BitVec n)} (h : r.known = false) : readReg r = .error .unwrittenRead := by
  simp [readReg, Reg.read, h, Except.map]

theorem readBit_unknown {r : Reg Bool} (h : r.known = false) : readBit r = .error .unwrittenRead := by
  simp [readBit, Reg.read, h, Except.map]

/-- R71: an index at or above the size is refused. -/
theorem Memory.load_outside {m : Memory} {cap a : Nat} (h : cap ≤ a) : m.load cap a = .error .bufferIndex :=
  if_neg (Nat.not_lt.2 h)

theorem Memory.store_outside {m : Memory} {cap a : Nat} (h : cap ≤ a) (v : Byte) :
    m.store cap a v = .error .bufferIndex :=
  if_neg (Nat.not_lt.2 h)

theorem readByte_ok {m : Memory} {cap a : Nat} {v : Byte} (ha : a < cap) (h : m.find a = some v) :
    (m.load cap a).map BitVec.toNat = .ok v.toNat := by
  rw [Memory.load_ok.2 ⟨ha, h⟩]
  rfl

theorem readByte_none {m : Memory} {cap a : Nat} (ha : a < cap) (h : m.find a = none) :
    (m.load cap a).map BitVec.toNat = .error .unwrittenRead := by
  rw [Memory.load_none ha h]
  rfl

theorem readByte_outside {m : Memory} {cap a : Nat} (h : cap ≤ a) :
    (m.load cap a).map BitVec.toNat = .error .bufferIndex := by
  rw [Memory.load_outside h]
  rfl

/-- R73: a byte of a valid frame's payload. -/
theorem readRxPbuf_ok {s : State} {a : Nat} {v : Byte} (ha : a < s.cfg.pbufBytes) (hvalid : s.rx.frameValid = true)
    (h : s.buf.rxPbuf.find a = some v) : readRxPbuf s a = .ok v.toNat := by
  rw [readRxPbuf, if_pos ha, readWhile, if_pos hvalid]
  exact readByte_ok ha h

theorem readRxPbuf_none {s : State} {a : Nat} (ha : a < s.cfg.pbufBytes)
    (h : s.rx.frameValid = false ∨ s.buf.rxPbuf.find a = none) : readRxPbuf s a = .error .unwrittenRead := by
  rw [readRxPbuf, if_pos ha, readWhile]
  cases hvalid : s.rx.frameValid with
  | false => rfl
  | true => exact readByte_none ha (h.resolve_left (by simp [hvalid]))

theorem readRxPbuf_outside {s : State} {a : Nat} (h : s.cfg.pbufBytes ≤ a) : readRxPbuf s a = .error .bufferIndex :=
  if_neg (Nat.not_lt.2 h)

/-! ### Hazards and status -/

/-- R21, R22: BUSY as HOST reads it. -/
theorem Seq.busy_toNat (q : Seq) : q.busy.toNat = if q = .idle ∨ q = .error then 0 else 1 := by
  cases q <;> decide

/-- R21: the codes of STATE, one by one. -/
theorem Seq.code_of_mem : ∀ p ∈ [(Seq.idle, 0), (.dB0, 1), (.dB1, 2), (.dExt, 3), (.dKey, 4), (.dPay, 5), (.dChk, 6),
    (.eHdr, 7), (.ePay, 8), (.mRun, 9), (.aRun, 10), (.error, 15)], p.1.code.toNat = p.2 := by decide

/-- R240: the error codes, one by one. -/
theorem ErrCode.code_of_mem : ∀ p ∈ [(ErrCode.none, 0), (.reservedBitsSet, 1), (.invalidOpcode, 2), (.lengthOverflow, 3),
    (.truncatedStream, 4), (.invalidControlFrame, 5), (.connectionClosed, 6), (.payloadTooLarge, 7), (.invalidInput, 8),
    (.invalidFrame, 9), (.operandRange, 10), (.illegalCommand, 11)], p.1.code.toNat = p.2 := by decide

/-- Settles O47: the hazards by the running command, and the accesses that are none. -/
theorem hazardsFault : Obligations.HazardsFault := by
  intro s rest
  refine ⟨fun hq r hr h => ?_, fun hq a v h => ?_, fun hq a h => ?_, fun hq h => ?_,
    fun hq => ⟨fun a v h => ?_, fun i h => ?_, fun i h => ?_, fun h => ?_⟩,
    fun a b h => ⟨fun hq => ?_, fun hq hvalid ha hsome => ?_⟩, fun r n hr h => ?_,
    fun q n hqn => ⟨fun hq h => ?_, fun hq h => ?_⟩, fun e n hen he h => ?_, fun w op hw h => ?_⟩
  · refine step_read_hazard h ?_
    have hdecoding := (Seq.decoding_iff s.seq).2 hq
    simp only [List.mem_cons, List.not_mem_nil, or_false] at hr
    obtain (rfl | rfl | rfl | rfl | rfl | rfl | rfl | rfl) | ⟨i, rfl⟩ | ⟨a, rfl⟩ := hr <;> exact hdecoding
  · exact step_write_hazard h ((writeHazard_txPbuf_iff a v s.seq).2 hq)
  · exact step_read_hazard h (decide_eq_true hq)
  · exact step_read_hazard h ((Seq.encoding_iff s.seq).2 hq)
  · exact step_write_hazard h (decide_eq_true hq)
  · exact step_read_hazard h (decide_eq_true hq)
  · exact step_read_hazard h (decide_eq_true hq)
  · exact step_read_hazard h (decide_eq_true hq)
  · exact step_copy_hazard h ((Seq.decoding_iff s.seq).2 hq)
  · obtain ⟨v, hv⟩ := Option.isSome_iff_exists.1 hsome
    have hidle : s.seq.decoding = false := by
      revert hq
      cases s.seq <;> decide
    rw [step_copy h hidle, readRxPbuf_ok ha hvalid hv, need_ok]
    exact if_pos ((writeHazard_txPbuf_iff _ _ s.seq).2 hq)
  · simp only [List.mem_cons, List.not_mem_nil, or_false, Prod.mk.injEq] at hr
    obtain ⟨rfl, rfl⟩ | ⟨rfl, rfl⟩ | ⟨rfl, rfl⟩ | ⟨rfl, rfl⟩ := hr
    · exact step_read_ok h rfl (congrArg Except.ok (Seq.busy_toNat s.seq))
    all_goals exact step_read_ok h rfl rfl
  · exact step_read_ok h rfl (congrArg Except.ok (hq ▸ Seq.code_of_mem _ hqn))
  · exact step_read_ok h rfl (congrArg Except.ok (hq ▸ Seq.code_of_mem _ hqn))
  · exact step_read_ok h rfl (congrArg Except.ok (he ▸ ErrCode.code_of_mem _ hen))
  · simp only [List.mem_cons, List.not_mem_nil, or_false, Prod.mk.injEq] at hw
    obtain (⟨rfl, rfl⟩ | ⟨rfl, rfl⟩ | ⟨rfl, rfl⟩ | ⟨rfl, rfl⟩) | ⟨v, rfl, rfl⟩ | ⟨v, rfl, rfl⟩ | ⟨v, rfl, rfl⟩ |
      ⟨i, v, rfl, rfl⟩ := hw <;> exact step_write h rfl

/-! ### What HOST may change -/

/-- R34: what a write that completes leaves of the buffers, byte by byte. -/
theorem hostWrite_bytes {w : HostWrite} {s t : State} (h : hostWrite w s = .next t) :
    t = { s with op := t.op, buf := t.buf } ∧ t.buf.rxPbuf = s.buf.rxPbuf ∧
      (∀ x, t.buf.txPbuf.find x = s.buf.txPbuf.find x ∨
        (t.op = s.op ∧ ∃ v, w = .txPbuf x v ∧ t.buf.txPbuf.find x = some v)) ∧
      (∀ x, t.buf.nonceBuf.find x = s.buf.nonceBuf.find x ∨
        (t.op = s.op ∧ ∃ v, w = .nonceBuf x v ∧ t.buf.nonceBuf.find x = some v)) := by
  have hwrite : writeValue w s = .next t := by
    unfold hostWrite at h
    split_ifs at h
    exact h
  cases w with
  | txPbuf a v =>
    obtain ⟨m, hm, ht⟩ := need_next.1 (show need _ _ = _ from hwrite)
    obtain ⟨-, rfl⟩ := Memory.store_ok.1 hm
    obtain rfl := Host.Outcome.next.inj ht
    refine ⟨rfl, rfl, fun x => ?_, fun _ => .inl rfl⟩
    by_cases hx : x = a
    · exact .inr ⟨rfl, v, by rw [hx], by rw [hx]; exact Memory.find_put_same _ _ _⟩
    · exact .inl (Memory.find_put_other _ v hx)
  | nonceBuf a v =>
    obtain ⟨m, hm, ht⟩ := need_next.1 (show need _ _ = _ from hwrite)
    obtain ⟨-, rfl⟩ := Memory.store_ok.1 hm
    obtain rfl := Host.Outcome.next.inj ht
    refine ⟨rfl, rfl, fun _ => .inl rfl, fun x => ?_⟩
    by_cases hx : x = a
    · exact .inr ⟨rfl, v, by rw [hx], by rw [hx]; exact Memory.find_put_same _ _ _⟩
    · exact .inl (Memory.find_put_other _ v hx)
  | opFin v | opOpcode v | opMasked v | opLen v | opKey i v | opNonceLen v =>
    obtain rfl := Host.Outcome.next.inj hwrite
    exact ⟨rfl, rfl, fun _ => .inl rfl, fun _ => .inl rfl⟩

/-- Settles O48: HOST's read records a value, and its write reaches one operand or one byte. -/
theorem hostTouchesOnlyItsOwn : Obligations.HostTouchesOnlyItsOwn := by
  intro s t rest hstep
  refine ⟨fun r h => ?_, fun w h => ?_⟩
  · obtain ⟨-, n, -, rfl⟩ := hostRead_next.1 ((step_turn h).symm.trans hstep)
    rfl
  · obtain ⟨hrest, hbytes⟩ := hostWrite_bytes ((step_turn h).symm.trans hstep)
    exact ⟨hrest, hbytes⟩

/-! ### Access to the buffers -/

theorem writeValue_txPbuf {s : State} {a : Nat} (ha : a < s.cfg.pbufBytes) (v : Byte) :
    writeValue (.txPbuf a v) s = .next { s with buf := { s.buf with txPbuf := s.buf.txPbuf.put a v } } := by
  simp only [writeValue, Memory.store, if_pos ha, need_ok]

theorem writeValue_txPbuf_outside {s : State} {a : Nat} (ha : s.cfg.pbufBytes ≤ a) (v : Byte) :
    writeValue (.txPbuf a v) s = .fault .bufferIndex := by
  simp only [writeValue, Memory.store_outside ha, need_error]

theorem writeValue_nonceBuf {s : State} {a : Nat} (ha : a < s.cfg.nonceMax) (v : Byte) :
    writeValue (.nonceBuf a v) s = .next { s with buf := { s.buf with nonceBuf := s.buf.nonceBuf.put a v } } := by
  simp only [writeValue, Memory.store, if_pos ha, need_ok]

theorem writeValue_nonceBuf_outside {s : State} {a : Nat} (ha : s.cfg.nonceMax ≤ a) (v : Byte) :
    writeValue (.nonceBuf a v) s = .fault .bufferIndex := by
  simp only [writeValue, Memory.store_outside ha, need_error]

/-- R71: a write inside TX_PBUF. -/
theorem step_write_txPbuf {s : State} {a : Nat} {v : Byte} {rest : List Turn}
    (h : s.env.agenda = .write (.txPbuf a v) :: rest) (hq : s.seq ∉ [.eHdr, .ePay, .mRun]) (ha : a < s.cfg.pbufBytes) :
    step s = .next { s with
      buf := { s.buf with txPbuf := s.buf.txPbuf.put a v }, env := { s.env with agenda := rest } } :=
  (step_write h ((writeHazard_txPbuf_false_iff a v s.seq).2 hq)).trans
    (writeValue_txPbuf (s := withAgenda rest s) ha v)

/-- R71: a write inside NONCE_BUF. -/
theorem step_write_nonceBuf {s : State} {a : Nat} {v : Byte} {rest : List Turn}
    (h : s.env.agenda = .write (.nonceBuf a v) :: rest) (hq : s.seq ≠ .aRun) (ha : a < s.cfg.nonceMax) :
    step s = .next { s with
      buf := { s.buf with nonceBuf := s.buf.nonceBuf.put a v }, env := { s.env with agenda := rest } } :=
  (step_write h (writeHazard_nonceBuf_false hq)).trans (writeValue_nonceBuf (s := withAgenda rest s) ha v)

/-- Two steps that both answer a next state. -/
theorem runSteps_two {s t u : State} (h : step s = .next t) (h' : step t = .next u) : runSteps 2 s = .next u := by
  simp only [runSteps, h, h']

/-- R74: a byte of GUID_ROM. -/
theorem readGuid_inside {a : Nat} {g : Nat} (h : (guidRom.map BitVec.toNat)[a]? = some g) : readGuid a = .ok g := by
  rw [List.getElem?_map, Option.map_eq_some_iff] at h
  obtain ⟨b, hb, rfl⟩ := h
  rw [readGuid, hb]

/-- R74: GUID_ROM has 36 bytes. -/
theorem readGuid_outside {a : Nat} (h : 36 ≤ a) : readGuid a = .error .bufferIndex := by
  have hnone : guidRom[a]? = none := List.getElem?_eq_none h
  rw [readGuid, hnone]

/-- Settles O49: inside a buffer a write is stored and read back, outside it every access is refused. -/
theorem hostBufferAccess : Obligations.HostBufferAccess := by
  intro s rest a v
  refine ⟨fun hq => ⟨fun ha h => ⟨_, step_write_txPbuf h hq ha, Memory.find_put _ _ _⟩, fun ha h => ?_, fun ha h => ?_⟩,
    fun hq => ⟨fun ha h => ⟨_, step_write_nonceBuf h hq ha, Memory.find_put _ _ _⟩, fun ha h => ?_, fun ha h => ?_⟩,
    fun ha => ⟨fun hq h => ?_, fun hq => ⟨fun h => ?_, fun b h => ?_⟩⟩, fun hq hvalid ha hsome b hb h => ?_,
    fun ha h => ?_, fun h => ⟨fun ha => ?_, fun g hg => ?_⟩⟩
  · have hmask : s.seq ≠ .mRun := fun hs => hq (by simp [hs])
    exact ⟨_, runSteps_two (step_write_txPbuf h hq ha) (step_read_ok rfl (decide_eq_false hmask)
      (readByte_ok ha (Memory.find_put_same _ _ _))), rfl⟩
  · rw [step_write h ((writeHazard_txPbuf_false_iff a v s.seq).2 hq)]
    exact writeValue_txPbuf_outside (s := withAgenda rest s) ha v
  · exact ⟨_, runSteps_two (step_write_nonceBuf h hq ha) (step_read_ok rfl rfl
      (readByte_ok ha (Memory.find_put_same _ _ _))), rfl⟩
  · rw [step_write h (writeHazard_nonceBuf_false hq)]
    exact writeValue_nonceBuf_outside (s := withAgenda rest s) ha v
  · exact step_read_error h (decide_eq_false hq) (readByte_outside ha)
  · exact step_read_error h ((Seq.decoding_false_iff s.seq).2 hq) (readRxPbuf_outside ha)
  · rw [step_copy h ((Seq.decoding_false_iff s.seq).2 hq), readRxPbuf_outside ha, need_error]
  · obtain ⟨x, hx⟩ := Option.isSome_iff_exists.1 hsome
    obtain ⟨hidle, hfree⟩ := copy_free hq
    have hclear := (writeHazard_txPbuf_false_iff b (BitVec.ofNat 8 x.toNat) s.seq).2 hfree
    rw [step_copy h hidle, readRxPbuf_ok ha hvalid hx, need_ok]
    exact (if_neg (Bool.eq_false_iff.1 hclear)).trans (writeValue_txPbuf_outside (s := withAgenda rest s) hb _)
  · exact step_read_error h rfl (readByte_outside ha)
  · exact step_read_error h rfl (readGuid_outside ha)
  · exact step_read_ok h rfl (readGuid_inside hg)

/-! ### Registers and results -/

/-- Settles O50: a register without a value, a byte without one, and results that are not valid. -/
theorem unwrittenReadsFault : Obligations.UnwrittenReadsFault := by
  intro s rest
  refine ⟨fun r known hr hk h => ?_, fun hq => ⟨fun r known hr hk h => ?_, fun a ha hnone => ⟨fun h => ?_, fun b h => ?_⟩⟩,
    fun hq hk h => ?_, fun hq hvalid => ⟨fun i h => ?_, fun i h => ?_⟩, fun hq a ha hnone h => ?_, fun a ha hnone h => ?_⟩
  · simp only [List.mem_cons, List.not_mem_nil, or_false, Prod.mk.injEq] at hr
    obtain ⟨rfl, rfl⟩ | ⟨rfl, rfl⟩ | ⟨rfl, rfl⟩ | ⟨rfl, rfl⟩ | ⟨rfl, rfl⟩ | ⟨rfl, rfl⟩ | ⟨rfl, rfl⟩ | ⟨rfl, rfl⟩ |
      ⟨rfl, rfl⟩ := hr
    · exact step_read_error h rfl (readBit_unknown hk)
    · exact step_read_error h rfl (readReg_unknown hk)
    · exact step_read_error h rfl (readBit_unknown hk)
    all_goals exact step_read_error h rfl (readReg_unknown hk)
  · have hclear := (Seq.decoding_false_iff s.seq).2 hq
    simp only [List.mem_cons, List.not_mem_nil, or_false, Prod.mk.injEq] at hr
    obtain ⟨rfl, rfl⟩ | ⟨rfl, rfl⟩ | ⟨rfl, rfl⟩ | ⟨rfl, rfl⟩ | ⟨rfl, rfl⟩ | ⟨rfl, rfl⟩ | ⟨rfl, rfl⟩ | ⟨rfl, rfl⟩ |
      ⟨rfl, rfl⟩ | ⟨rfl, rfl⟩ | ⟨rfl, rfl⟩ := hr
    · exact step_read_error h hclear (readBit_unknown hk)
    · exact step_read_error h hclear (readReg_unknown hk)
    · exact step_read_error h hclear (readReg_unknown hk)
    · exact step_read_error h hclear (readBit_unknown hk)
    all_goals exact step_read_error h hclear (readReg_unknown hk)
  · exact step_read_error h ((Seq.decoding_false_iff s.seq).2 hq) (readRxPbuf_none ha hnone)
  · rw [step_copy h ((Seq.decoding_false_iff s.seq).2 hq), readRxPbuf_none ha hnone, need_error]
  · exact step_read_error h ((Seq.encoding_false_iff s.seq).2 hq) (readReg_unknown hk)
  · exact step_read_error h (decide_eq_false hq) (if_neg (Bool.eq_false_iff.1 hvalid))
  · exact step_read_error h (decide_eq_false hq) (if_neg (Bool.eq_false_iff.1 hvalid))
  · exact step_read_error h (decide_eq_false hq) (readByte_none ha hnone)
  · exact step_read_error h rfl (readByte_none ha hnone)

/-- Settles O60: a register with a value, a byte with one, and results that are valid. -/
theorem hostReadsReturnValues : Obligations.HostReadsReturnValues := by
  intro s rest saw
  refine ⟨fun r known n hr hk h => ?_, fun i v hv h => ?_,
    fun hq => ⟨fun r known n hr hk h => ?_, fun i v hv h => ?_, fun a v ha hvalid hv h => ?_⟩, fun hq v hv h => ?_,
    fun hq => ⟨fun h => ?_, fun hvalid => ⟨fun i h => ?_, fun i h => ?_⟩⟩, fun hq a v ha hv h => ?_,
    fun a v ha hv h => ?_⟩
  · simp only [List.mem_cons, List.not_mem_nil, or_false, Prod.mk.injEq] at hr
    obtain ⟨rfl, rfl, rfl⟩ | ⟨rfl, rfl, rfl⟩ | ⟨rfl, rfl, rfl⟩ | ⟨rfl, rfl, rfl⟩ | ⟨rfl, rfl, rfl⟩ := hr
    · exact step_read_ok h rfl (readBit_known hk)
    · exact step_read_ok h rfl (readReg_known hk)
    · exact step_read_ok h rfl (readBit_known hk)
    all_goals exact step_read_ok h rfl (readReg_known hk)
  · exact step_read_ok h rfl (congrArg readReg hv)
  · have hclear := (Seq.decoding_false_iff s.seq).2 hq
    simp only [List.mem_cons, List.not_mem_nil, or_false, Prod.mk.injEq] at hr
    obtain ⟨rfl, rfl, rfl⟩ | ⟨rfl, rfl, rfl⟩ | ⟨rfl, rfl, rfl⟩ | ⟨rfl, rfl, rfl⟩ | ⟨rfl, rfl, rfl⟩ | ⟨rfl, rfl, rfl⟩ |
      ⟨rfl, rfl, rfl⟩ | ⟨rfl, rfl, rfl⟩ := hr
    · exact step_read_ok h hclear (readBit_known hk)
    · exact step_read_ok h hclear (readReg_known hk)
    · exact step_read_ok h hclear (readReg_known hk)
    · exact step_read_ok h hclear (readBit_known hk)
    · exact step_read_ok h hclear (readReg_known hk)
    · exact step_read_ok h hclear (readReg_known hk)
    · exact step_read_ok h hclear rfl
    · exact step_read_ok h hclear (readReg_known hk)
  · exact step_read_ok h ((Seq.decoding_false_iff s.seq).2 hq) (congrArg readReg hv)
  · exact step_read_ok h ((Seq.decoding_false_iff s.seq).2 hq) (readRxPbuf_ok ha hvalid hv)
  · exact step_read_ok h ((Seq.encoding_false_iff s.seq).2 hq) (congrArg readReg hv)
  · exact step_read_ok h (decide_eq_false hq) rfl
  · exact step_read_ok h (decide_eq_false hq) (if_pos hvalid)
  · exact step_read_ok h (decide_eq_false hq) (if_pos hvalid)
  · exact step_read_ok h (decide_eq_false hq) (readByte_ok ha hv)
  · exact step_read_ok h rfl (readByte_ok ha hv)

/-! ### COPY -/

/-- A run of `a` steps that answers a next state, continued. -/
theorem runSteps_add {a : Nat} {s t : State} (b : Nat) (h : runSteps a s = .next t) :
    runSteps (a + b) s = runSteps b t := by
  induction a generalizing s with
  | zero =>
    obtain rfl := Host.Outcome.next.inj h
    rw [Nat.zero_add]
  | succ a ih =>
    rw [Nat.add_right_comm, runSteps]
    rw [runSteps] at h
    cases hs : step s with
    | next u => rw [hs] at h; exact ih h
    | fault f => rw [hs] at h; cases h
    | refused r => rw [hs] at h; cases h

/-- R106: one byte copied. -/
theorem step_copy_ok {s : State} {a b : Nat} {v : Byte} {rest : List Turn} (h : s.env.agenda = .copyByte a b :: rest)
    (hq : s.seq ∈ [.idle, .aRun, .error]) (hvalid : s.rx.frameValid = true) (ha : a < s.cfg.pbufBytes)
    (hb : b < s.cfg.pbufBytes) (hv : s.buf.rxPbuf.find a = some v) :
    step s = .next { s with
      buf := { s.buf with txPbuf := s.buf.txPbuf.put b v }, env := { s.env with agenda := rest } } := by
  obtain ⟨hidle, hfree⟩ := copy_free hq
  have hclear := (writeHazard_txPbuf_false_iff b v s.seq).2 hfree
  rw [step_copy h hidle, readRxPbuf_ok ha hvalid hv, need_ok, BitVec.ofNat_toNat, BitVec.setWidth_eq]
  exact (if_neg (Bool.eq_false_iff.1 hclear)).trans (writeValue_txPbuf (s := withAgenda rest s) hb v)

/-- Settles O51: by induction on the length copied; the last turn copies the last byte. -/
theorem copyMovesDecodedPayload : Obligations.CopyMovesDecodedPayload := by
  intro s rest n hinv hq hvalid hn hagenda
  obtain ⟨-, -, -, -, -, -, -, ⟨-, hfits⟩, -, hpayload, -⟩ := hinv.frame hvalid
  induction n generalizing rest with
  | zero =>
    refine ⟨s.buf.txPbuf, ?_, fun a => rfl⟩
    have hagenda : s.env.agenda = rest := hagenda
    rw [← hagenda]
    rfl
  | succ n ih =>
    obtain ⟨m, hrun, hm⟩ := ih (.copyByte n n :: rest) (by omega) (by rw [hagenda, copyLine, List.append_assoc]; rfl)
    obtain ⟨v, hv⟩ := Option.isSome_iff_exists.1 (hpayload n (by omega))
    have hin : n < s.cfg.pbufBytes := by omega
    have hlast := step_copy_ok (s := { s with
      buf := { s.buf with txPbuf := m }, env := { s.env with agenda := .copyByte n n :: rest } }) (rest := rest) rfl hq
      hvalid hin hin hv
    refine ⟨m.put n v, ?_, fun a => ?_⟩
    · rw [runSteps_add 1 hrun, runSteps, hlast]
      rfl
    · rw [Memory.find_put]
      by_cases ha : a = n
      · rw [if_pos ha, if_pos (by omega), ha, hv]
      · rw [if_neg ha, hm]
        by_cases hlt : a < n
        · rw [if_pos hlt, if_pos (by omega)]
        · rw [if_neg hlt, if_neg (by omega)]

end Sys2Proof.Machine
end

section
/-! The atomic bodies of MASK_APPLY and ACCEPT_KEY (42_mask_cipher.md R192 to R195; 43_accept_key_sha1.md R200 to R203,
R216). -/

namespace Sys2Proof.Machine

/-! ### The mask function, twice -/

/-- Settles O30: byte by byte, the same key byte is combined twice. -/
theorem maskIsItsOwnInverse : Obligations.MaskIsItsOwnInverse := by
  intro p key i
  refine ⟨?_, ?_, rfl⟩
  · induction p generalizing i with
    | nil => rfl
    | cons x xs ih => simp only [maskBytes, ih, BitVec.xor_assoc, BitVec.xor_self, BitVec.xor_zero]
  · induction p generalizing i with
    | nil => rfl
    | cons x xs ih => simp only [maskBytes, ih, Vector.getElem_replicate]; simp

/-! ### The body of MASK_APPLY -/

/-- R193, R195: a mask loop that ends has found every byte of its range, and every key byte that one of them uses. -/
theorem maskBuffer_needs {key : Vector (Reg Byte) 4} {cap : Nat} {m m' : Memory} {i n : Nat}
    (h : maskBuffer key cap m i n = .ok m') {a : Nat} (ha : i ≤ a) (ha' : a < i + n) :
    m.find a ≠ none ∧ (keyByte key a).known = true := by
  induction n generalizing i m with
  | zero => omega
  | succ n ih =>
    simp only [maskBuffer] at h
    cases hp : m.load cap i with
    | error f => simp [hp] at h
    | ok p =>
      rw [hp] at h
      cases hk : (keyByte key i).read with
      | error f => simp [hk] at h
      | ok k =>
        simp only [hk] at h
        by_cases heq : a = i
        · subst heq
          rw [(Memory.load_ok.1 hp).2, Reg.read_ok.1 hk]
          simp
        · have hrest := ih h (by omega) (by omega)
          rwa [Memory.find_put_other _ _ heq] at hrest

/-- R195: what the mask loop leaves in each byte. -/
theorem maskBuffer_find {key : Vector (Reg Byte) 4} {cap : Nat} {m m' : Memory} {i n : Nat}
    (h : maskBuffer key cap m i n = .ok m') (a : Nat) :
    m'.find a = if i ≤ a ∧ a < i + n then (m.find a).map (· ^^^ (keyByte key a).val) else m.find a := by
  induction n generalizing i m with
  | zero =>
    obtain rfl := Except.ok.inj h
    rw [if_neg (by omega)]
  | succ n ih =>
    simp only [maskBuffer] at h
    cases hp : m.load cap i with
    | error f => simp [hp] at h
    | ok p =>
      rw [hp] at h
      cases hk : (keyByte key i).read with
      | error f => simp [hk] at h
      | ok k =>
        simp only [hk] at h
        rw [ih h]
        by_cases heq : a = i
        · subst heq
          rw [if_neg (by omega), if_pos (by omega), Memory.find_put_same, (Memory.load_ok.1 hp).2, Reg.read_ok.1 hk]
          rfl
        · rw [Memory.find_put_other _ _ heq]
          by_cases hin : i + 1 ≤ a ∧ a < i + 1 + n
          · rw [if_pos hin, if_pos (by omega)]
          · rw [if_neg hin, if_neg (by omega)]

/-- Settles O31: the loop runs over TX_PBUF[0..L_LEN), and ends unless it meets a byte without a value. -/
theorem maskApplyBody : Obligations.MaskApplyBody := by
  intro s u len hq hlen
  have hstep (hmoves : codecMoves s u) : step s = stepMask u := (codecMoves_step hmoves).1.trans (codecTurn_mRun hq)
  have hloop := fun (hfits : len.toNat ≤ u.cfg.pbufBytes) => maskBuffer_total (key := u.latch.key) (m := u.buf.txPbuf)
    (i := 0) (n := len.toNat) (cap := u.cfg.pbufBytes) (by omega)
  refine ⟨fun key hmoves hfits hkey hbytes => ?_, fun hmoves hfits hmissing => ?_, fun rest h => ⟨_, step_turn h, rfl, rfl⟩⟩
  · have hused (a : Nat) (ha : a < len.toNat) : keyByte u.latch.key a = .of key[a % 4] :=
      hkey ⟨a % 4, Nat.mod_lt a (by decide)⟩ ((Nat.mod_le a 4).trans_lt ha)
    obtain ⟨m, hm⟩ | ⟨-, a, -, ha, hnone⟩ := hloop hfits
    · refine ⟨m, (hstep hmoves).trans (stepMask_next.2 ⟨len, m, hlen, hm, rfl⟩), fun a x ha hx => ?_, fun a ha => ?_⟩
      · refine ⟨key[a % 4], Vector.getElem?_eq_getElem _, ?_⟩
        rw [maskBuffer_find hm, if_pos (by omega), hx, hused a ha]
        rfl
      · rw [maskBuffer_find hm, if_neg (by omega)]
    · rw [Nat.zero_add] at ha
      obtain hnone | hunknown := hnone
      · exact absurd (hbytes a ha) (by simp [hnone])
      · exact absurd hunknown (by simp [hused a ha])
  · obtain ⟨m, hm⟩ | ⟨hstop, -⟩ := hloop hfits
    · obtain ⟨a, ha, hnone⟩ | ⟨i, hi, hunknown⟩ := hmissing
      · exact absurd hnone (maskBuffer_needs hm (Nat.zero_le a) (by omega)).1
      · have hkey : keyByte u.latch.key i.val = u.latch.key[i] := by
          simp only [keyByte, Nat.mod_eq_of_lt i.isLt, Fin.getElem_fin]
        have hknown := (maskBuffer_needs hm (Nat.zero_le i.val) (by omega)).2
        rw [hkey, hunknown] at hknown
        cases hknown
    · rw [hstep hmoves, stepMask, hlen, Reg.read_of, need_ok, hstop, need_error]

/-! ### The body of ACCEPT_KEY -/

/-- Settles O32: the nonce bytes are read, hashed with the GUID, and encoded. -/
theorem acceptKeyBody : Obligations.AcceptKeyBody := by
  intro s u nonce hq
  have hstep (hmoves : codecMoves s u) : step s = stepAccept u := (codecMoves_step hmoves).1.trans (codecTurn_aRun hq)
  refine ⟨fun hmoves hlen hsmall hfits hbytes => ?_, fun n hmoves hlen hfits hmissing => ?_, fun hinv rest h => ?_⟩
  · have hload : u.buf.nonceBuf.loadBytes u.cfg.nonceMax 0 (BitVec.ofNat 64 nonce.length).toNat = .ok nonce := by
      rw [Memory.loadBytes_ok]
      refine ⟨by rw [BitVec.toNat_ofNat, Nat.mod_eq_of_lt hsmall], fun i hi => ?_⟩
      rw [Nat.zero_add]
      exact ⟨by omega, hbytes i _ (List.getElem?_eq_getElem hi)⟩
    exact ⟨_, (hstep hmoves).trans (stepAccept_next.2 ⟨_, nonce, hlen, hload, rfl⟩)⟩
  · rw [hstep hmoves, stepAccept, hlen, Reg.read_of, need_ok]
    obtain ⟨l, hl⟩ | ⟨hstop, -⟩ := Memory.loadBytes_total (m := u.buf.nonceBuf) (a := 0) (n := n.toNat)
      (cap := u.cfg.nonceMax) (by omega)
    · obtain ⟨a, ha, hnone⟩ := hmissing
      obtain ⟨hlength, hi⟩ := Memory.loadBytes_ok.1 hl
      obtain ⟨-, hfind⟩ := hi a (by omega)
      rw [Nat.zero_add, hnone] at hfind
      cases hfind
    · rw [hstop, need_error]
  · have hphase := hinv.phase
    simp only [phaseInv, hq] at hphase
    obtain ⟨-, -, -, hvalid⟩ := hphase
    refine ⟨_, step_turn h, ?_, rfl⟩
    show { u.acc with valid := false } = u.acc
    rw [← hvalid]

/-- R216: the nonce that the body hashes is fixed by L_NONCE_LEN and the bytes below it. -/
theorem loadBytes_unique {m m' : Memory} {cap cap' n : Nat} {l l' : List Byte} (h : m.loadBytes cap 0 n = .ok l)
    (h' : m'.loadBytes cap' 0 n = .ok l') (hm : ∀ a, a < n → m.find a = m'.find a) : l = l' := by
  obtain ⟨hlen, hi⟩ := Memory.loadBytes_ok.1 h
  obtain ⟨hlen', hi'⟩ := Memory.loadBytes_ok.1 h'
  refine List.ext_getElem (hlen.trans hlen'.symm) fun i h₁ h₂ => ?_
  have hfind := (hi i h₁).2
  rw [hm (0 + i) (by omega), (hi' i h₂).2] at hfind
  exact (Option.some.inj hfind).symm

/-- Settles O33: both steps write only what R201 and R216 name, and the results are a function of the nonce. -/
theorem acceptKeyPurity : Obligations.AcceptKeyPurity := by
  have body {s u t : State} (hmoves : codecMoves s u) (hq : u.seq = .aRun) (h : step s = .next t) :
      stepAccept u = .next t := ((codecMoves_step hmoves).1.trans (codecTurn_aRun hq)).symm.trans h
  refine ⟨fun s s' u u' t t' hmoves hmoves' hq hq' hlen hbytes h h' => ?_, fun s u t hmoves hq h => ?_,
    fun s t hq h => ?_⟩
  · obtain ⟨n, nonce, hn, hload, rfl⟩ := stepAccept_next.1 (body hmoves hq h)
    obtain ⟨n', nonce', hn', hload', rfl⟩ := stepAccept_next.1 (body hmoves' hq' h')
    obtain rfl : n = n' := congrArg Reg.val (hn.symm.trans (hlen.trans hn'))
    obtain rfl := loadBytes_unique hload hload' (by rw [hn] at hbytes; exact hbytes)
    exact ⟨rfl, rfl, rfl⟩
  · obtain ⟨_, _, -, -, rfl⟩ := stepAccept_next.1 (body hmoves hq h)
    rfl
  · have hknown : s.op.nonceLen.known = true := by
      cases hk : s.op.nonceLen.known with
      | true => rfl
      | false => cases ((exec_acceptKey_lacks hq).1 hk).symm.trans h
    rw [exec_acceptKey hq (Reg.eq_of_known hknown)] at h
    obtain rfl := Host.Outcome.next.inj h
    split_ifs <;> rfl

end Sys2Proof.Machine
end

section
/-! The characters of the accept key (43_accept_key_sha1.md R214, R215). -/

namespace Sys2Proof.Machine

/-- R214: the alphabet written out, and its entry at an index. -/
def base64Char (v : Byte) : Option Byte :=
  ([0x41, 0x42, 0x43, 0x44, 0x45, 0x46, 0x47, 0x48, 0x49, 0x4A, 0x4B, 0x4C, 0x4D, 0x4E, 0x4F, 0x50] ++
    [0x51, 0x52, 0x53, 0x54, 0x55, 0x56, 0x57, 0x58, 0x59, 0x5A, 0x61, 0x62, 0x63, 0x64, 0x65, 0x66] ++
    [0x67, 0x68, 0x69, 0x6A, 0x6B, 0x6C, 0x6D, 0x6E, 0x6F, 0x70, 0x71, 0x72, 0x73, 0x74, 0x75, 0x76] ++
    [0x77, 0x78, 0x79, 0x7A, 0x30, 0x31, 0x32, 0x33, 0x34, 0x35, 0x36, 0x37, 0x38, 0x39, 0x2B, 0x2F] : List Byte)[v.toNat]?

theorem base64Char_setWidth : ∀ v : BitVec 6, base64Char (v.setWidth 8) = some (alph v) := by decide

/-- R214's shifts and masks cut each character's 6 bits out of the bytes of its group. -/
theorem base64Char_char0 (a : Byte) : base64Char (a >>> 2) = some (char0 a) := by
  have bits : ∀ a : Byte, a >>> 2 = (a.extractLsb' 2 6).setWidth 8 := by decide
  rw [bits, base64Char_setWidth, char0]

theorem base64Char_char1 (a b : Byte) : base64Char (((a &&& 3) <<< 4) ||| (b >>> 4)) = some (char1 a b) := by
  have low : ∀ a : Byte, a &&& 3 = (a.extractLsb' 0 2).setWidth 8 := by decide
  have high : ∀ b : Byte, b >>> 4 = (b.extractLsb' 4 4).setWidth 8 := by decide
  rw [low, high, ← BitVec.setWidth_append_eq_shiftLeft_setWidth_or]
  exact base64Char_setWidth _

theorem base64Char_char2 (b c : Byte) : base64Char (((b &&& 15) <<< 2) ||| (c >>> 6)) = some (char2 b c) := by
  have low : ∀ b : Byte, b &&& 15 = (b.extractLsb' 0 4).setWidth 8 := by decide
  have high : ∀ c : Byte, c >>> 6 = (c.extractLsb' 6 2).setWidth 8 := by decide
  rw [low, high, ← BitVec.setWidth_append_eq_shiftLeft_setWidth_or]
  exact base64Char_setWidth _

theorem base64Char_char3 (c : Byte) : base64Char (c &&& 63) = some (char3 c) := by
  have bits : ∀ c : Byte, c &&& 63 = (c.extractLsb' 0 6).setWidth 8 := by decide
  rw [bits, base64Char_setWidth, char3]

/-- The characters of whole group `g`. -/
theorem base64_group (d : Vector Byte 20) {g : Nat} {a b c : Byte} (hg : g < 6) (ha : d[3 * g]? = some a)
    (hb : d[3 * g + 1]? = some b) (hc : d[3 * g + 2]? = some c) :
    (base64 d)[4 * g]? = some (char0 a) ∧ (base64 d)[4 * g + 1]? = some (char1 a b) ∧
      (base64 d)[4 * g + 2]? = some (char2 b c) ∧ (base64 d)[4 * g + 3]? = some (char3 c) := by
  obtain ⟨-, rfl⟩ := Vector.getElem?_eq_some_iff.mp ha
  obtain ⟨-, rfl⟩ := Vector.getElem?_eq_some_iff.mp hb
  obtain ⟨-, rfl⟩ := Vector.getElem?_eq_some_iff.mp hc
  interval_cases g <;> exact ⟨rfl, rfl, rfl, rfl⟩

/-- Settles O36: a whole group's characters by its three bytes; the last pair is a group whose third byte is 0. -/
theorem base64Characters : Obligations.Base64Characters := by
  intro d alphabet char
  refine ⟨fun g a b c hg ha hb hc => ?_, (base64Char_char0 d[18]).symm, (base64Char_char1 d[18] d[19]).symm, ?_, rfl⟩
  · rw [show char = base64Char from rfl, base64Char_char0, base64Char_char1, base64Char_char2, base64Char_char3]
    exact base64_group d hg ha hb hc
  · have padded := base64Char_char2 d[19] 0
    have no_third : ∀ x : Byte, x ||| ((0 : Byte) >>> 6) = x := by decide
    rw [no_third] at padded
    exact padded.symm

/-! ### The accept key determines the digest -/

theorem alph_ne_padChar : ∀ v : BitVec 6, alph v ≠ padChar := by decide

theorem alph_injective : ∀ v w : BitVec 6, alph v = alph w → v = w := by decide

/-- Two bit strings of one length are equal where their high and their low parts are. -/
theorem append_eq_append {m n : Nat} {x x' : BitVec m} {y y' : BitVec n} (h : x ++ y = x' ++ y') : x = x' ∧ y = y' := by
  refine ⟨?_, ?_⟩
  · simpa only [BitVec.extractLsb'_append_eq_left] using congrArg (BitVec.extractLsb' n m) h
  · simpa only [BitVec.extractLsb'_append_eq_right] using congrArg (BitVec.extractLsb' 0 n) h

/-- Four characters determine the three bytes of their group. -/
theorem group_injective {a b c a' b' c' : Byte} (h0 : char0 a = char0 a') (h1 : char1 a b = char1 a' b')
    (h2 : char2 b c = char2 b' c') (h3 : char3 c = char3 c') : a = a' ∧ b = b' ∧ c = c' := by
  have halves2 : ∀ x : Byte, (x.extractLsb' 2 6 ++ x.extractLsb' 0 2 : BitVec 8) = x := by decide
  have halves4 : ∀ x : Byte, (x.extractLsb' 4 4 ++ x.extractLsb' 0 4 : BitVec 8) = x := by decide
  have halves6 : ∀ x : Byte, (x.extractLsb' 6 2 ++ x.extractLsb' 0 6 : BitVec 8) = x := by decide
  have a6 := alph_injective _ _ h0
  obtain ⟨a2, b4⟩ := append_eq_append (alph_injective _ _ h1)
  obtain ⟨b4', c2⟩ := append_eq_append (alph_injective _ _ h2)
  have c6 := alph_injective _ _ h3
  exact ⟨by rw [← halves2 a, a6, a2, halves2], by rw [← halves4 b, b4, b4', halves4], by rw [← halves6 c, c2, c6, halves6]⟩

/-- The character at each index but the last comes from the alphabet. -/
theorem base64_mem_alph (d : Vector Byte 20) {i : Nat} (hi : i < 27) : ∃ v, (base64 d)[i] = alph v := by
  interval_cases i <;> exact ⟨_, rfl⟩

/-- Two digests with one accept key agree on the bytes of each whole group. -/
theorem group_eq_of_base64_eq {d e : Vector Byte 20} (same : base64 d = base64 e) {g : Nat} (hg : g < 6) :
    d[3 * g]? = e[3 * g]? ∧ d[3 * g + 1]? = e[3 * g + 1]? ∧ d[3 * g + 2]? = e[3 * g + 2]? := by
  have entry (x : Vector Byte 20) {i : Nat} (hi : i < 20) : x[i]? = some x[i] := Vector.getElem?_eq_getElem hi
  obtain ⟨d0, d1, d2, d3⟩ := base64_group d hg (entry d (by omega)) (entry d (by omega)) (entry d (by omega))
  obtain ⟨e0, e1, e2, e3⟩ := base64_group e hg (entry e (by omega)) (entry e (by omega)) (entry e (by omega))
  rw [same] at d0 d1 d2 d3
  obtain ⟨ha, hb, hc⟩ := group_injective (Option.some.inj (d0.symm.trans e0)) (Option.some.inj (d1.symm.trans e1))
    (Option.some.inj (d2.symm.trans e2)) (Option.some.inj (d3.symm.trans e3))
  rw [entry d (by omega), entry d (by omega), entry d (by omega), ha, hb, hc]
  exact ⟨(entry e _).symm, (entry e _).symm, (entry e _).symm⟩

/-- They agree on the last pair, which is a group whose third byte is 0. -/
theorem last_eq_of_base64_eq {d e : Vector Byte 20} (same : base64 d = base64 e) : d[18] = e[18] ∧ d[19] = e[19] := by
  have char_eq (i : Nat) (hi : i < 28) : (base64 d)[i] = (base64 e)[i] := by rw [same]
  obtain ⟨ha, hb, -⟩ := group_injective (c := 0) (c' := 0) (char_eq 24 (by decide)) (char_eq 25 (by decide))
    (char_eq 26 (by decide)) rfl
  exact ⟨ha, hb⟩

/-- Settles O37: '=' is not in the alphabet, and group by group the characters determine the bytes. -/
theorem acceptKeyShape : Obligations.AcceptKeyShape := by
  refine ⟨fun d => ⟨rfl, fun i hi => ?_⟩, fun d e same => ?_⟩
  · obtain ⟨v, hv⟩ := base64_mem_alph d hi
    exact fun h => alph_ne_padChar v (hv.symm.trans h)
  · apply Vector.ext
    intro i hi
    rcases Nat.lt_or_ge i 18 with whole | last
    · obtain ⟨ha, hb, hc⟩ := group_eq_of_base64_eq same (g := i / 3) (by omega)
      have place : 3 * (i / 3) = i ∨ 3 * (i / 3) + 1 = i ∨ 3 * (i / 3) + 2 = i := by omega
      have entry : d[i]? = e[i]? := by
        rcases place with h | h | h
        · rwa [h] at ha
        · rwa [h] at hb
        · rwa [h] at hc
      simpa [hi] using entry
    · obtain ⟨ha, hb⟩ := last_eq_of_base64_eq same
      have place : i = 18 ∨ i = 19 := by omega
      rcases place with rfl | rfl
      · exact ha
      · exact hb

end Sys2Proof.Machine
end

section
/-! SHA-1 padding, schedule and rounds (43_accept_key_sha1.md R205 to R213). -/

namespace Sys2Proof.Machine

/-! ### Padding -/

/-- R11: the length in bits as the spec's `BEbytes_8`. -/
theorem be64Bytes_eq_beBytes {n : Nat} (h : n < 2 ^ 64) : be64Bytes n = beBytes 8 n := by
  have value : (BitVec.ofNat 64 n).toNat = n := Nat.mod_eq_of_lt h
  rw [← value, beBytes_eight, value]
  rfl

theorem padZeros_fills (m : Nat) : (m + 1 + padZeros m) % 64 = 56 := by
  unfold padZeros
  omega

theorem padZeros_least {m j : Nat} (h : j < padZeros m) : (m + 1 + j) % 64 ≠ 56 := by
  unfold padZeros at h
  omega

theorem padMessage_length (m : List Byte) : (padMessage m).length = 64 * blockCount m.length := by
  simp only [padMessage, be64Bytes, List.length_append, List.length_map, List.length_replicate, List.length_cons,
    List.length_nil, padZeros, blockCount]
  omega

/-- Settles O34, by arithmetic on the message's length modulo 64. -/
theorem paddingFillsWholeBlocks : Obligations.PaddingFillsWholeBlocks := fun m hbits =>
  ⟨padZeros m.length, by rw [padMessage, be64Bytes_eq_beBytes hbits], padZeros_fills _, fun _ => padZeros_least,
    padMessage_length m⟩

/-! ### The schedule -/

theorem extendSchedule_length (n : Nat) (ws : List Word32) : (extendSchedule n ws).length = n + ws.length := by
  induction n generalizing ws with
  | zero => simp [extendSchedule]
  | succ n ih =>
    rw [extendSchedule, ih, List.length_cons]
    omega

/-- The words that stood there stay, behind the new ones. -/
theorem extendSchedule_old (n : Nat) (ws : List Word32) (j : Nat) :
    (extendSchedule n ws).getD (n + j) 0 = ws.getD j 0 := by
  induction n generalizing ws j with
  | zero => simp [extendSchedule]
  | succ n ih => rw [extendSchedule, show n + 1 + j = n + (j + 1) by omega, ih, List.getD_cons_succ]

/-- R206's recurrence, latest word first. -/
theorem extendSchedule_new {n j : Nat} (ws : List Word32) (h : j < n) :
    (extendSchedule n ws).getD j 0 =
      rotl 1 ((extendSchedule n ws).getD (j + 3) 0 ^^^ (extendSchedule n ws).getD (j + 8) 0 ^^^
        (extendSchedule n ws).getD (j + 14) 0 ^^^ (extendSchedule n ws).getD (j + 16) 0) := by
  induction n generalizing ws with
  | zero => omega
  | succ n ih =>
    rw [extendSchedule]
    rcases Nat.lt_or_eq_of_le (Nat.le_of_lt_succ h) with earlier | rfl
    · exact ih _ earlier
    · have old := extendSchedule_old j
        (rotl 1 (ws.getD 2 0 ^^^ ws.getD 7 0 ^^^ ws.getD 13 0 ^^^ ws.getD 15 0) :: ws)
      rw [old 3, old 8, old 14, old 16]
      exact old 0

theorem schedule_length {block : List Word32} (h : block.length = 16) : (schedule block).length = 80 := by
  rw [schedule, List.length_reverse, extendSchedule_length, List.length_reverse, h]

theorem schedule_getD {block : List Word32} (h : block.length = 16) {t : Nat} (ht : t < 80) :
    (schedule block).getD t 0 = (extendSchedule 64 block.reverse).getD (79 - t) 0 := by
  have len : (extendSchedule 64 block.reverse).length = 80 := by rw [← List.length_reverse]; exact schedule_length h
  rw [schedule, List.getD_eq_getElem?_getD, List.getElem?_reverse (by omega), len, ← List.getD_eq_getElem?_getD]

/-- R206: the schedule starts with the block's words. -/
theorem schedule_block {block : List Word32} (h : block.length = 16) {t : Nat} (ht : t < 16) :
    (schedule block).getD t 0 = block.getD t 0 := by
  rw [schedule_getD h (by omega), show 79 - t = 64 + (15 - t) by omega, extendSchedule_old,
    List.getD_eq_getElem?_getD, List.getElem?_reverse (by omega), h, show 16 - 1 - (15 - t) = t by omega,
    ← List.getD_eq_getElem?_getD]

/-- R206: the recurrence. -/
theorem schedule_recurrence {block : List Word32} (h : block.length = 16) {t : Nat} (low : 16 ≤ t) (high : t < 80) :
    (schedule block).getD t 0 = rotl 1 ((schedule block).getD (t - 3) 0 ^^^ (schedule block).getD (t - 8) 0 ^^^
      (schedule block).getD (t - 14) 0 ^^^ (schedule block).getD (t - 16) 0) := by
  rw [schedule_getD h high, schedule_getD h (by omega), schedule_getD h (by omega), schedule_getD h (by omega),
    schedule_getD h (by omega), extendSchedule_new _ (by omega), show 79 - (t - 3) = 79 - t + 3 by omega,
    show 79 - (t - 8) = 79 - t + 8 by omega, show 79 - (t - 14) = 79 - t + 14 by omega,
    show 79 - (t - 16) = 79 - t + 16 by omega]

theorem schedule_take {block : List Word32} (h : block.length = 16) : (schedule block).take 16 = block := by
  have len := schedule_length h
  apply List.ext_getElem (by simp [len, h])
  intro t ht ht'
  have entry := schedule_block h (h ▸ ht')
  rw [List.getD_eq_getElem _ _ (by omega), List.getD_eq_getElem _ _ ht'] at entry
  rw [List.getElem_take, entry]

/-! ### The blocks of words -/

/-- R11, R213: the byte of weight 256^k of a word, by division and by shift. -/
theorem beBytes_four (x : Word32) : beBytes 4 x.toNat = [wordByte x 3, wordByte x 2, wordByte x 1, wordByte x 0] := by
  have byte (k : Nat) : BitVec.ofNat 8 (x.toNat / 256 ^ k) = wordByte x k := by
    apply BitVec.eq_of_toNat_eq
    simp [wordByte, Nat.shiftRight_eq_div_pow, Nat.pow_mul]
  simp only [beBytes, byte]

/-- The value of a byte string with one byte more behind it. -/
theorem toNat_append_byte {n : Nat} (x : BitVec n) (b : Byte) : (x ++ b).toNat = x.toNat * 256 + b.toNat := by
  rw [BitVec.toNat_append, ← Nat.shiftLeft_add_eq_or_of_lt b.isLt, Nat.shiftLeft_eq]

/-- R11: a big-endian word gives its four bytes back. -/
theorem beBytes_be32 (a b c d : Byte) : beBytes 4 (be32 a b c d).toNat = [a, b, c, d] := by
  have value : (be32 a b c d).toNat = ((a.toNat * 256 + b.toNat) * 256 + c.toNat) * 256 + d.toNat := by
    simp only [be32, toNat_append_byte]
  have hb := b.isLt
  have hc := c.isLt
  have hd := d.isLt
  have byte {n : Nat} {x : Byte} (h : n % 256 = x.toNat) : BitVec.ofNat 8 n = x := by
    apply BitVec.eq_of_toNat_eq
    rwa [BitVec.toNat_ofNat]
  simp only [beBytes, value]
  rw [byte (x := a), byte (x := b), byte (x := c), byte (x := d)] <;> omega

theorem wordsOf_length (bytes : List Byte) : (wordsOf bytes).length = bytes.length / 4 := by
  induction bytes using wordsOf.induct with
  | case1 b0 b1 b2 b3 rest ih =>
    rw [wordsOf, List.length_cons, ih]
    simp only [List.length_cons]
    omega
  | case2 bytes short =>
    rw [wordsOf]
    · match bytes, short with
      | [], _ | [_], _ | [_, _], _ | [_, _, _], _ => simp
      | b0 :: b1 :: b2 :: b3 :: rest, short => exact (short b0 b1 b2 b3 rest rfl).elim
    · exact short

/-- R206: word `i` stands for the four bytes at 4 * i. -/
theorem wordsOf_bytes (bytes : List Byte) {i : Nat} (h : 4 * i + 4 ≤ bytes.length) :
    (bytes.drop (4 * i)).take 4 = beBytes 4 ((wordsOf bytes).getD i 0).toNat := by
  induction i generalizing bytes with
  | zero =>
    match bytes, h with
    | b0 :: b1 :: b2 :: b3 :: rest, _ => rw [wordsOf, List.getD_cons_zero, beBytes_be32]; rfl
  | succ i ih =>
    match bytes, h with
    | b0 :: b1 :: b2 :: b3 :: rest, h =>
      rw [wordsOf, List.getD_cons_succ, ← ih rest (by simp only [List.length_cons] at h; omega)]
      rfl

theorem blocksOf_length (n : Nat) (ws : List Word32) : (blocksOf n ws).length = n := by
  induction n generalizing ws with
  | zero => rfl
  | succ n ih => rw [blocksOf, List.length_cons, ih]

theorem blocksOf_getD {n j : Nat} (ws : List Word32) (h : j < n) :
    (blocksOf n ws).getD j [] = (ws.drop (16 * j)).take 16 := by
  induction n generalizing ws j with
  | zero => omega
  | succ n ih =>
    cases j with
    | zero => rfl
    | succ j => rw [blocksOf, List.getD_cons_succ, ih _ (by omega), List.drop_drop, Nat.mul_succ, Nat.add_comm 16]

/-! ### The rounds -/

theorem shaRounds_append (t : Nat) (ws : List Word32) (w : Word32) (v : Vars) :
    shaRounds t (ws ++ [w]) v = shaRound (t + ws.length) w (shaRounds t ws v) := by
  induction ws generalizing t v with
  | nil => rfl
  | cons x ws ih =>
    rw [List.cons_append, shaRounds, ih, shaRounds, List.length_cons, show t + 1 + ws.length = t + (ws.length + 1) by omega]

/-- R206: block `j` of a message's padded form. -/
def messageBlock (m : List Byte) (j : Nat) : List Word32 :=
  (blocksOf (blockCount m.length) (wordsOf (padMessage m))).getD j []

/-- R212: the hash words before block `j`. -/
def hashBefore (m : List Byte) : Nat → Hash
  | 0 => shaInit
  | j + 1 => (shaBlock (hashBefore m j) (messageBlock m j)).hash

/-- R206: word `t` of the schedule of block `j`. -/
def scheduleWord (m : List Byte) (j t : Nat) : Word32 := (schedule (messageBlock m j)).getD t 0

/-- R210, R211: the working variables of block `j` before round `t`. -/
def varsBefore (m : List Byte) (j t : Nat) : Vars :=
  shaRounds 0 ((schedule (messageBlock m j)).take t) (hashBefore m j).vars

section
variable {m : List Byte} {j : Nat} (hj : j < blockCount m.length)
include hj

theorem messageBlock_eq : messageBlock m j = ((wordsOf (padMessage m)).drop (16 * j)).take 16 := blocksOf_getD _ hj

theorem messageBlock_length : (messageBlock m j).length = 16 := by
  rw [messageBlock_eq hj, List.length_take, List.length_drop, wordsOf_length, padMessage_length]
  omega

/-- R206: the first 16 words of a block's schedule are its 64 bytes. -/
theorem scheduleWord_bytes {t : Nat} (ht : t < 16) :
    ((padMessage m).drop (64 * j + 4 * t)).take 4 = beBytes 4 (scheduleWord m j t).toNat := by
  have word : scheduleWord m j t = (wordsOf (padMessage m)).getD (16 * j + t) 0 := by
    rw [scheduleWord, schedule_block (messageBlock_length hj) ht, messageBlock_eq hj, List.getD_eq_getElem?_getD,
      List.getElem?_take_of_lt ht, List.getElem?_drop, ← List.getD_eq_getElem?_getD]
  rw [word, ← wordsOf_bytes _ (by rw [padMessage_length]; omega), show 4 * (16 * j + t) = 64 * j + 4 * t by omega]

theorem scheduleWord_recurrence {t : Nat} (low : 16 ≤ t) (high : t < 80) :
    scheduleWord m j t = (scheduleWord m j (t - 3) ^^^ scheduleWord m j (t - 8) ^^^ scheduleWord m j (t - 14) ^^^
      scheduleWord m j (t - 16)).rotateLeft 1 :=
  schedule_recurrence (messageBlock_length hj) low high

/-- R211: one round more. -/
theorem varsBefore_succ {t : Nat} (ht : t < 80) :
    varsBefore m j (t + 1) = shaRound t (scheduleWord m j t) (varsBefore m j t) := by
  have len := schedule_length (messageBlock_length hj)
  rw [varsBefore, List.take_succ_eq_append_getElem (by omega), shaRounds_append, List.length_take_of_le (by omega),
    Nat.zero_add, varsBefore, scheduleWord, List.getD_eq_getElem _ _ (by omega)]

/-- R212: the block's hash words are added to. -/
theorem hashBefore_succ : hashBefore m (j + 1) = (hashBefore m j).add (varsBefore m j 80) := by
  rw [varsBefore, List.take_of_length_le (schedule_length (messageBlock_length hj)).le]
  rfl

end

/-- R204: the run over the first `j` blocks leaves the hash words before block `j`. -/
theorem foldl_hash (m : List Byte) {j : Nat} (hj : j ≤ blockCount m.length) :
    (((blocksOf (blockCount m.length) (wordsOf (padMessage m))).take j).foldl (fun s b => shaBlock s.hash b)
      { ShaWork.atReset with hash := shaInit }).hash = hashBefore m j := by
  induction j with
  | zero => rfl
  | succ j ih =>
    have len := blocksOf_length (blockCount m.length) (wordsOf (padMessage m))
    rw [List.take_succ_eq_append_getElem (by omega), List.foldl_append, List.foldl_cons, List.foldl_nil,
      ih (by omega), hashBefore, messageBlock, List.getD_eq_getElem _ _ (by omega)]

theorem sha1Run_hash (m : List Byte) : (sha1Run m).hash = hashBefore m (blockCount m.length) := by
  rw [← foldl_hash m (Nat.le_refl _), List.take_of_length_le (blocksOf_length _ _).le]
  rfl

theorem digestOf_toList (h : Hash) : (digestOf h).toList =
    beBytes 4 h.h0.toNat ++ beBytes 4 h.h1.toNat ++ beBytes 4 h.h2.toNat ++ beBytes 4 h.h3.toNat ++
      beBytes 4 h.h4.toNat := by
  simp only [beBytes_four]
  rfl

/-- R208: the round function, with its second and fourth case in one. -/
theorem roundF_eq (t : Nat) (b c d : Word32) : roundF t b c d =
    if t < 20 then (b &&& c) ^^^ (~~~b &&& d)
    else if 40 ≤ t ∧ t < 60 then (b &&& c) ^^^ (b &&& d) ^^^ (c &&& d)
    else b ^^^ c ^^^ d := by
  grind [roundF]

/-- Settles O35: the schedule's recurrence, and `hashBefore`, `scheduleWord` and `varsBefore` for the words the rules name. -/
theorem sha1FollowsItsRules : Obligations.Sha1FollowsItsRules := by
  refine ⟨fun block hlen => ⟨schedule_length hlen, schedule_take hlen, fun t low high => ?_⟩, fun m _ => ?_⟩
  · have entry {i : Nat} (hi : i < 80) : (schedule block)[i]? = some ((schedule block).getD i 0) := by
      rw [List.getD_eq_getElem _ _ (by rw [schedule_length hlen]; exact hi), List.getElem?_eq_getElem]
    refine ⟨_, _, _, _, entry (by omega), entry (by omega), entry (by omega), entry (by omega), ?_⟩
    rw [entry high, schedule_recurrence hlen low high, rotl]
  · intro f k blocks
    refine ⟨hashBefore m, scheduleWord m, varsBefore m, rfl, fun j hj => ⟨fun t => scheduleWord_bytes hj,
      fun t => scheduleWord_recurrence hj, rfl, fun t ht => ?_, hashBefore_succ hj⟩, ?_⟩
    · rw [varsBefore_succ hj ht]
      simp only [shaRound, roundF_eq]
      rfl
    · rw [sha1, sha1Run_hash]
      exact digestOf_toList _

end Sys2Proof.Machine
end

section
/-! Runs of DECODE over the bytes it takes (20_memory.md R75 to R77): one turn a byte, each byte counted, whatever
stands behind it in the stream. -/

namespace Sys2Proof.Machine

/-! ### One byte -/

/-- R76: in `s` the CODEC takes the byte `b` from the front of the stream, and goes on to `t`. -/
def TakesByte (s : State) (b : Byte) (t : State) : Prop :=
  s.seq.taking = true ∧ ∀ others, codecTurn (withRx (b :: others) s) = .next (withRx others t)

theorem takesByte_of_blind {s t : State} {b : Byte} {e : State → Result} {k : Byte → State → Result}
    (htaking : s.seq.taking = true) (hk : ∀ b, Blind (k b))
    (hturn : ∀ v : State, v.seq = s.seq → codecTurn v = rxTake v (e v) k) (h : k b s = .next t) : TakesByte s b t := by
  refine ⟨htaking, fun others => ?_⟩
  rw [hturn (withRx (b :: others) s) rfl, rxTake_byte (s := withRx (b :: others) s) rfl]
  exact ((hk b).withRx others s).trans (by rw [h, mapNext_next])

theorem takesByte_dB0 {s t : State} {b : Byte} (hq : s.seq = .dB0) (h : exec (decodeByte0 b) s = .next t) :
    TakesByte s b t :=
  takesByte_of_blind (by rw [hq]; rfl) (fun b => exec_blind (decodeByte0 b)) (fun _ hv => codecTurn_dB0 (hv.trans hq)) h

theorem takesByte_dB1 {s t : State} {b : Byte} (hq : s.seq = .dB1) (h : exec (decodeByte1 b) s = .next t) :
    TakesByte s b t :=
  takesByte_of_blind (by rw [hq]; rfl) (fun b => exec_blind (decodeByte1 b)) (fun _ hv => codecTurn_dB1 (hv.trans hq)) h

theorem takesByte_dExt {s t : State} {b : Byte} (hq : s.seq = .dExt) (h : extByte b s = .next t) : TakesByte s b t :=
  takesByte_of_blind (by rw [hq]; rfl) extByte_blind (fun _ hv => codecTurn_dExt (hv.trans hq)) h

theorem takesByte_dKey {s t : State} {b : Byte} (hq : s.seq = .dKey) (h : keyByteTaken b s = .next t) : TakesByte s b t :=
  takesByte_of_blind (by rw [hq]; rfl) keyByteTaken_blind (fun _ hv => codecTurn_dKey (hv.trans hq)) h

theorem takesByte_dPay {s t : State} {b : Byte} (hq : s.seq = .dPay) (h : payByte b s = .next t) : TakesByte s b t :=
  takesByte_of_blind (by rw [hq]; rfl) payByte_blind (fun _ hv => codecTurn_dPay (hv.trans hq)) h

/-! ### The count -/

/-- R122: from `s` to `t` one more byte of the frame is counted, RX_FRAME_VALID stands still, and the CODEC is past the
frame boundary. -/
structure ByteCounted (s t : State) : Prop where
  frameBytes : t.rx.frameBytes = ⟨s.rx.frameBytes.val + 1#64, s.rx.frameBytes.known⟩
  frameValid : t.rx.frameValid = s.rx.frameValid
  inside     : t.seq ≠ .dB0

/-- R138, R139: the length decoder counts nothing. -/
theorem afterLength_byteCounted {len : Word64} {s v t : State} (hv : ByteCounted s v) (h : afterLength len v = .next t) :
    ByteCounted s t := by
  obtain ⟨-, rfl⟩ | ⟨-, -, rfl⟩ | ⟨-, -, rfl⟩ := afterLength_next.1 h
  · exact ⟨hv.frameBytes, hv.frameValid, nofun⟩
  · exact ⟨hv.frameBytes, hv.frameValid, nofun⟩
  · exact ⟨hv.frameBytes, hv.frameValid, by dsimp only; split_ifs <;> nofun⟩

theorem execByte0_byteCounted {b : Byte} {s t : State} (hq : s.seq = .dB0) (h : exec (decodeByte0 b) s = .next t) :
    ByteCounted s t := by
  obtain ⟨-, rfl⟩ | ⟨-, -, rfl⟩ | ⟨-, -, rfl⟩ := execByte0_next hq h <;> exact ⟨rfl, rfl, nofun⟩

theorem execByte1_byteCounted {b : Byte} {s t : State} (hq : s.seq = .dB1) (h : exec (decodeByte1 b) s = .next t) :
    ByteCounted s t := by
  obtain ⟨-, h⟩ | rfl | rfl := execByte1_next hq h
  · have taken : ByteCounted s (directTaken (b.getLsbD 7) (b.extractLsb' 0 7) s) :=
      ⟨rfl, rfl, fun h => nomatch hq.symm.trans h⟩
    exact afterLength_byteCounted taken h
  · exact ⟨rfl, rfl, nofun⟩
  · exact ⟨rfl, rfl, nofun⟩

theorem extByte_byteCounted {b : Byte} {s t : State} (hq : s.seq = .dExt) (h : extByte b s = .next t) :
    ByteCounted s t := by
  have taken : ByteCounted s (extTaken b s) := ⟨rfl, rfl, fun h => nomatch hq.symm.trans h⟩
  obtain ⟨-, rfl⟩ | ⟨-, -, -, rfl⟩ | ⟨-, -, h⟩ := extByte_next.1 h
  · exact taken
  · exact ⟨rfl, rfl, nofun⟩
  · exact afterLength_byteCounted taken h

theorem keyByteTaken_byteCounted {b : Byte} {s t : State} (hq : s.seq = .dKey) (h : keyByteTaken b s = .next t) :
    ByteCounted s t := by
  obtain ⟨_, ⟨-, rfl⟩ | ⟨-, _, -, rfl⟩⟩ := keyByteTaken_next.1 h
  · exact ⟨rfl, rfl, fun h => nomatch hq.symm.trans h⟩
  · exact ⟨rfl, rfl, by dsimp only; split_ifs <;> nofun⟩

theorem payByte_byteCounted {b : Byte} {s t : State} (hq : s.seq = .dPay) (h : payByte b s = .next t) :
    ByteCounted s t := by
  obtain ⟨_, _, -, -, -, rfl⟩ := payByte_next.1 h
  exact ⟨rfl, rfl, by dsimp only; rw [hq]; split_ifs <;> nofun⟩

/-- R122, R132, R136, R140, R141: every byte taken is counted. -/
theorem TakesByte.byteCounted {s t : State} {b : Byte} (h : TakesByte s b t) : ByteCounted s t := by
  obtain ⟨htaking, hturn⟩ := h
  have hturn := hturn []
  unfold codecTurn at hturn
  have same (hcounted : ByteCounted (withRx [] s) (withRx [] t)) : ByteCounted s t :=
    ⟨hcounted.frameBytes, hcounted.frameValid, hcounted.inside⟩
  have hseq : (withRx [b] s).seq = s.seq := rfl
  rw [hseq] at hturn
  cases hq : s.seq <;> simp only [hq, Seq.taking, Bool.false_eq_true] at hturn htaking
  case dB0 => exact same (execByte0_byteCounted hq hturn)
  case dB1 => exact same (execByte1_byteCounted hq hturn)
  case dExt => exact same (extByte_byteCounted hq hturn)
  case dKey => exact same (keyByteTaken_byteCounted hq hturn)
  case dPay => exact same (payByte_byteCounted hq hturn)

/-- A turn that the agenda does not give adds no turn to it. -/
theorem codecTurn_agenda {s t : State} (ha : s.env.agenda = []) (h : codecTurn s = .next t) : t.env.agenda = [] := by
  rcases codecTurn_settled (s := s) (.inl (by rw [ha]; rfl)) with hhold | ⟨-, hkeep⟩
  · obtain rfl := Host.Outcome.next.inj (hhold.symm.trans h)
    exact ha
  · exact (hkeep t h).1.trans ha

theorem TakesByte.agenda {s t : State} {b : Byte} (h : TakesByte s b t) (ha : s.env.agenda = []) : t.env.agenda = [] :=
  codecTurn_agenda (s := withRx [b] s) (t := withRx [] t) ha (h.2 [])

/-- R75: a byte taken does not close the stream. -/
theorem TakesByte.rxClosed {s t : State} {b : Byte} (h : TakesByte s b t) : t.env.rxClosed = s.env.rxClosed :=
  (codecTurn_takes (s := withRx [b] s) (t := withRx [] t) h.1 rfl (h.2 []) []).2.1

/-! ### Several bytes -/

/-- From `s` to `t` the CODEC takes the given bytes, one a turn. -/
inductive Takes : State → List Byte → State → Prop where
  | nil (s : State) : Takes s [] s
  | cons {s t u : State} {b : Byte} {bs : List Byte} (first : TakesByte s b t) (rest : Takes t bs u) : Takes s (b :: bs) u

theorem Takes.one {s t : State} {b : Byte} (h : TakesByte s b t) : Takes s [b] t := .cons h (.nil t)

theorem Takes.append {s t u : State} {bs cs : List Byte} (h : Takes s bs t) (h' : Takes t cs u) : Takes s (bs ++ cs) u := by
  induction h with
  | nil s => exact h'
  | cons first _ ih => exact .cons first (ih h')

/-- R76: the run over the bytes, whatever stands behind them. -/
theorem Takes.runSteps {s t : State} {bs : List Byte} (h : Takes s bs t) (ha : s.env.agenda = []) (others : List Byte) :
    runSteps bs.length (withRx (bs ++ others) s) = .next (withRx others t) := by
  induction h with
  | nil s => rfl
  | @cons s t u b bs first rest ih =>
    have hstep : step (withRx (b :: (bs ++ others)) s) = .next (withRx (bs ++ others) t) :=
      (step_codec (s := withRx (b :: (bs ++ others)) s) ha).trans (first.2 _)
    rw [List.length_cons, List.cons_append, Machine.runSteps, hstep]
    exact ih (first.agenda ha)

theorem Takes.agenda {s t : State} {bs : List Byte} (h : Takes s bs t) (ha : s.env.agenda = []) : t.env.agenda = [] := by
  induction h with
  | nil s => exact ha
  | cons first _ ih => exact ih (first.agenda ha)

theorem Takes.rxClosed {s t : State} {bs : List Byte} (h : Takes s bs t) : t.env.rxClosed = s.env.rxClosed := by
  induction h with
  | nil s => rfl
  | cons first _ ih => exact ih.trans first.rxClosed

/-- Every byte of a run is counted, and RX_FRAME_VALID stands still. -/
theorem Takes.counted {s t : State} {bs : List Byte} (h : Takes s bs t) :
    t.rx.frameBytes = ⟨s.rx.frameBytes.val + BitVec.ofNat 64 bs.length, s.rx.frameBytes.known⟩ ∧
      t.rx.frameValid = s.rx.frameValid := by
  induction h with
  | nil s => exact ⟨by simp, rfl⟩
  | cons first _ ih =>
    obtain ⟨hbytes, hvalid⟩ := ih
    obtain ⟨hbyte, hkept⟩ := first.byteCounted
    refine ⟨?_, hvalid.trans hkept⟩
    rw [hbytes, hbyte, List.length_cons, BitVec.add_assoc, Nat.add_comm, BitVec.ofNat_add]

/-- Before the last byte of a run, the CODEC waits for a byte; past the first one, inside the frame. -/
theorem Takes.cut {s t : State} {bs : List Byte} (h : Takes s bs t) {n : Nat} (hn : n < bs.length) :
    ∃ u, Takes s (bs.take n) u ∧ u.seq.taking = true ∧ (0 < n → u.seq ≠ .dB0) := by
  induction h generalizing n with
  | nil s => exact absurd hn (Nat.not_lt_zero n)
  | @cons s t u b bs first rest ih =>
    cases n with
    | zero => exact ⟨s, .nil s, first.1, fun h => absurd h (Nat.lt_irrefl 0)⟩
    | succ n =>
      obtain ⟨v, htakes, htaking, hinside⟩ := ih (Nat.lt_of_succ_lt_succ hn)
      refine ⟨v, .cons first htakes, htaking, fun _ => ?_⟩
      cases n with
      | zero =>
        cases htakes
        exact first.byteCounted.inside
      | succ n => exact hinside n.succ_pos

end Sys2Proof.Machine
end

section
/-! DECODE over the bytes of a whole frame (30_encoding.md R90 to R97, 40_decode.md R120 to R141): header byte 0, header
byte 1 with the extended length, the key and the payload, up to the check in D_CHK. -/

namespace Sys2Proof.Machine

/-! ### States of a running DECODE -/

/-- `s` with DECODE at STATE `q`, its fields, its working registers and RX_PBUF as given. -/
def decodeState (s : State) (q : Seq) (rx : RxRegs) (dec : DecWork) (m : Memory) : State :=
  { s with seq := q, rx := rx, dec := dec, buf := { s.buf with rxPbuf := m } }

/-- R121: the working registers when a frame begins. -/
def startWork : DecWork := { extNeed := 0#4, extCnt := 0#4, extAcc := 0#64, keyCnt := 0#3, payCnt := 0#64 }

theorem startDecode_eq (s : State) :
    startDecode s = decodeState s .dB0 (startDecode s).rx startWork s.buf.rxPbuf := rfl

/-- R27: FRAME_BYTES with one more byte counted. -/
def oneMore (count : Reg Word64) : Reg Word64 := ⟨count.val + 1#64, count.known⟩

/-- R138 to R140: where the CODEC goes once header and key are taken. -/
def dataSeq (len : Word64) : Seq := if 0#64 < len then .dPay else .dChk

/-- R139: where the CODEC goes once the length is known. -/
def lengthSeq (masked : Bool) (len : Word64) : Seq := if masked then .dKey else dataSeq len

section
variable {s : State} {rx : RxRegs} {dec : DecWork} {m : Memory}

theorem afterLength_decodeState {q : Seq} {masked : Bool} {len : Word64} (hm : rx.masked = .of masked)
    (hkey : dec.keyCnt = 0#3) (hcap : len.toNat ≤ s.cfg.pbufBytes) :
    afterLength len (decodeState s q rx dec m) =
      .next (decodeState s (lengthSeq masked len) { rx with len := .of len } dec m) := by
  have work : { dec with keyCnt := 0#3 } = dec := by rw [← hkey]
  rw [afterLength_next]
  cases masked with
  | true => exact .inr (.inl ⟨hcap, hm, by simp only [decodeState, work, lengthSeq, if_true]⟩)
  | false => exact .inr (.inr ⟨hcap, hm, rfl⟩)

/-! ### Header byte 0 -/

/-- R126 to R131: an opcode row's byte is taken, and its three fields stand. -/
theorem takes_byte0 (fin : Bool) {op : BitVec 4} (hop : isReservedOp op = false) :
    TakesByte (decodeState s .dB0 rx dec m) (byte0Of fin 0 op)
      (decodeState s .dB1
        { rx with fin := .of fin, rsv := .of 0, opcode := .of op, frameBytes := oneMore rx.frameBytes } dec m) := by
  have fields : ∀ (fin : Bool) (op : BitVec 4), (byte0Of fin 0 op).getLsbD 7 = fin ∧
      (byte0Of fin 0 op).extractLsb' 4 3 = 0 ∧ (byte0Of fin 0 op).extractLsb' 0 4 = op := by decide
  obtain ⟨hfin, hrsv, hopcode⟩ := fields fin op
  refine takesByte_dB0 rfl ?_
  rw [exec_decodeByte0, inPhase_pos (q := .dB0) _ rfl, hfin, hrsv, hopcode]
  exact headerByte0_accepts fin hop _

/-! ### Header byte 1 and the length -/

theorem byte1Of_fields : ∀ (mask : Bool) (len7 : BitVec 7),
    (byte1Of mask len7).getLsbD 7 = mask ∧ (byte1Of mask len7).extractLsb' 0 7 = len7 := by decide

/-- R133, DIRECT: the length is in header byte 1. -/
theorem takes_byte1_direct (mask : Bool) {n : Nat} (hn : n ≤ 125) (hcap : n ≤ s.cfg.pbufBytes) :
    TakesByte (decodeState s .dB1 rx startWork m) (byte1Of mask (BitVec.ofNat 7 n))
      (decodeState s (lengthSeq mask (BitVec.ofNat 64 n))
        { rx with
          masked := .of mask, len7 := .of (BitVec.ofNat 7 n), len := .of (BitVec.ofNat 64 n)
          frameBytes := oneMore rx.frameBytes }
        startWork m) := by
  obtain ⟨hmask, hlen7⟩ := byte1Of_fields mask (BitVec.ofNat 7 n)
  have hdirect : BitVec.ofNat 7 n ≤ 125#7 := by
    rw [BitVec.le_def, BitVec.toNat_ofNat, BitVec.toNat_ofNat]
    omega
  have hword : (BitVec.ofNat 7 n).setWidth 64 = BitVec.ofNat 64 n := by
    apply BitVec.eq_of_toNat_eq
    rw [BitVec.toNat_setWidth, BitVec.toNat_ofNat, BitVec.toNat_ofNat]
    omega
  have hvalue : (BitVec.ofNat 64 n).toNat = n := Nat.mod_eq_of_lt (by omega)
  refine takesByte_dB1 rfl ?_
  rw [exec_decodeByte1, hmask, hlen7, if_pos hdirect, execLenDirect,
    inPhase_pos (q := .dB1) _ rfl, hword]
  exact afterLength_decodeState (q := .dB1) rfl rfl (hvalue.symm ▸ hcap)

/-- R133 to R135: the working registers once `cnt` of the `n` bytes of an extended length are taken. -/
def extWork (n cnt acc : Nat) : DecWork :=
  { extNeed := BitVec.ofNat 4 n, extCnt := BitVec.ofNat 4 cnt, extAcc := BitVec.ofNat 64 acc
    keyCnt := 0#3, payCnt := 0#64 }

/-- R133, EXT16: two bytes of length follow. -/
theorem takes_byte1_ext16 (mask : Bool) :
    TakesByte (decodeState s .dB1 rx startWork m) (byte1Of mask 126#7)
      (decodeState s .dExt { rx with masked := .of mask, len7 := .of 126#7, frameBytes := oneMore rx.frameBytes }
        (extWork 2 0 0) m) := by
  obtain ⟨hmask, hlen7⟩ := byte1Of_fields mask 126#7
  refine takesByte_dB1 rfl ?_
  rw [exec_decodeByte1, hmask, hlen7, if_neg (by decide), if_pos rfl]
  exact inPhase_pos (q := .dB1) _ rfl

/-- R133, EXT64: eight bytes of length follow. -/
theorem takes_byte1_ext64 (mask : Bool) :
    TakesByte (decodeState s .dB1 rx startWork m) (byte1Of mask 127#7)
      (decodeState s .dExt { rx with masked := .of mask, len7 := .of 127#7, frameBytes := oneMore rx.frameBytes }
        (extWork 8 0 0) m) := by
  obtain ⟨hmask, hlen7⟩ := byte1Of_fields mask 127#7
  refine takesByte_dB1 rfl ?_
  rw [exec_decodeByte1, hmask, hlen7, if_neg (by decide), if_neg (by decide)]
  exact inPhase_pos (q := .dB1) _ rfl

/-- R136: a length's bytes, the greatest weight first, accumulate to the length. -/
theorem accumulate_byte (y : Nat) :
    (BitVec.ofNat 64 (y / 256) <<< 8) ||| (BitVec.ofNat 8 y).setWidth 64 = BitVec.ofNat 64 y := by
  have high (i : Nat) : (y / 256).testBit i = y.testBit (i + 8) := Nat.testBit_div_two_pow (n := 8) y i
  apply BitVec.eq_of_getLsbD_eq
  intro i hi
  simp only [BitVec.getLsbD_or, BitVec.getLsbD_shiftLeft, BitVec.getLsbD_setWidth, BitVec.getLsbD_ofNat, high]
  by_cases hlow : i < 8
  · simp [hi, hlow]
  · simp [hi, hlow, Nat.lt_of_le_of_lt (Nat.sub_le i 8) hi, Nat.sub_add_cancel (Nat.not_lt.1 hlow)]

/-- R136: one byte more of the length `v`, `k` bytes before its end. -/
theorem extTaken_extWork (n cnt v k : Nat) :
    extTaken (BitVec.ofNat 8 (v / 256 ^ k)) (decodeState s .dExt rx (extWork n cnt (v / 256 ^ (k + 1))) m) =
      decodeState s .dExt { rx with frameBytes := oneMore rx.frameBytes } (extWork n (cnt + 1) (v / 256 ^ k)) m := by
  have acc := accumulate_byte (v / 256 ^ k)
  rw [Nat.div_div_eq_div_mul, ← Nat.pow_succ] at acc
  have count : BitVec.ofNat 4 cnt + 1#4 = BitVec.ofNat 4 (cnt + 1) := (BitVec.ofNat_add cnt 1).symm
  simp only [extTaken, decodeState, extWork, acc, count]
  rfl

theorem extCnt_eq_iff {n cnt : Nat} (hcnt : cnt < n) (hn : n ≤ 8) :
    BitVec.ofNat 4 cnt + 1#4 = BitVec.ofNat 4 n ↔ cnt + 1 = n := by
  rw [← BitVec.ofNat_add, ← BitVec.toNat_inj, BitVec.toNat_ofNat, BitVec.toNat_ofNat]
  omega

/-- R134 to R136: the bytes of an extended length that are still to come lead to the length. -/
theorem takes_extBytes {n v : Nat} (hn : n = 2 ∨ n = 8) (hv : v < 2 ^ 63) (hcap : v ≤ s.cfg.pbufBytes) {masked : Bool}
    {k : Nat} (hk : k < n) (hm : rx.masked = .of masked) :
    ∃ count acc, Takes (decodeState s .dExt rx (extWork n (n - (k + 1)) (v / 256 ^ (k + 1))) m) (beBytes (k + 1) v)
      (decodeState s (lengthSeq masked (BitVec.ofNat 64 v)) { rx with len := .of (BitVec.ofNat 64 v), frameBytes := count }
        (extWork n n acc) m) := by
  have hvalue : (BitVec.ofNat 64 v).toNat = v := Nat.mod_eq_of_lt (by omega)
  induction k generalizing rx with
  | zero =>
    refine ⟨oneMore rx.frameBytes, v, .one (takesByte_dExt rfl (extByte_next.2 (.inr (.inr ⟨?_, ?_, ?_⟩))))⟩
    · exact (extCnt_eq_iff (by omega) (by omega)).2 (by omega)
    · right
      rw [extTaken_extWork, Nat.pow_zero, Nat.div_one]
      exact BitVec.msb_eq_false_iff_two_mul_lt.2 (by rw [decodeState, extWork, hvalue]; omega)
    · rw [extTaken_extWork, Nat.sub_add_cancel hk, Nat.pow_zero, Nat.div_one]
      exact afterLength_decodeState hm rfl (hvalue.symm ▸ hcap)
  | succ k ih =>
    obtain ⟨count, acc, rest⟩ := ih (rx := { rx with frameBytes := oneMore rx.frameBytes }) (by omega) hm
    have place : n - (k + 1 + 1) + 1 = n - (k + 1) := by omega
    refine ⟨count, acc, .cons (takesByte_dExt rfl (extByte_next.2 (.inl ⟨?_, extTaken_extWork ..⟩))) ?_⟩
    · exact mt (extCnt_eq_iff (by omega) (by omega)).1 (by omega)
    · rw [place]
      exact rest

/-- R132 to R139: header byte 1 and the extended length of a frame, in any of the three forms. -/
theorem takes_length {f : WireFrame} (hfits : f.fits) (hcap : f.payload.length ≤ s.cfg.pbufBytes) :
    ∃ count dec, dec.keyCnt = 0#3 ∧ dec.payCnt = 0#64 ∧
      Takes (decodeState s .dB1 rx startWork m) (byte1Of f.key.isSome f.len7 :: f.extBytes)
        (decodeState s (lengthSeq f.key.isSome (BitVec.ofNat 64 f.payload.length))
          { rx with
            masked := .of f.key.isSome, len7 := .of f.len7, len := .of (BitVec.ofNat 64 f.payload.length)
            frameBytes := count } dec m) := by
  obtain ⟨fin, op, kind, key, payload⟩ := f
  cases kind with
  | direct => exact ⟨_, startWork, rfl, rfl, .one (takes_byte1_direct _ hfits hcap)⟩
  | ext16 =>
    have hbound : payload.length < 2 ^ 63 := Nat.lt_of_le_of_lt hfits (by decide)
    have none : payload.length / 256 ^ 2 = 0 := Nat.div_eq_of_lt (Nat.lt_of_le_of_lt hfits (by decide))
    obtain ⟨count, acc, rest⟩ := takes_extBytes (s := s) (m := m) (k := 1) (.inl rfl) hbound hcap (by decide)
      (rx := { rx with masked := .of key.isSome, len7 := .of 126#7, frameBytes := oneMore rx.frameBytes }) rfl
    rw [none] at rest
    exact ⟨count, _, rfl, rfl, .cons (takes_byte1_ext16 _) rest⟩
  | ext64 =>
    have hbound : payload.length < 2 ^ 63 := Nat.lt_of_le_of_lt hfits (by decide)
    have none : payload.length / 256 ^ 8 = 0 := Nat.div_eq_of_lt (Nat.lt_trans hbound (by decide))
    obtain ⟨count, acc, rest⟩ := takes_extBytes (s := s) (m := m) (k := 7) (.inr rfl) hbound hcap (by decide)
      (rx := { rx with masked := .of key.isSome, len7 := .of 127#7, frameBytes := oneMore rx.frameBytes }) rfl
    rw [none] at rest
    exact ⟨count, _, rfl, rfl, .cons (takes_byte1_ext64 _) rest⟩

/-! ### The key -/

/-- R140: the fields once key byte `i` is stored. -/
def keyStored (i : Fin 4) (r : Byte) (rx : RxRegs) : RxRegs :=
  { rx with key := rx.key.set i (.of r), frameBytes := oneMore rx.frameBytes }

/-- R140: a key byte is stored at its index. -/
theorem takes_keyByte {len : Word64} (hl : rx.len = .of len) (i : Fin 4) (r : Byte) :
    TakesByte (decodeState s .dKey rx { dec with keyCnt := BitVec.ofNat 3 i } m) r
      (decodeState s (if i = 3 then dataSeq len else .dKey) (keyStored i r rx)
        { dec with keyCnt := BitVec.ofNat 3 (i + 1) } m) := by
  have counts : ∀ i : Fin 4, (BitVec.ofNat 3 i).toNat = i ∧ (BitVec.ofNat 3 i + 1#3 = 4#3 ↔ i = 3) ∧
      BitVec.ofNat 3 i + 1#3 = BitVec.ofNat 3 (i + 1) := by decide
  obtain ⟨hvalue, hlast, hnext⟩ := counts i
  apply takesByte_dKey rfl
  rw [keyByteTaken_next]
  refine ⟨hvalue.symm ▸ i.isLt, ?_⟩
  by_cases hi : i = 3
  · refine .inr ⟨hlast.2 hi, len, hl, ?_⟩
    simp only [keyTaken, decodeState, keyStored, hvalue, hnext, if_pos hi]
    rfl
  · refine .inl ⟨mt hlast.1 hi, ?_⟩
    simp only [keyTaken, decodeState, keyStored, hvalue, hnext, if_neg hi]
    rfl

/-- R140: the four key bytes are stored, and the payload or the check follows. -/
theorem takes_key {len : Word64} (hl : rx.len = .of len) (hkey : dec.keyCnt = 0#3) (k : Vector Byte 4) :
    ∃ count, Takes (decodeState s .dKey rx dec m) k.toList
      (decodeState s (dataSeq len) { rx with key := k.map .of, frameBytes := count } { dec with keyCnt := 4#3 } m) := by
  have bytes : k.toList = [k[0], k[1], k[2], k[3]] := by
    apply List.ext_getElem (by simp)
    intro i hi _
    simp only [Vector.length_toList] at hi
    interval_cases i <;> rfl
  have stored : (((rx.key.set 0 (.of k[0])).set 1 (.of k[1])).set 2 (.of k[2])).set 3 (.of k[3]) = k.map .of := by
    apply Vector.ext
    intro i hi
    interval_cases i <;> simp
  have start : { dec with keyCnt := BitVec.ofNat 3 (0 : Fin 4) } = dec := by
    rw [show BitVec.ofNat 3 (0 : Fin 4) = dec.keyCnt from hkey.symm]
  have b0 := takes_keyByte (s := s) (dec := dec) (m := m) hl 0 k[0]
  have b1 := takes_keyByte (s := s) (rx := keyStored 0 k[0] rx) (dec := dec) (m := m) hl 1 k[1]
  have b2 := takes_keyByte (s := s) (rx := keyStored 1 k[1] (keyStored 0 k[0] rx)) (dec := dec) (m := m) hl 2 k[2]
  have b3 := takes_keyByte (s := s) (rx := keyStored 2 k[2] (keyStored 1 k[1] (keyStored 0 k[0] rx))) (dec := dec) (m := m)
    hl 3 k[3]
  rw [start] at b0
  rw [bytes, ← stored]
  exact ⟨_, .cons b0 (.cons b1 (.cons b2 (.one b3)))⟩

/-! ### The payload -/

/-- R97, R190: the payload byte of index `i` as it stands on the wire. -/
def wireByte (key : Option (Vector Byte 4)) (i : Nat) (x : Byte) : Byte :=
  match key with
  | none => x
  | some k => x ^^^ k[i % 4]

/-- R97, R190: payload bytes from index `i` on, as they stand on the wire. -/
def wireBytes (key : Option (Vector Byte 4)) (i : Nat) : List Byte → List Byte
  | [] => []
  | x :: xs => wireByte key i x :: wireBytes key (i + 1) xs

theorem wirePayload_eq (f : WireFrame) : f.wirePayload = wireBytes f.key 0 f.payload := by
  obtain ⟨fin, op, kind, key, payload⟩ := f
  cases key with
  | none =>
    have plain (i : Nat) (p : List Byte) : wireBytes none i p = p := by
      induction p generalizing i with
      | nil => rfl
      | cons x xs ih => rw [wireBytes, ih, wireByte]
    exact (plain 0 payload).symm
  | some k =>
    have masked (i : Nat) (p : List Byte) : wireBytes (some k) i p = maskBytes k i p := by
      induction p generalizing i with
      | nil => rfl
      | cons x xs ih => rw [wireBytes, ih, wireByte, maskBytes]
    exact (masked 0 payload).symm

/-- R132, R140: MASK and the key as the header of a frame leaves them. -/
def keyFields (key : Option (Vector Byte 4)) (rx : RxRegs) : Prop :=
  rx.masked = .of key.isSome ∧ ∀ k, key = some k → rx.key = k.map .of

/-- R141, R191: the byte on the wire unmasks to the payload byte. -/
theorem unmasked_wireByte {key : Option (Vector Byte 4)} (hkey : keyFields key rx) (q : Seq) {i : Nat}
    (hi : dec.payCnt.toNat = i) (x : Byte) : unmasked (wireByte key i x) (decodeState s q rx dec m) = .ok x := by
  obtain ⟨hm, hk⟩ := hkey
  rw [unmasked_ok]
  cases key with
  | none => exact .inl ⟨hm, rfl⟩
  | some k =>
    refine .inr ⟨hm, k[i % 4], ?_, by rw [wireByte, BitVec.xor_assoc, BitVec.xor_self, BitVec.xor_zero]⟩
    simp only [decodeState, keyByte, hk k rfl, hi, Vector.getElem_map]

/-- R141: where the CODEC stands once `i` of `n` payload bytes are taken. -/
def paySeq (i n : Nat) : Seq := if i < n then .dPay else .dChk

theorem dataSeq_eq {n : Nat} (hn : n < 2 ^ 63) : dataSeq (BitVec.ofNat 64 n) = paySeq 0 n := by
  have value : (BitVec.ofNat 64 n).toNat = n := Nat.mod_eq_of_lt (by omega)
  simp only [dataSeq, paySeq, BitVec.lt_def, value, BitVec.toNat_ofNat, Nat.zero_mod]

/-- R141: payload byte `i` of `n` is stored, unmasked, at its index. -/
theorem takes_payByte {key : Option (Vector Byte 4)} (hkey : keyFields key rx) {i n : Nat}
    (hi : dec.payCnt = BitVec.ofNat 64 i) (hl : rx.len = .of (BitVec.ofNat 64 n)) (hin : i < n)
    (hcap : n ≤ s.cfg.pbufBytes) (hn : n < 2 ^ 63) (x : Byte) :
    TakesByte (decodeState s (paySeq i n) rx dec m) (wireByte key i x)
      (decodeState s (paySeq (i + 1) n) { rx with frameBytes := oneMore rx.frameBytes }
        { dec with payCnt := BitVec.ofNat 64 (i + 1) } (m.put i x)) := by
  have hvalue : dec.payCnt.toNat = i := by rw [hi]; exact Nat.mod_eq_of_lt (by omega)
  have hnext : dec.payCnt + 1#64 = BitVec.ofNat 64 (i + 1) := by rw [hi]; exact (BitVec.ofNat_add i 1).symm
  have hlast : (if BitVec.ofNat 64 (i + 1) = BitVec.ofNat 64 n then .dChk else .dPay) = paySeq (i + 1) n := by
    rw [paySeq, ← ite_not]
    refine if_congr ?_ rfl rfl
    rw [← BitVec.toNat_inj, BitVec.toNat_ofNat, BitVec.toNat_ofNat]
    omega
  rw [show paySeq i n = .dPay from if_pos hin]
  refine takesByte_dPay rfl (payByte_next.2 ⟨x, _, unmasked_wireByte hkey .dPay hvalue x, ?_, hl, ?_⟩)
  · exact Nat.lt_of_le_of_lt (Nat.le_of_eq hvalue) (Nat.lt_of_lt_of_le hin hcap)
  · simp only [payTaken, decodeState, hvalue, hnext, hlast]
    rfl

/-- A byte at index `i`, then the bytes behind it, are the bytes from index `i` on. -/
theorem find_stored_cons {m m' : Memory} {i : Nat} {x : Byte} {xs : List Byte}
    (h : ∀ a, m'.find a = if i + 1 ≤ a ∧ a < i + 1 + xs.length then xs[a - (i + 1)]? else (m.put i x).find a) (a : Nat) :
    m'.find a = if i ≤ a ∧ a < i + (x :: xs).length then (x :: xs)[a - i]? else m.find a := by
  rw [h, Memory.find_put, List.length_cons]
  rcases Nat.lt_trichotomy a i with before | rfl | behind
  · rw [if_neg (by omega), if_neg (by omega), if_neg (by omega)]
  · rw [if_neg (by omega), if_pos rfl, if_pos (by omega), Nat.sub_self]
    rfl
  · have place : a - i = a - (i + 1) + 1 := by omega
    rw [if_neg (show ¬ a = i by omega), place, List.getElem?_cons_succ]
    exact if_congr (by omega) rfl rfl

/-- R141: the payload bytes from index `i` on, unmasked, are stored at their indexes. -/
theorem takes_payload {key : Option (Vector Byte 4)} (hkey : keyFields key rx) {i n : Nat} {p : List Byte}
    (hlast : i + p.length = n) (hi : dec.payCnt = BitVec.ofNat 64 i) (hl : rx.len = .of (BitVec.ofNat 64 n))
    (hcap : n ≤ s.cfg.pbufBytes) (hn : n < 2 ^ 63) :
    ∃ count dec' m', Takes (decodeState s (paySeq i n) rx dec m) (wireBytes key i p)
        (decodeState s .dChk { rx with frameBytes := count } dec' m') ∧
      ∀ a, m'.find a = if i ≤ a ∧ a < i + p.length then p[a - i]? else m.find a := by
  induction p generalizing i rx dec m with
  | nil =>
    rw [show paySeq i n = .dChk from if_neg (by rw [List.length_nil] at hlast; omega)]
    exact ⟨_, _, _, .nil _, fun a => by rw [if_neg (by rw [List.length_nil]; omega)]⟩
  | cons x xs ih =>
    rw [List.length_cons] at hlast
    have first := takes_payByte (m := m) hkey hi hl (by omega) hcap hn x
    obtain ⟨count, dec', m', rest, hfind⟩ := ih (i := i + 1) (dec := { dec with payCnt := BitVec.ofNat 64 (i + 1) })
      (rx := { rx with frameBytes := oneMore rx.frameBytes }) (m := m.put i x) hkey (by omega) rfl hl
    exact ⟨count, dec', m', .cons first rest, find_stored_cons hfind⟩

/-! ### The whole frame -/

/-- R123, R132, R138: the fields that a frame's header leaves, before the key. -/
def headerFields (f : WireFrame) (count : Reg Word64) (rx : RxRegs) : RxRegs :=
  { rx with
    fin := .of f.fin, rsv := .of 0, opcode := .of f.op, masked := .of f.key.isSome, len7 := .of f.len7
    len := .of (BitVec.ofNat 64 f.payload.length), frameBytes := count }

/-- R140: the fields that a frame leaves; an unmasked frame leaves the key as it is. -/
def frameFields (f : WireFrame) (count : Reg Word64) (rx : RxRegs) : RxRegs :=
  { headerFields f count rx with key := (f.key.map (Vector.map .of)).getD rx.key }

theorem payload_lt_of_fits {f : WireFrame} (h : f.fits) : f.payload.length < 2 ^ 63 := by
  obtain ⟨fin, op, kind, key, payload⟩ := f
  cases kind with
  | direct => exact Nat.lt_of_le_of_lt h (by decide)
  | ext16 => exact Nat.lt_of_le_of_lt h (by decide)
  | ext64 => exact Nat.lt_of_le_of_lt h (by decide)

/-- R139, R140: the key, where the frame has one; then the payload or the check. -/
theorem takes_keyBytes {f : WireFrame} {len : Word64} (hl : rx.len = .of len) (hkey : dec.keyCnt = 0#3)
    (hpay : dec.payCnt = 0#64) :
    ∃ count dec', dec'.payCnt = 0#64 ∧
      Takes (decodeState s (lengthSeq f.key.isSome len) rx dec m) f.keyBytes
        (decodeState s (dataSeq len) { rx with key := (f.key.map (Vector.map .of)).getD rx.key, frameBytes := count }
          dec' m) := by
  obtain ⟨fin, op, kind, key, payload⟩ := f
  cases key with
  | none => exact ⟨_, dec, hpay, .nil _⟩
  | some k =>
    obtain ⟨count, rest⟩ := takes_key (s := s) (m := m) hl hkey k
    exact ⟨count, { dec with keyCnt := 4#3 }, hpay, rest⟩

/-- R120 to R141: the bytes of a whole frame are taken, its fields stand and its payload is in RX_PBUF. -/
theorem takes_frame {f : WireFrame} (hop : isReservedOp f.op = false) (hfits : f.fits)
    (hcap : f.payload.length ≤ s.cfg.pbufBytes) :
    ∃ count dec m', Takes (startDecode s) f.bytes
        (decodeState s .dChk (frameFields f count (startDecode s).rx) dec m') ∧
      ∀ a, m'.find a = if a < f.payload.length then f.payload[a]? else s.buf.rxPbuf.find a := by
  have hn := payload_lt_of_fits hfits
  have byte0 := takes_byte0 (s := s) (rx := (startDecode s).rx) (dec := startWork) (m := s.buf.rxPbuf) f.fin hop
  obtain ⟨count₁, dec₁, hkey₁, hpay₁, length⟩ := takes_length (s := s) (m := s.buf.rxPbuf) (rx := { (startDecode s).rx with
    fin := .of f.fin, rsv := .of 0, opcode := .of f.op, frameBytes := oneMore (startDecode s).rx.frameBytes }) hfits hcap
  obtain ⟨count₂, dec₂, hpay₂, key⟩ := takes_keyBytes (s := s) (f := f) (m := s.buf.rxPbuf)
    (rx := headerFields f count₁ (startDecode s).rx) rfl hkey₁ hpay₁
  have fields : keyFields f.key (frameFields f count₂ (startDecode s).rx) :=
    ⟨rfl, fun k hk => by simp only [frameFields, hk, Option.map_some, Option.getD_some]⟩
  obtain ⟨count, dec, m', payload, hfind⟩ := takes_payload (s := s) (m := s.buf.rxPbuf) fields (Nat.zero_add _) hpay₂ rfl
    hcap hn
  rw [← dataSeq_eq hn] at payload
  have parts : f.bytes = byte0Of f.fin 0 f.op :: ((byte1Of f.key.isSome f.len7 :: f.extBytes) ++
      (f.keyBytes ++ wireBytes f.key 0 f.payload)) := by
    simp only [WireFrame.bytes, WireFrame.header, wirePayload_eq, List.append_assoc, List.cons_append, List.nil_append]
  refine ⟨count, dec, m', ?_, fun a => ?_⟩
  · rw [parts, startDecode_eq]
    exact .cons byte0 (length.append (key.append payload))
  · rw [hfind a, Nat.zero_add, Nat.sub_zero]
    exact if_congr (by omega) rfl rfl

end

end Sys2Proof.Machine
end

section
/-! Whole DECODE commands, whatever the deliveries (40_decode.md R120 to R146, 20_memory.md R77). -/

namespace Sys2Proof.Machine

/-! ### The run -/

/-- R101: DECODE accepted, with the end of the stream known and its bytes set aside. -/
def decodeLatched (s : State) : State :=
  latchOperands 1#3 { s with env := { s.env with rx := [], rxClosed := closesBy s, offer := none, agenda := [] } }

/-- R121: the frame begins. -/
def decodeStart (s : State) : State := startDecode (decodeLatched s)

section
variable {s : State} (hq : s.seq = .idle) (hdeliver : ∀ turn ∈ s.env.agenda, turn.delivers = true)
  (hoffer : s.env.offer = some 1)
include hq hdeliver hoffer

/-- R101, R121: with every byte delivered, the first step accepts the command. -/
theorem step_settled_decode : step (settled s) = .next (withRx (feed s) (decodeStart s)) := by
  rw [settled, readyAfter_delivers hdeliver, step_codec rfl]
  exact (codecTurn_idle_offer (c := 1) (by exact hq) (by exact hoffer)).trans (exec_decode (by exact hq))

/-- R77: acceptance, one step a byte, and one step more, however the bytes arrive; where that comes to rest, so does the
command. -/
theorem decode_run {bs others : List Byte} {t v : State} (hfeed : feed s = bs ++ others)
    (htakes : Takes (decodeStart s) bs t) (hlast : codecTurn (withRx others t) = .next v) (hv : step v = .next v) :
    runSteps (s.env.agenda.length + 2 + bs.length) s = .next v := by
  have taken := htakes.runSteps rfl others
  have last : runSteps 1 (withRx others t) = .next v := by
    rw [runSteps, step_codec (s := withRx others t) (htakes.agenda rfl), hlast]
    rfl
  have first : runSteps 1 (settled s) = .next (withRx (bs ++ others) (decodeStart s)) := by
    rw [runSteps, step_settled_decode hq hdeliver hoffer, hfeed]
    rfl
  have whole : runSteps (1 + (bs.length + 1)) (settled s) = .next v := by
    rw [runSteps_add _ first, runSteps_add _ taken, last]
  have count : s.env.agenda.length + 2 + bs.length = s.env.agenda.length + (1 + (bs.length + 1)) := by omega
  rw [count]
  exact runSteps_settled hv s.env.agenda _ s rfl (.inl hdeliver) whole

/-- The command takes all bytes of a frame and comes to its check; what the check answers ends the command. -/
theorem decode_frame_run {f : WireFrame} {after : List Byte} (hop : isReservedOp f.op = false) (hfits : f.fits)
    (hcap : f.payload.length ≤ s.cfg.pbufBytes) (hfeed : feed s = f.bytes ++ after) :
    ∃ dec m, (∀ a, m.find a = if a < f.payload.length then f.payload[a]? else s.buf.rxPbuf.find a) ∧
      ∀ v, stepChk (withRx after (decodeState (decodeStart s) .dChk
          (frameFields f (.of (BitVec.ofNat 64 f.bytes.length)) (decodeStart s).rx) dec m)) = .next v →
        step v = .next v → runSteps (s.env.agenda.length + 2 + f.bytes.length) s = .next v := by
  obtain ⟨count, dec, m, htakes, hfind⟩ := takes_frame (s := decodeLatched s) hop hfits hcap
  have hcount : count = .of (BitVec.ofNat 64 f.bytes.length) :=
    htakes.counted.1.trans (congrArg Reg.of (BitVec.zero_add _))
  subst hcount
  exact ⟨dec, m, hfind, fun v hcheck => decode_run hq hdeliver hoffer hfeed htakes ((codecTurn_dChk rfl).trans hcheck)⟩

end

/-! ### The frame delivered -/

theorem step_idle_hold {v : State} (hq : v.seq = .idle) (ho : v.env.offer = none) (ha : v.env.agenda = []) :
    step v = .next v := (step_codec ha).trans (codecTurn_hold_idle hq ho)

theorem step_error_hold {v : State} (hq : v.seq = .error) (ha : v.env.agenda = []) : step v = .next v :=
  (step_codec ha).trans (codecTurn_error hq)

/-- R144: the check of a frame's control constraints, on the word that holds its length. -/
theorem lengthWord_gt_iff {n : Nat} (hn : n < 2 ^ 63) : 125#64 < BitVec.ofNat 64 n ↔ 125 < n := by
  have value : (BitVec.ofNat 64 n).toNat = n := Nat.mod_eq_of_lt (by omega)
  rw [BitVec.lt_def, value]
  rfl

/-- Settles O53: the frame's bytes are taken one a step, and the frame passes its check. -/
theorem decodeDeliversTheFrame : Obligations.DecodeDeliversTheFrame := by
  intro s f after hlegal hcap hq hdeliver hoffer hfeed
  obtain ⟨hop, hcontrol, hfits⟩ := hlegal
  obtain ⟨dec, m, hfind, hrun⟩ := decode_frame_run hq hdeliver hoffer hop hfits hcap hfeed
  have hpass : ¬ (isControlOp f.op = true ∧ (f.fin = false ∨ 125#64 < BitVec.ofNat 64 f.payload.length)) := by
    rintro ⟨hc, hbad⟩
    obtain ⟨hfin, hshort⟩ := hcontrol hc
    rw [lengthWord_gt_iff (payload_lt_of_fits hfits), hfin] at hbad
    simp at hbad
    omega
  refine ⟨_, hrun _ ((stepChk_eq rfl rfl rfl).trans (congrArg _ (if_neg hpass))) (step_idle_hold rfl rfl rfl), rfl, rfl, rfl,
    rfl, rfl, rfl, fun k hk i => ?_, fun hk i => ?_, rfl, rfl, hfind, rfl, rfl, rfl, rfl, rfl, rfl, rfl, rfl, rfl, rfl, rfl⟩
  · have key : (f.key.map (Vector.map .of)).getD (decodeStart s).rx.key = k.map .of := by rw [hk]; rfl
    exact (congrArg (·[i]) key).trans (Vector.getElem_map _ _)
  · have key : (f.key.map (Vector.map .of)).getD (decodeStart s).rx.key = s.rx.key.map Reg.forget := by rw [hk]; rfl
    exact congrArg Reg.known ((congrArg (·[i]) key).trans (Vector.getElem_map _ _))

/-! ### The frame rejected -/

/-- Settles O55: the frame's bytes are all taken before its check rejects it. -/
theorem badControlFrameTakenWhole : Obligations.BadControlFrameTakenWhole := by
  intro s f after hcontrol hbad hfits hcap hq hdeliver hoffer hfeed
  have classes : ∀ op : BitVec 4, isControlOp op = true → isReservedOp op = false := by decide
  have hc := (isControlOp_iff f.op).2 hcontrol
  obtain ⟨dec, m, -, hrun⟩ := decode_frame_run hq hdeliver hoffer (classes _ hc) hfits hcap hfeed
  have hfail : isControlOp f.op = true ∧ (f.fin = false ∨ 125#64 < BitVec.ofNat 64 f.payload.length) :=
    ⟨hc, by rwa [lengthWord_gt_iff (payload_lt_of_fits hfits)]⟩
  exact ⟨_, hrun _ ((stepChk_eq rfl rfl rfl).trans (congrArg _ (if_pos hfail))) (step_error_hold rfl rfl), rfl, rfl, rfl, rfl,
    rfl, rfl⟩

/-! ### The frame cut short -/

/-- R122, R132, R136, R140, R141: what the end of the stream raises while the CODEC waits for a byte. -/
theorem codecTurn_eos {s : State} (htaking : s.seq.taking = true) (hrx : s.env.rx = []) (hclosed : s.env.rxClosed = true) :
    codecTurn s = .next (raise (if s.seq = .dB0 then .connectionClosed else .truncatedStream) s) := by
  unfold codecTurn
  cases hq : s.seq <;> simp only [hq, Seq.taking, Bool.false_eq_true] at htaking <;>
    exact rxTake_eos hrx hclosed _ _

/-- Settles O54: a part of the frame's bytes leaves the CODEC waiting for the next one, when the stream ends. -/
theorem cutFrameIsNeverDelivered : Obligations.CutFrameIsNeverDelivered := by
  intro s f n hop hfits hcap hn hq hdeliver hoffer hfeed hclosed
  obtain ⟨_, _, _, hframe, -⟩ := takes_frame (s := decodeLatched s) hop hfits hcap
  obtain ⟨u, htakes, htaking, hinside⟩ := hframe.cut hn
  obtain ⟨hbytes, hvalid⟩ := htakes.counted
  have hlength : (f.bytes.take n).length = n := List.length_take_of_le hn.le
  have heos : codecTurn (withRx [] u) = .next _ := codecTurn_eos htaking rfl (htakes.rxClosed.trans hclosed)
  have hrun := decode_run hq hdeliver hoffer (hfeed.trans (List.append_nil _).symm) htakes heos
    (step_error_hold rfl (htakes.agenda rfl))
  rw [hlength] at hrun hbytes
  refine ⟨_, hrun, rfl, rfl, rfl, ?_, hvalid, hbytes.trans (congrArg Reg.of (BitVec.zero_add _)), rfl⟩
  cases n with
  | zero =>
    cases htakes
    rfl
  | succ n => exact (if_neg (hinside n.succ_pos)).trans (if_neg n.succ_ne_zero).symm

end Sys2Proof.Machine
end

section
/-! Whole ENCODE commands, however the sink's readiness changes (41_encode.md R170 to R180, 20_memory.md R78). -/

namespace Sys2Proof.Machine

/-! ### Emission -/

/-- `s` with ENCODE at STATE `q`, the bytes `sent` handed to the sink and counted, and the two counters as given. -/
def encodeState (s : State) (q : Seq) (done : Bool) (sent : List Byte) (cnt : BitVec 4) (pay : Word64) : State :=
  { s with
    seq := q, status := { s.status with done := done }, env := { s.env with tx := s.env.tx ++ sent }
    enc := { s.enc with cnt := cnt, payCnt := pay, txBytes := .of (BitVec.ofNat 64 sent.length) } }

theorem hdrSent_encodeState (s : State) (q : Seq) (done : Bool) (sent : List Byte) (cnt : BitVec 4) (pay : Word64) (b : Byte) :
    hdrSent b (encodeState s q done sent cnt pay) = encodeState s q done (sent ++ [b]) (cnt + 1#4) pay := by
  simp only [hdrSent, encodeState, List.append_assoc, List.length_append, List.length_singleton, BitVec.ofNat_add]

theorem paySent_encodeState (s : State) (q : Seq) (done : Bool) (sent : List Byte) (cnt : BitVec 4) (pay : Word64) (b : Byte) :
    paySent b (encodeState s q done sent cnt pay) = encodeState s q done (sent ++ [b]) cnt (pay + 1#64) := by
  simp only [paySent, encodeState, List.append_assoc, List.length_append, List.length_singleton, BitVec.ofNat_add]

/-- R176 to R178: `s` has the header of a frame in E_HDR and its payload in TX_PBUF; the frame has `h` header bytes, and
its bytes are `bytes`. -/
structure ReadyToEmit (s : State) (h : Nat) (bytes : List Byte) : Prop where
  sink    : s.env.txReady = true
  agenda  : s.env.agenda = []
  hdrLen  : s.enc.hdrLen = BitVec.ofNat 4 h
  form    : 0 < h ∧ h ≤ 10
  whole   : h ≤ bytes.length
  len     : s.latch.len = .of (BitVec.ofNat 64 (bytes.length - h))
  fits    : bytes.length - h ≤ s.cfg.pbufBytes
  short   : bytes.length - h < 2 ^ 63
  header  : ∀ i, i < h → s.enc.hdr[i]? = bytes[i]?
  payload : ∀ i, h ≤ i → i < bytes.length → s.buf.txPbuf.find (i - h) = bytes[i]?

/-- R177 to R179: STATE once `k` of a frame's `n` bytes are emitted. -/
def emitSeq (h n k : Nat) : Seq := if k < h then .eHdr else if k < n then .ePay else .idle

theorem emitSeq_eHdr {h n k : Nat} (hk : k < h) : emitSeq h n k = .eHdr := if_pos hk

theorem emitSeq_ePay {h n k : Nat} (hk : h ≤ k) (hn : k < n) : emitSeq h n k = .ePay :=
  (if_neg (Nat.not_lt.2 hk)).trans (if_pos hn)

theorem emitSeq_idle {h n k : Nat} (hk : h ≤ k) (hn : n ≤ k) : emitSeq h n k = .idle :=
  (if_neg (Nat.not_lt.2 hk)).trans (if_neg (Nat.not_lt.2 hn))

/-- The state once `k` bytes of the frame are emitted. -/
def emitted (s : State) (h : Nat) (bytes : List Byte) (k : Nat) : State :=
  encodeState s (emitSeq h bytes.length k) (decide (bytes.length ≤ k)) (bytes.take k) (BitVec.ofNat 4 (min k h))
    (BitVec.ofNat 64 (k - h))

theorem lengthWord_pos_iff {n : Nat} (hn : n < 2 ^ 63) : 0#64 < BitVec.ofNat 64 n ↔ 0 < n := by
  rw [BitVec.lt_def, BitVec.toNat_ofNat, BitVec.toNat_ofNat]
  omega

section
variable {s : State} {h : Nat} {bytes : List Byte} (hs : ReadyToEmit s h bytes) {k : Nat}
include hs

/-- R177: a header byte is emitted; behind the last one comes the payload, or the end. -/
theorem stepHdr_emitted (hk : k < h) : stepHdr (emitted s h bytes k) = .next (emitted s h bytes (k + 1)) := by
  obtain ⟨hpos, hform⟩ := hs.form
  have hwhole := hs.whole
  have hbyte : bytes[k]? = some bytes[k] := List.getElem?_eq_getElem (by omega)
  have hcnt : (BitVec.ofNat 4 (min k h)).toNat = k := by
    rw [Nat.min_eq_left hk.le, BitVec.toNat_ofNat]
    omega
  have hnext : BitVec.ofNat 4 (min k h) + 1#4 = BitVec.ofNat 4 (min (k + 1) h) := by
    rw [Nat.min_eq_left hk.le, Nat.min_eq_left (by omega)]
    exact (BitVec.ofNat_add k 1).symm
  have hlast : BitVec.ofNat 4 (min (k + 1) h) = BitVec.ofNat 4 h ↔ k + 1 = h := by
    rw [← BitVec.toNat_inj, BitVec.toNat_ofNat, BitVec.toNat_ofNat]
    omega
  have hsent : hdrSent bytes[k] (emitted s h bytes k) = encodeState s (emitSeq h bytes.length k)
      (decide (bytes.length ≤ k)) (bytes.take (k + 1)) (BitVec.ofNat 4 (min (k + 1) h)) (BitVec.ofNat 64 (k + 1 - h)) := by
    rw [emitted, hdrSent_encodeState, hnext, List.take_succ_eq_append_getElem (by omega), Nat.sub_eq_zero_of_le hk.le,
      Nat.sub_eq_zero_of_le (Nat.succ_le_of_lt hk)]
  refine stepHdr_next.2 (.inr ⟨hs.sink, bytes[k], ?_, ?_⟩)
  · exact (congrArg (s.enc.hdr[·]?) hcnt).trans ((hs.header k hk).trans hbyte)
  · rw [hsent]
    by_cases hend : k + 1 = h
    · refine .inr ⟨hnext.trans ((hlast.2 hend).trans hs.hdrLen.symm), _, hs.len, ?_⟩
      by_cases hmore : h < bytes.length
      · rw [if_pos (lengthWord_pos_iff hs.short |>.2 (by omega)), emitted, emitSeq_ePay hend.ge (by omega),
          decide_eq_false (by omega), decide_eq_false (by omega)]
        rfl
      · rw [if_neg (mt (lengthWord_pos_iff hs.short).1 (by omega)), emitted, emitSeq_idle hend.ge (by omega),
          decide_eq_false (by omega), decide_eq_true (by omega)]
        rfl
    · refine .inl ⟨fun heq => hend (hlast.1 (hnext.symm.trans (heq.trans hs.hdrLen))), ?_⟩
      rw [emitted, decide_eq_false (by omega), decide_eq_false (by omega), emitSeq_eHdr hk, emitSeq_eHdr (by omega)]

/-- R178: a payload byte is emitted, and the last one ends the command. -/
theorem stepEncPay_emitted (hk : h ≤ k) (hn : k < bytes.length) :
    stepEncPay (emitted s h bytes k) = .next (emitted s h bytes (k + 1)) := by
  obtain ⟨hpos, hform⟩ := hs.form
  have hwhole := hs.whole
  have hshort := hs.short
  have hbyte : bytes[k]? = some bytes[k] := List.getElem?_eq_getElem hn
  have hcnt : (BitVec.ofNat 64 (k - h)).toNat = k - h := Nat.mod_eq_of_lt (by omega)
  have hnext : BitVec.ofNat 64 (k - h) + 1#64 = BitVec.ofNat 64 (k + 1 - h) := by
    rw [Nat.sub_add_comm hk]
    exact (BitVec.ofNat_add _ 1).symm
  have hlast : (emitted s h bytes k).enc.payCnt + 1#64 = BitVec.ofNat 64 (bytes.length - h) ↔ bytes.length ≤ k + 1 := by
    rw [show (emitted s h bytes k).enc.payCnt + 1#64 = _ from hnext, ← BitVec.toNat_inj, BitVec.toNat_ofNat,
      BitVec.toNat_ofNat]
    omega
  have hsent : paySent bytes[k] (emitted s h bytes k) = encodeState s (emitSeq h bytes.length k)
      (decide (bytes.length ≤ k)) (bytes.take (k + 1)) (BitVec.ofNat 4 (min (k + 1) h)) (BitVec.ofNat 64 (k + 1 - h)) := by
    rw [emitted, paySent_encodeState, hnext, List.take_succ_eq_append_getElem hn, Nat.min_eq_right hk,
      Nat.min_eq_right (Nat.le_succ_of_le hk)]
  refine stepEncPay_next.2 (.inr ⟨hs.sink, ?_, bytes[k], _, ?_, hs.len, ?_⟩)
  · exact Nat.lt_of_le_of_lt (Nat.le_of_eq hcnt) (Nat.lt_of_lt_of_le (by omega) hs.fits)
  · exact (congrArg s.buf.txPbuf.find hcnt).trans ((hs.payload k hk hn).trans hbyte)
  · rw [hsent]
    by_cases hend : bytes.length ≤ k + 1
    · rw [if_pos (hlast.2 hend), emitted, emitSeq_idle (by omega) hend, decide_eq_true hend]
      rfl
    · rw [if_neg (mt hlast.1 hend), emitted, emitSeq_ePay hk hn, emitSeq_ePay (by omega) (by omega),
        decide_eq_false (by omega), decide_eq_false hend]

/-- R177 to R179: while bytes are left, each step emits one. -/
theorem step_emitted (hn : k < bytes.length) : step (emitted s h bytes k) = .next (emitted s h bytes (k + 1)) := by
  rw [step_codec (s := emitted s h bytes k) hs.agenda]
  rcases Nat.lt_or_ge k h with hk | hk
  · exact (codecTurn_eHdr (s := emitted s h bytes k) (if_pos hk)).trans (stepHdr_emitted hs hk)
  · exact (codecTurn_ePay (s := emitted s h bytes k) (emitSeq_ePay hk hn)).trans (stepEncPay_emitted hs hk hn)

theorem runSteps_emitted (hk : k ≤ bytes.length) :
    runSteps k (emitted s h bytes 0) = .next (emitted s h bytes k) := by
  induction k with
  | zero => rfl
  | succ k ih =>
    rw [runSteps_add 1 (ih (by omega)), runSteps, step_emitted hs hk]
    rfl

end

/-! ### The header in E_HDR -/

/-- From index 0 on, E_HDR holds the given bytes, and E_HDR_LEN is their number. -/
structure HoldsHeader (e : EncRegs) (header : List Byte) : Prop where
  hdrLen : e.hdrLen = BitVec.ofNat 4 header.length
  bytes  : ∀ i, i < header.length → e.hdr[i]? = header[i]?

theorem holdsHeader_direct {e : EncRegs} {b : Byte} (he : e.hdr[0] = b) (len7 : BitVec 7) :
    HoldsHeader (encDirect len7 e) [b, byte1Of false len7] := by
  refine ⟨rfl, fun i (hi : i < 2) => ?_⟩
  interval_cases i <;> simp [encDirect, he]

theorem holdsHeader_ext16 {e : EncRegs} {b : Byte} (he : e.hdr[0] = b) (len : Word64) :
    HoldsHeader (encExt16 len e) ([b, byte1Of false 126] ++ beBytes 2 len.toNat) := by
  rw [beBytes_two]
  refine ⟨rfl, fun i (hi : i < 4) => ?_⟩
  interval_cases i <;> simp [encExt16, he]

theorem holdsHeader_ext64 {e : EncRegs} {b : Byte} (he : e.hdr[0] = b) (len : Word64) :
    HoldsHeader (encExt64 len e) ([b, byte1Of false 127] ++ beBytes 8 len.toNat) := by
  rw [beBytes_eight]
  refine ⟨rfl, fun i (hi : i < 10) => ?_⟩
  interval_cases i <;> simp [encExt64, he]

/-- R173 to R176: the length form that the length selects builds the header of the encoded frame. -/
theorem holdsHeader_encLenForm {e : EncRegs} {fin : Bool} {op : BitVec 4} {p : List Byte}
    (he : e.hdr[0] = byte0Of fin 0 op) (hn : p.length < 2 ^ 63) :
    HoldsHeader (encLenForm (BitVec.ofNat 64 p.length) e) (encodedFrame fin op p).header ∧
      (encodedFrame fin op p).header.length ≤ 10 := by
  have value : (BitVec.ofNat 64 p.length).toNat = p.length := Nat.mod_eq_of_lt (by omega)
  have bound (n : Nat) (hb : n < 2 ^ 63) : BitVec.ofNat 64 p.length ≤ BitVec.ofNat 64 n ↔ p.length ≤ n := by
    rw [BitVec.le_def, value, BitVec.toNat_ofNat, Nat.mod_eq_of_lt (by omega)]
  by_cases hdirect : p.length ≤ 125
  · have header : (encodedFrame fin op p).header = [byte0Of fin 0 op, byte1Of false (BitVec.ofNat 7 p.length)] := by
      simp [WireFrame.header, WireFrame.len7, WireFrame.extBytes, WireFrame.keyBytes, encodedFrame, shortestKind, hdirect]
    have len7 : (BitVec.ofNat 64 p.length).setWidth 7 = BitVec.ofNat 7 p.length := by
      apply BitVec.eq_of_toNat_eq
      rw [BitVec.toNat_setWidth, value, BitVec.toNat_ofNat]
    rw [encLenForm, if_pos ((bound 125 (by decide)).2 hdirect), header, len7]
    exact ⟨holdsHeader_direct he _, by simp⟩
  rw [encLenForm, if_neg (mt (bound 125 (by decide)).1 hdirect)]
  by_cases hext16 : p.length ≤ 65535
  · have header : (encodedFrame fin op p).header = [byte0Of fin 0 op, byte1Of false 126] ++ beBytes 2 p.length := by
      simp [WireFrame.header, WireFrame.len7, WireFrame.extBytes, WireFrame.keyBytes, encodedFrame, shortestKind, hdirect,
        hext16]
    have built := holdsHeader_ext16 he (BitVec.ofNat 64 p.length)
    rw [value] at built
    rw [if_pos ((bound 65535 (by decide)).2 hext16), header]
    exact ⟨built, by simp [beBytes]⟩
  · have header : (encodedFrame fin op p).header = [byte0Of fin 0 op, byte1Of false 127] ++ beBytes 8 p.length := by
      simp [WireFrame.header, WireFrame.len7, WireFrame.extBytes, WireFrame.keyBytes, encodedFrame, shortestKind, hdirect,
        hext16]
    have built := holdsHeader_ext64 he (BitVec.ofNat 64 p.length)
    rw [value] at built
    rw [if_neg (mt (bound 65535 (by decide)).1 hext16), header]
    exact ⟨built, by simp [beBytes]⟩

/-! ### The run -/

/-- R20: an agenda of CODEC and sink turns leaves the RX stream as it is. -/
theorem settled_drains {s : State} (hdrains : ∀ turn ∈ s.env.agenda, turn.drains = true)
    (hready : readyAfter s.env.txReady s.env.agenda = true) :
    settled s = { s with env := { s.env with txReady := true, agenda := [] } } := by
  have nothing : ∀ agenda : List Turn, (∀ turn ∈ agenda, turn.drains = true) → delivered agenda = [] := by
    intro agenda
    induction agenda with
    | nil => exact fun _ => rfl
    | cons turn rest ih =>
      intro h
      have hrest := ih fun t ht => h t (List.mem_cons_of_mem _ ht)
      have hturn := h turn List.mem_cons_self
      cases turn with
      | codec => exact hrest
      | txSink ready => exact hrest
      | _ => cases hturn
  have noClose : Turn.rxClose ∉ s.env.agenda := fun h => nomatch hdrains _ h
  simp [settled, surround, feed, closesBy, nothing _ hdrains, noClose, hready]

/-- R171: ENCODE accepted on the given operands in `s`, with the sink as it will be. -/
def encodeStart (fin : Bool) (op : BitVec 4) (len : Word64) (s : State) : State :=
  startEncode fin op len (encodeLatched { s with env := { s.env with offer := none, txReady := true, agenda := [] } })

/-- R171: at the start nothing is emitted. -/
theorem emitted_zero (fin : Bool) (op : BitVec 4) (len : Word64) (s : State) {h : Nat} {bytes : List Byte} (hh : 0 < h)
    (hbytes : 0 < bytes.length) : emitted (encodeStart fin op len s) h bytes 0 = encodeStart fin op len s := by
  have cleared : ∀ e : EncRegs, e.cnt = 0#4 → e.payCnt = 0#64 → e.txBytes = .of 0#64 →
      { e with cnt := 0#4, payCnt := 0#64, txBytes := .of 0#64 } = e := by
    rintro ⟨_, _, _, _, _⟩ rfl rfl rfl
    rfl
  obtain ⟨hcnt, hpay, htx⟩ := encLenForm_counters len (headerBegun fin op (encodeLatched s))
  have enc := cleared (encodeStart fin op len s).enc hcnt hpay htx
  rw [emitted, emitSeq_eHdr hh, decide_eq_false (Nat.not_le.2 hbytes), List.take_zero, Nat.zero_min, Nat.zero_sub]
  simp only [encodeState, List.append_nil, List.length_nil, enc]
  rfl

section
variable {s : State} {fin : Bool} {op : BitVec 4} {p : List Byte}

/-- R171: an ENCODE whose operands pass the checks is accepted. -/
theorem step_settled_encode (hq : s.seq = .idle) (hdrains : ∀ turn ∈ s.env.agenda, turn.drains = true)
    (hready : readyAfter s.env.txReady s.env.agenda = true) (hoffer : s.env.offer = some 2)
    (hfin : s.op.fin = .of fin) (hop : s.op.opcode = .of op) (hlen : s.op.len = .of (BitVec.ofNat 64 p.length))
    (hn : p.length < 2 ^ 63) (hcap : p.length ≤ s.cfg.pbufBytes) (hlegal : (encodedFrame fin op p).legal) :
    step (settled s) = .next (encodeStart fin op (BitVec.ofNat 64 p.length) s) := by
  obtain ⟨hreserved, hcontrol, -⟩ := hlegal
  have value : (BitVec.ofNat 64 p.length).toNat = p.length := Nat.mod_eq_of_lt (by omega)
  have hpass : ¬ (isReservedOp op = true ∨ (isControlOp op = true ∧ (fin = false ∨ 125#64 < BitVec.ofNat 64 p.length)) ∨
      s.cfg.pbufBytes < (BitVec.ofNat 64 p.length).toNat) := by
    rw [lengthWord_gt_iff hn, value]
    rintro (hr | ⟨hc, hbad⟩ | hbig)
    · exact Bool.false_ne_true (hreserved.symm.trans hr)
    · obtain ⟨hf, hshort⟩ := hcontrol hc
      rcases hbad with hf' | hlong
      · exact Bool.false_ne_true (hf'.symm.trans hf)
      · exact Nat.not_lt.2 hshort hlong
    · exact Nat.not_lt.2 hcap hbig
  rw [settled_drains hdrains hready, step_codec rfl]
  exact (codecTurn_encode (by exact hq) (by exact hoffer)).trans
    ((acceptEncode_eq hfin hop hlen).trans (congrArg _ (if_neg hpass)))

/-- R176: acceptance leaves the frame ready to be emitted. -/
theorem readyToEmit_encodeStart (hn : p.length < 2 ^ 63) (hcap : p.length ≤ s.cfg.pbufBytes)
    (hlen : s.op.len = .of (BitVec.ofNat 64 p.length)) (hpayload : ∀ i x, p[i]? = some x → s.buf.txPbuf.find i = some x) :
    ReadyToEmit (encodeStart fin op (BitVec.ofNat 64 p.length) s) (encodedFrame fin op p).header.length
      (encodedFrame fin op p).bytes := by
  obtain ⟨⟨hdrLen, hbytes⟩, hform⟩ := holdsHeader_encLenForm (op := op) (p := p) (fin := fin)
    (headerBegun_byte0 fin op (encodeLatched s)) hn
  have parts : (encodedFrame fin op p).bytes = (encodedFrame fin op p).header ++ p := rfl
  have rest : (encodedFrame fin op p).bytes.length - (encodedFrame fin op p).header.length = p.length := by
    rw [parts, List.length_append, Nat.add_sub_cancel_left]
  refine ⟨rfl, rfl, hdrLen, ⟨Nat.succ_pos _, hform⟩, ?_, ?_, ?_, ?_, fun i hi => ?_, fun i low high => ?_⟩
  · rw [parts, List.length_append]
    exact Nat.le_add_right _ _
  · rw [rest]
    exact hlen
  · rw [rest]
    exact hcap
  · rw [rest]
    exact hn
  · rw [parts, List.getElem?_append_left hi]
    exact hbytes i hi
  · have hin : i - (encodedFrame fin op p).header.length < p.length := by omega
    rw [parts, List.getElem?_append_right low, List.getElem?_eq_getElem hin]
    exact hpayload _ _ (List.getElem?_eq_getElem hin)

end

/-- Settles O52: acceptance builds the frame's header, and each step after it emits one byte of the frame. -/
theorem encodeEmitsTheFrame : Obligations.EncodeEmitsTheFrame := by
  intro s fin op p hq hdrains hready hoffer hcfg hfin hop hlen hcap hpayload hlegal
  have hn : p.length < 2 ^ 63 := Nat.lt_of_le_of_lt (hcap.trans (pbufBytes_le_of_wf hcfg)) (by decide)
  have hemit := readyToEmit_encodeStart (fin := fin) (op := op) hn hcap hlen hpayload
  have hfirst := step_settled_encode hq hdrains hready hoffer hfin hop hlen hn hcap hlegal
  have hpos : 0 < (encodedFrame fin op p).header.length := hemit.form.1
  have hbytes : 0 < (encodedFrame fin op p).bytes.length := hpos.trans_le hemit.whole
  rw [← emitted_zero fin op _ s hpos hbytes] at hfirst
  have hrun : runSteps (1 + (encodedFrame fin op p).bytes.length) (settled s) = _ :=
    (runSteps_add (a := 1) _ (by rw [runSteps, hfirst]; rfl)).trans (runSteps_emitted hemit (Nat.le_refl _))
  have hidle := emitSeq_idle hemit.whole (Nat.le_refl (encodedFrame fin op p).bytes.length)
  have htake := List.take_length (l := (encodedFrame fin op p).bytes)
  have hend := runSteps_settled (step_idle_hold hidle rfl rfl) s.env.agenda _ s rfl (.inr ⟨hdrains, hready⟩) hrun
  rw [← Nat.add_assoc] at hend
  refine ⟨_, hend, ?_, ?_, hidle, ?_, rfl, rfl, rfl, rfl, rfl, rfl, rfl, rfl⟩
  · simp only [emitted, encodeState, htake]
    rfl
  · simp only [emitted, encodeState, htake]
  · simp only [emitted, encodeState, decide_eq_true (Nat.le_refl _)]
    rfl

/-! ### ENCODE, then DECODE -/

/-- R173 to R175: the shortest length form can carry the length. -/
theorem encodedFrame_fits (fin : Bool) (op : BitVec 4) {p : List Byte} (hn : p.length < 2 ^ 63) :
    (encodedFrame fin op p).fits := by
  simp only [WireFrame.fits, encodedFrame, shortestKind]
  split_ifs with hdirect hext16
  · exact hdirect
  · exact hext16
  · exact Nat.le_pred_of_lt hn

/-- Settles O56: ENCODE emits the bytes of a legal frame, and DECODE delivers the frame that those bytes are. -/
theorem roundTrip : Obligations.RoundTrip := by
  intro s fin op p hq hdrains hready hoffer hcfg hfin hop hlen hcap hpayload hreserved hcontrol
  have hn : p.length < 2 ^ 63 := Nat.lt_of_le_of_lt (hcap.trans (pbufBytes_le_of_wf hcfg)) (by decide)
  have hlegal : (encodedFrame fin op p).legal := ⟨hreserved, hcontrol, encodedFrame_fits fin op hn⟩
  obtain ⟨t, hrun, henv, hsent, hidle, hstatus, -, -, -, -, -, -, -, hcfg'⟩ :=
    encodeEmitsTheFrame s fin op p hq hdrains hready hoffer hcfg hfin hop hlen hcap hpayload hlegal
  refine ⟨_, t, hrun, hidle, by rw [hstatus], ?_⟩
  intro first closed arrivals harrivals u hfeed
  have hbytes : feed u = (encodedFrame fin op p).bytes ++ [] := by
    rw [hfeed, henv, List.append_nil]
    exact List.drop_left
  obtain ⟨v, hdecode, hfields⟩ := decodeDeliversTheFrame u (encodedFrame fin op p) [] hlegal (hcfg'.symm ▸ hcap) hidle
    harrivals rfl hbytes
  obtain ⟨hvfin, hvrsv, hvop, hvmasked, -, hvlen, -, -, hvalid, hcount, hstored, -, -, hvenv, hvidle, hvstatus, -⟩ := hfields
  refine ⟨_, v, hdecode, hvidle, by rw [hvstatus], hvalid, hvfin, hvrsv, hvop, hvmasked, hvlen.trans hlen.symm,
    fun a ha => ?_, hcount.trans hsent.symm, by rw [hvenv]⟩
  calc v.buf.rxPbuf.find a
    _ = p[a]? := (hstored a).trans (if_pos ha)
    _ = some p[a] := List.getElem?_eq_getElem ha
    _ = s.buf.txPbuf.find a := (hpayload a p[a] (List.getElem?_eq_getElem ha)).symm

end Sys2Proof.Machine
end
